-- ==== Sys2Proof/Word.lean ====
section
/-! DEFINITION. The value types of 00_scope.md rule R9: bytes, the fixed-width words and byte sequences.
`I64` is a 64-bit pattern read in two's complement (`BitVec.toInt`), as rule R9 stores it. -/

namespace Sys2Proof

/-- R9: an 8-bit unsigned value. -/
abbrev Byte := BitVec 8
/-- R9: a 16-bit unsigned value; every packet header field (R8). -/
abbrev U16 := BitVec 16
/-- R9: a 24-bit unsigned value; a tag (R8). -/
abbrev U24 := BitVec 24
/-- R9: a 32-bit unsigned value; a TDF header word (R65), a declared content length (R221). -/
abbrev U32 := BitVec 32
/-- R9: a 64-bit unsigned value. -/
abbrev U64 := BitVec 64
/-- R9: a signed 64-bit value, stored in two's complement; its number is `BitVec.toInt`. -/
abbrev I64 := BitVec 64
/-- R9: a finite sequence of bytes. -/
abbrev Bytes := List Byte

end Sys2Proof
end

