-- ==== Sys2Proof/Syntax.lean ====
section
/-! DEFINITION. The values commands carry (42_tdf_value.md rule R160), the instructions (one constructor per row of
spec/opcode_table.json), and the raw forms in which they reach the block. -/

namespace Sys2Proof

/-- R160: the reduced element-kind set of List and PairList. -/
inductive Kind where
  | int | string | struct | triple | float
deriving DecidableEq, Repr

/-- R66: the eleven header type discriminants. -/
inductive TdfType where
  | int | string | blob | struct | list | pairList | union | varIntList | pair | triple | float
deriving DecidableEq, Repr

mutual

/-- R160: a TDF value, one of 11 variants, each carrying its 24-bit tag. -/
inductive Tdf where
  | int (tag : U24) (v : I64)
  | string (tag : U24) (s : Bytes)
  | blob (tag : U24) (b : Bytes)
  | struct (tag : U24) (start2 : Bool) (children : Tdfs)
  | list (tag : U24) (sub : Kind) (elems : Elems)
  | pairList (tag : U24) (subA subB : Kind) (as bs : Elems)
  | union (tag : U24) (disc : Byte) (inner : Inner)
  | varIntList (tag : U24) (vs : List I64)
  | pair (tag : U24) (a b : I64)
  | triple (tag : U24) (a b c : I64)
  | float (tag : U24) (bits : U64)
deriving DecidableEq, Repr

/-- R160: the `inner : Option Tdf` of a Union. -/
inductive Inner where
  | none
  | some (x : Tdf)
deriving DecidableEq, Repr

/-- R160: a sequence `[Tdf]` of children (a list type of its own, so that equality of trees is decidable by
deriving). -/
inductive Tdfs where
  | nil
  | cons (head : Tdf) (tail : Tdfs)
deriving DecidableEq, Repr

/-- R160: a headerless element of a List or PairList. -/
inductive Elem where
  | int (v : I64)
  | string (s : Bytes)
  | struct (start2 : Bool) (children : Tdfs)
  | triple (a b c : I64)
  | float (bits : U64)
deriving DecidableEq, Repr

/-- R160: a sequence `[Elem]`. -/
inductive Elems where
  | nil
  | cons (head : Elem) (tail : Elems)
deriving DecidableEq, Repr

end

/-- The two directions in which a dispatch row of the TDF Value unit runs (R168, R169, R170): the payload reader at
offset `pos` of the input, or the payload writer of the fields `x` after `off` bytes have been written; `depth` is
the nesting depth of the value (R161; for an element, of its List or PairList). -/
inductive Dispatch (α : Type) where
  | read (inp : Bytes) (pos depth : Nat)
  | write (x : α) (off depth : Nat)
deriving DecidableEq, Repr

/-- One constructor per row of spec/opcode_table.json: the 27 commands of 30_encoding.md rule R80, then the dispatch
rows of the TDF Value unit: the 11 header types (R171 to R181), the Union sentinel Empty (R183) and the 5 headerless
element kinds (R164). A cursor operand is its input and its offset (R12). -/
inductive Instr where
  | zzEnc (v : I64)
  | zzDec (u : U64)
  | varintWr (v : I64)
  | varintRd (inp : Bytes) (pos : Nat)
  | numWr (w : Int) (v : U64)
  | rdU8 (inp : Bytes) (pos : Nat)
  | rdU16 (inp : Bytes) (pos : Nat)
  | rdU32 (inp : Bytes) (pos : Nat)
  | rdF64 (inp : Bytes) (pos : Nat)
  | strWr (str : Bytes)
  | strRd (inp : Bytes) (pos : Nat)
  | blobWr (b : Bytes)
  | blobRd (inp : Bytes) (pos : Nat)
  | tagPack (label : Bytes)
  | tagUnpack (tag : U24)
  | tdfEnc (x : Tdf)
  | tdfDec (inp : Bytes) (pos : Nat)
  | contentDec (content : Bytes)
  | contentEnc (vals : List Tdf)
  | pktEnc (component command error qtype id : U16) (content : Bytes)
  | pktHdr (inp : Bytes) (pos : Nat)
  | pktDec (inp : Bytes) (pos : Nat)
  | streamPush (chunk : Bytes)
  | cfgWr (v : Byte)
  | cfgRd
  | statRd
  | blockReset
  | tdfInt (tag : U24) (o : Dispatch I64)
  | tdfString (tag : U24) (o : Dispatch Bytes)
  | tdfBlob (tag : U24) (o : Dispatch Bytes)
  | tdfStruct (tag : U24) (o : Dispatch (Bool × Tdfs))
  | tdfList (tag : U24) (o : Dispatch (Kind × Elems))
  | tdfPairList (tag : U24) (o : Dispatch (Kind × Kind × Elems × Elems))
  | tdfUnion (tag : U24) (o : Dispatch (Byte × Inner))
  | tdfVarIntList (tag : U24) (o : Dispatch (List I64))
  | tdfPair (tag : U24) (o : Dispatch (I64 × I64))
  | tdfTriple (tag : U24) (o : Dispatch (I64 × I64 × I64))
  | tdfFloat (tag : U24) (o : Dispatch U64)
  | unionEmpty (tag : U24) (o : Dispatch Unit)
  | elemInt (o : Dispatch I64)
  | elemString (o : Dispatch Bytes)
  | elemStruct (o : Dispatch (Bool × Tdfs))
  | elemTriple (o : Dispatch (I64 × I64 × I64))
  | elemFloat (o : Dispatch U64)
deriving DecidableEq, Repr

/-- R80, R285: one operand of a command as the caller hands it over, before its type is checked. -/
inductive Operand where
  /-- a number: a `Byte`, `U16`, `U24`, `U64`, `I64`, a width or a cursor offset -/
  | int (n : Int)
  | bytes (b : Bytes)
  | tdf (x : Tdf)
  | tdfs (xs : List Tdf)
deriving DecidableEq, Repr

/-- The four formats of spec/opcode_table.json. -/
inductive Format where
  | cmd | tdfType | unionDisc | elemKind
deriving DecidableEq, Repr

/-- An instruction as the decoder sees it: an opcode of one of the four formats with its operands.
`cmd`: a command code and its operand tuple (R80). `header`: a header word, with the payload at `pos` (R65, R169).
`value`: a value to be written, dispatched on its own type (R168). `disc`: a Union discriminant byte standing at `pos`
(R73). `empty`: a Union without inner value, to be written. `subtype`: a List or PairList subtype byte, with an
element at `pos` (R70). `elem`: an element to be written, dispatched on its own kind (R164). -/
inductive Raw where
  | cmd (code : Byte) (ops : List Operand)
  | header (w : U32) (inp : Bytes) (pos depth : Nat)
  | value (x : Tdf) (off depth : Nat)
  | disc (c : Byte) (tag : U24) (inp : Bytes) (pos depth : Nat)
  | empty (tag : U24) (off depth : Nat)
  | subtype (b : Byte) (inp : Bytes) (pos depth : Nat)
  | elem (e : Elem) (off depth : Nat)
deriving DecidableEq, Repr

/-- What waits at the block's input. `cmd` is a command of the interface of R80. The others are dispatches of the TDF
Value unit, asked for one at a time (DESIGN CHOICE, notes/assumptions/2.md): read the value whose header stands at
`pos` of `inp`; write the payload of a value; read the Union payload whose discriminant stands at `pos`; write the
payload of an empty Union; read one element at `pos` whose subtype byte stands at `subAt`; write one element. -/
inductive Request where
  | cmd (code : Byte) (ops : List Operand)
  | tdfRead (inp : Bytes) (pos depth : Nat)
  | tdfWrite (x : Tdf) (off depth : Nat)
  | unionRead (tag : U24) (inp : Bytes) (pos depth : Nat)
  | unionWriteEmpty (tag : U24) (off depth : Nat)
  | elemRead (subAt : Nat) (inp : Bytes) (pos depth : Nat)
  | elemWrite (e : Elem) (off depth : Nat)
deriving DecidableEq, Repr

/-- R285, R77: why a raw instruction is not one of the table's. -/
inductive DecodeError where
  /-- the command code is reserved (R80, R285) -/
  | reservedCode (code : Byte)
  /-- an operand of the command is missing, extra, or no value of the type the table gives it (R285) -/
  | badOperand (code : Byte)
  /-- a header type byte outside 0x00..0x0A (R77 (a), R182) -/
  | unknownType (ty : Byte)
  /-- a subtype byte outside the reduced kind set (R77 (b)) -/
  | unknownSubtype (b : Byte)
deriving DecidableEq, Repr

end Sys2Proof
end

