-- ==== Sys2Proof/WellFormed.lean ====
section
/-! DEFINITION. Which terms of `Instr` are instructions. The types already hold every operand in its width; what is
left is the cursor's `pos ≤ |IN|` (R12, R26) and, for a dispatch row, a depth of at least 1 (R161). A TDF value need
not meet rule R163 here: the encoder checks that itself and answers PRECONDITION. -/

namespace Sys2Proof

/-- R12, R26: a cursor is an input and an offset with `pos ≤ |IN|`. -/
def cursorOk (inp : Bytes) (pos : Nat) : Bool := decide (pos ≤ inp.length)

/-- A dispatch operand: a legal cursor when it reads, and a depth as R161 counts them, from 1. -/
def Dispatch.ok {α : Type} : Dispatch α → Bool
  | .read inp pos depth => cursorOk inp pos && decide (1 ≤ depth)
  | .write _ _ depth => decide (1 ≤ depth)

/-- The discriminant byte of an empty Union stands before the offset at which reading goes on. -/
def Dispatch.afterByte {α : Type} : Dispatch α → Bool
  | .read _ pos _ => decide (1 ≤ pos)
  | .write _ _ _ => true

/-- Every operand is a value of the type the spec gives it. -/
def Instr.wellFormed : Instr → Bool
  | .zzEnc _ => true
  | .zzDec _ => true
  | .varintWr _ => true
  | .varintRd inp pos => cursorOk inp pos
  | .numWr _ _ => true
  | .rdU8 inp pos => cursorOk inp pos
  | .rdU16 inp pos => cursorOk inp pos
  | .rdU32 inp pos => cursorOk inp pos
  | .rdF64 inp pos => cursorOk inp pos
  | .strWr _ => true
  | .strRd inp pos => cursorOk inp pos
  | .blobWr _ => true
  | .blobRd inp pos => cursorOk inp pos
  | .tagPack _ => true
  | .tagUnpack _ => true
  | .tdfEnc _ => true
  | .tdfDec inp pos => cursorOk inp pos
  | .contentDec _ => true
  | .contentEnc _ => true
  | .pktEnc _ _ _ _ _ _ => true
  | .pktHdr inp pos => cursorOk inp pos
  | .pktDec inp pos => cursorOk inp pos
  | .streamPush _ => true
  | .cfgWr _ => true
  | .cfgRd => true
  | .statRd => true
  | .blockReset => true
  | .tdfInt _ o => o.ok
  | .tdfString _ o => o.ok
  | .tdfBlob _ o => o.ok
  | .tdfStruct _ o => o.ok
  | .tdfList _ o => o.ok
  | .tdfPairList _ o => o.ok
  | .tdfUnion _ o => o.ok
  | .tdfVarIntList _ o => o.ok
  | .tdfPair _ o => o.ok
  | .tdfTriple _ o => o.ok
  | .tdfFloat _ o => o.ok
  | .unionEmpty _ o => o.ok && o.afterByte
  | .elemInt o => o.ok
  | .elemString o => o.ok
  | .elemStruct o => o.ok
  | .elemTriple o => o.ok
  | .elemFloat o => o.ok

end Sys2Proof
end

