-- ==== Sys2Proof/Decode.lean ====
section
/-! DEFINITION. The decoder: from a raw instruction of one of the four formats to the instruction, total, rejecting by
name; then the encoder, from the same tables (30_encoding.md rules R65, R66, R70, R80). There is no binary instruction
word (R80): a command is its 8-bit code and a tuple of operands, a TDF dispatch is its header word. -/

namespace Sys2Proof

/-! ## Operand types (R9, R285) -/

/-- R285: a number in -2^63 .. 2^63-1 is an I64. -/
def Operand.asI64 : Operand → Option I64
  | .int n => if -(2 ^ 63) ≤ n ∧ n < 2 ^ 63 then some (BitVec.ofInt 64 n) else none
  | _ => none

/-- R285: a number in 0 .. 2^w-1 is an unsigned value of w bits. -/
def Operand.asUnsigned (w : Nat) : Operand → Option (BitVec w)
  | .int n => if 0 ≤ n ∧ n < 2 ^ w then some (BitVec.ofInt w n) else none
  | _ => none

/-- Any integer (the width of NUM.WR: R107 answers PRECONDITION itself; notes/assumptions/8.md). -/
def Operand.asInt : Operand → Option Int
  | .int n => some n
  | _ => none

/-- A byte sequence. -/
def Operand.asBytes : Operand → Option Bytes
  | .bytes b => some b
  | _ => none

/-- A TDF value. -/
def Operand.asTdf : Operand → Option Tdf
  | .tdf x => some x
  | _ => none

/-- A list of TDF values. -/
def Operand.asTdfs : Operand → Option (List Tdf)
  | .tdfs xs => some xs
  | _ => none

/-- A command without operands. -/
def takeNone (i : Instr) : List Operand → Option Instr
  | [] => some i
  | _ => none

/-- A command of one operand. -/
def takeOne {α : Type} (ty : Operand → Option α) (mk : α → Instr) : List Operand → Option Instr
  | [a] => (ty a).map mk
  | _ => none

/-- A command whose operand is a cursor: an input and an offset `pos ≤ |IN|` (R12; notes/assumptions/6.md). -/
def takeCursor (mk : Bytes → Nat → Instr) : List Operand → Option Instr
  | [.bytes inp, .int n] => if 0 ≤ n ∧ n ≤ inp.length then some (mk inp n.toNat) else none
  | _ => none

/-- NUM.WR: a width and a U64 (R107). -/
def takeNum : List Operand → Option Instr
  | [w, v] =>
    match w.asInt, v.asUnsigned 64 with
    | some w, some v => some (.numWr w v)
    | _, _ => none
  | _ => none

/-- PKT.ENC: five U16 and a byte sequence (R220). -/
def takePacket : List Operand → Option Instr
  | [component, command, error, qtype, id, content] =>
    match component.asUnsigned 16, command.asUnsigned 16, error.asUnsigned 16, qtype.asUnsigned 16,
      id.asUnsigned 16, content.asBytes with
    | some c, some m, some e, some q, some i, some b => some (.pktEnc c m e q i b)
    | _, _, _, _, _, _ => none
  | _ => none

/-! ## The command table (R80) -/

/-- R80: the command a code names, as a reader of its operands; `none` for a reserved code. -/
def commandTable (code : Byte) : Option (List Operand → Option Instr) :=
  match code.toNat with
  | 0x01 => some (takeOne Operand.asI64 .zzEnc)
  | 0x02 => some (takeOne (Operand.asUnsigned 64) .zzDec)
  | 0x03 => some (takeOne Operand.asI64 .varintWr)
  | 0x04 => some (takeCursor .varintRd)
  | 0x05 => some takeNum
  | 0x06 => some (takeCursor .rdU8)
  | 0x07 => some (takeCursor .rdU16)
  | 0x08 => some (takeCursor .rdU32)
  | 0x09 => some (takeCursor .rdF64)
  | 0x0A => some (takeOne Operand.asBytes .strWr)
  | 0x0B => some (takeCursor .strRd)
  | 0x0C => some (takeOne Operand.asBytes .blobWr)
  | 0x0D => some (takeCursor .blobRd)
  | 0x10 => some (takeOne Operand.asBytes .tagPack)
  | 0x11 => some (takeOne (Operand.asUnsigned 24) .tagUnpack)
  | 0x20 => some (takeOne Operand.asTdf .tdfEnc)
  | 0x21 => some (takeCursor .tdfDec)
  | 0x22 => some (takeOne Operand.asBytes .contentDec)
  | 0x23 => some (takeOne Operand.asTdfs .contentEnc)
  | 0x30 => some takePacket
  | 0x31 => some (takeCursor .pktHdr)
  | 0x32 => some (takeCursor .pktDec)
  | 0x40 => some (takeOne Operand.asBytes .streamPush)
  | 0x41 => some (takeOne (Operand.asUnsigned 8) .cfgWr)
  | 0x42 => some (takeNone .cfgRd)
  | 0x43 => some (takeNone .statRd)
  | 0x4F => some (takeNone .blockReset)
  | _ => none

/-- R80, R285: a command is refused for its code, or else for its operands. -/
def decodeCommand (code : Byte) (ops : List Operand) : Except DecodeError Instr :=
  match commandTable code with
  | none => .error (.reservedCode code)
  | some take =>
    match take ops with
    | none => .error (.badOperand code)
    | some i => .ok i

/-! ## The discriminant map and the kind set (R66, R70) -/

/-- R66: the code of a header type. -/
def TdfType.code : TdfType → Byte
  | .int => 0x00
  | .string => 0x01
  | .blob => 0x02
  | .struct => 0x03
  | .list => 0x04
  | .pairList => 0x05
  | .union => 0x06
  | .varIntList => 0x07
  | .pair => 0x08
  | .triple => 0x09
  | .float => 0x0A

/-- R66, R77 (a): the header type of a byte; every byte outside 0x00..0x0A is illegal as a header type. -/
def TdfType.ofByte (b : Byte) : Option TdfType :=
  match b.toNat with
  | 0x00 => some .int
  | 0x01 => some .string
  | 0x02 => some .blob
  | 0x03 => some .struct
  | 0x04 => some .list
  | 0x05 => some .pairList
  | 0x06 => some .union
  | 0x07 => some .varIntList
  | 0x08 => some .pair
  | 0x09 => some .triple
  | 0x0A => some .float
  | _ => none

/-- R66: the sentinel Empty, a Union discriminant only. -/
def emptyDisc : Byte := 0x7F

/-- R160, R70: the code of an element kind. -/
def Kind.code : Kind → Byte
  | .int => 0x00
  | .string => 0x01
  | .struct => 0x03
  | .triple => 0x09
  | .float => 0x0A

/-- R70, R77 (b): the kind of a subtype byte. -/
def Kind.ofByte (b : Byte) : Option Kind :=
  match b.toNat with
  | 0x00 => some .int
  | 0x01 => some .string
  | 0x03 => some .struct
  | 0x09 => some .triple
  | 0x0A => some .float
  | _ => none

/-- R65: bits 31:8 of a header word. -/
def headerTag (w : U32) : U24 := w.extractLsb' 8 24

/-- R65: bits 7:0 of a header word. -/
def headerType (w : U32) : Byte := w.extractLsb' 0 8

/-- R65: the header word `tag << 8 | type`. -/
def headerWord (tag : U24) (ty : TdfType) : U32 := tag ++ ty.code

/-- R170: the dispatch row of a header type, reading. -/
def rowOfHeader (tag : U24) (inp : Bytes) (pos depth : Nat) : TdfType → Instr
  | .int => .tdfInt tag (.read inp pos depth)
  | .string => .tdfString tag (.read inp pos depth)
  | .blob => .tdfBlob tag (.read inp pos depth)
  | .struct => .tdfStruct tag (.read inp pos depth)
  | .list => .tdfList tag (.read inp pos depth)
  | .pairList => .tdfPairList tag (.read inp pos depth)
  | .union => .tdfUnion tag (.read inp pos depth)
  | .varIntList => .tdfVarIntList tag (.read inp pos depth)
  | .pair => .tdfPair tag (.read inp pos depth)
  | .triple => .tdfTriple tag (.read inp pos depth)
  | .float => .tdfFloat tag (.read inp pos depth)

/-- R168, R170: the dispatch row of a value to be written, by its variant. -/
def rowOfValue (off depth : Nat) : Tdf → Instr
  | .int tag v => .tdfInt tag (.write v off depth)
  | .string tag str => .tdfString tag (.write str off depth)
  | .blob tag b => .tdfBlob tag (.write b off depth)
  | .struct tag start2 cs => .tdfStruct tag (.write (start2, cs) off depth)
  | .list tag sub es => .tdfList tag (.write (sub, es) off depth)
  | .pairList tag subA subB as bs => .tdfPairList tag (.write (subA, subB, as, bs) off depth)
  | .union tag disc inner => .tdfUnion tag (.write (disc, inner) off depth)
  | .varIntList tag vs => .tdfVarIntList tag (.write vs off depth)
  | .pair tag a b => .tdfPair tag (.write (a, b) off depth)
  | .triple tag a b c => .tdfTriple tag (.write (a, b, c) off depth)
  | .float tag bits => .tdfFloat tag (.write bits off depth)

/-- R164: the dispatch row of a subtype byte, reading. -/
def rowOfKind (inp : Bytes) (pos depth : Nat) : Kind → Instr
  | .int => .elemInt (.read inp pos depth)
  | .string => .elemString (.read inp pos depth)
  | .struct => .elemStruct (.read inp pos depth)
  | .triple => .elemTriple (.read inp pos depth)
  | .float => .elemFloat (.read inp pos depth)

/-- R164: the dispatch row of an element to be written, by its kind. -/
def rowOfElem (off depth : Nat) : Elem → Instr
  | .int v => .elemInt (.write v off depth)
  | .string str => .elemString (.write str off depth)
  | .struct start2 cs => .elemStruct (.write (start2, cs) off depth)
  | .triple a b c => .elemTriple (.write (a, b, c) off depth)
  | .float bits => .elemFloat (.write bits off depth)

/-- R73, R177: a discriminant 0x7F at `pos` is the row UNION.Empty, going on after it; any other byte is accepted as it
stands, and the Union payload is read from it. -/
def rowOfDisc (c : Byte) (tag : U24) (inp : Bytes) (pos depth : Nat) : Instr :=
  if c = emptyDisc then .unionEmpty tag (.read inp (pos + 1) depth) else .tdfUnion tag (.read inp pos depth)

/-- What a legal dispatch operand is (R12, R161): a cursor within its input, a depth from 1. -/
def Raw.operandsOk : Raw → Bool
  | .cmd _ _ => true
  | .header _ inp pos depth => cursorOk inp pos && decide (1 ≤ depth)
  | .value _ _ depth => decide (1 ≤ depth)
  | .disc _ _ inp pos depth => decide (pos < inp.length) && decide (1 ≤ depth)
  | .empty _ _ depth => decide (1 ≤ depth)
  | .subtype _ inp pos depth => cursorOk inp pos && decide (1 ≤ depth)
  | .elem _ _ depth => decide (1 ≤ depth)

/-- The opcode byte of a raw instruction: the command code, the type byte, the discriminant or the subtype byte. -/
def Raw.opcode : Raw → Byte
  | .cmd code _ => code
  | .header w _ _ _ => headerType w
  | .value x _ _ => headerType (headerWord 0 (match x with
      | .int _ _ => .int
      | .string _ _ => .string
      | .blob _ _ => .blob
      | .struct _ _ _ => .struct
      | .list _ _ _ => .list
      | .pairList _ _ _ _ _ => .pairList
      | .union _ _ _ => .union
      | .varIntList _ _ => .varIntList
      | .pair _ _ _ => .pair
      | .triple _ _ _ _ => .triple
      | .float _ _ => .float))
  | .disc c _ _ _ _ => c
  | .empty _ _ _ => emptyDisc
  | .subtype b _ _ _ => b
  | .elem e _ _ => (match e with
      | .int _ => Kind.int
      | .string _ => Kind.string
      | .struct _ _ => Kind.struct
      | .triple _ _ _ => Kind.triple
      | .float _ => Kind.float).code

/-- The decoder. Total; a raw instruction that is none of the table's is rejected by name (R285, R77). -/
def decode (r : Raw) : Except DecodeError Instr :=
  if r.operandsOk then
    match r with
    | .cmd code ops => decodeCommand code ops
    | .header w inp pos depth =>
      match TdfType.ofByte (headerType w) with
      | none => .error (.unknownType (headerType w))
      | some ty => .ok (rowOfHeader (headerTag w) inp pos depth ty)
    | .value x off depth => .ok (rowOfValue off depth x)
    | .disc c tag inp pos depth => .ok (rowOfDisc c tag inp pos depth)
    | .empty tag off depth => .ok (.unionEmpty tag (.write () off depth))
    | .subtype b inp pos depth =>
      match Kind.ofByte b with
      | none => .error (.unknownSubtype b)
      | some k => .ok (rowOfKind inp pos depth k)
    | .elem e off depth => .ok (rowOfElem off depth e)
  else .error (.badOperand r.opcode)

/-! ## The encoder -/

/-- The operands of a cursor. -/
def cursorOps (inp : Bytes) (pos : Nat) : List Operand := [.bytes inp, .int pos]

/-- A dispatch row of a header type: its header word when it reads, the value itself when it writes. -/
def rawRow {α : Type} (tag : U24) (ty : TdfType) (mk : α → Tdf) : Dispatch α → Raw
  | .read inp pos depth => .header (headerWord tag ty) inp pos depth
  | .write x off depth => .value (mk x) off depth

/-- A dispatch row of an element kind: its subtype byte when it reads, the element itself when it writes. -/
def rawElem {α : Type} (k : Kind) (mk : α → Elem) : Dispatch α → Raw
  | .read inp pos depth => .subtype k.code inp pos depth
  | .write x off depth => .elem (mk x) off depth

/-- The row UNION.Empty: its discriminant byte, which stands just before `pos`, when it reads. -/
def rawEmpty (tag : U24) : Dispatch Unit → Raw
  | .read inp pos depth => .disc emptyDisc tag inp (pos - 1) depth
  | .write _ off depth => .empty tag off depth

/-- The raw form of an instruction. -/
def encode : Instr → Raw
  | .zzEnc v => .cmd 0x01 [.int v.toInt]
  | .zzDec u => .cmd 0x02 [.int u.toNat]
  | .varintWr v => .cmd 0x03 [.int v.toInt]
  | .varintRd inp pos => .cmd 0x04 (cursorOps inp pos)
  | .numWr w v => .cmd 0x05 [.int w, .int v.toNat]
  | .rdU8 inp pos => .cmd 0x06 (cursorOps inp pos)
  | .rdU16 inp pos => .cmd 0x07 (cursorOps inp pos)
  | .rdU32 inp pos => .cmd 0x08 (cursorOps inp pos)
  | .rdF64 inp pos => .cmd 0x09 (cursorOps inp pos)
  | .strWr str => .cmd 0x0A [.bytes str]
  | .strRd inp pos => .cmd 0x0B (cursorOps inp pos)
  | .blobWr b => .cmd 0x0C [.bytes b]
  | .blobRd inp pos => .cmd 0x0D (cursorOps inp pos)
  | .tagPack label => .cmd 0x10 [.bytes label]
  | .tagUnpack tag => .cmd 0x11 [.int tag.toNat]
  | .tdfEnc x => .cmd 0x20 [.tdf x]
  | .tdfDec inp pos => .cmd 0x21 (cursorOps inp pos)
  | .contentDec content => .cmd 0x22 [.bytes content]
  | .contentEnc vals => .cmd 0x23 [.tdfs vals]
  | .pktEnc component command error qtype id content =>
    .cmd 0x30 [.int component.toNat, .int command.toNat, .int error.toNat, .int qtype.toNat, .int id.toNat,
      .bytes content]
  | .pktHdr inp pos => .cmd 0x31 (cursorOps inp pos)
  | .pktDec inp pos => .cmd 0x32 (cursorOps inp pos)
  | .streamPush chunk => .cmd 0x40 [.bytes chunk]
  | .cfgWr v => .cmd 0x41 [.int v.toNat]
  | .cfgRd => .cmd 0x42 []
  | .statRd => .cmd 0x43 []
  | .blockReset => .cmd 0x4F []
  | .tdfInt tag o => rawRow tag .int (fun v => .int tag v) o
  | .tdfString tag o => rawRow tag .string (fun str => .string tag str) o
  | .tdfBlob tag o => rawRow tag .blob (fun b => .blob tag b) o
  | .tdfStruct tag o => rawRow tag .struct (fun x => .struct tag x.1 x.2) o
  | .tdfList tag o => rawRow tag .list (fun x => .list tag x.1 x.2) o
  | .tdfPairList tag o => rawRow tag .pairList (fun x => .pairList tag x.1 x.2.1 x.2.2.1 x.2.2.2) o
  | .tdfUnion tag o => rawRow tag .union (fun x => .union tag x.1 x.2) o
  | .tdfVarIntList tag o => rawRow tag .varIntList (fun vs => .varIntList tag vs) o
  | .tdfPair tag o => rawRow tag .pair (fun x => .pair tag x.1 x.2) o
  | .tdfTriple tag o => rawRow tag .triple (fun x => .triple tag x.1 x.2.1 x.2.2) o
  | .tdfFloat tag o => rawRow tag .float (fun bits => .float tag bits) o
  | .unionEmpty tag o => rawEmpty tag o
  | .elemInt o => rawElem .int (fun v => .int v) o
  | .elemString o => rawElem .string (fun str => .string str) o
  | .elemStruct o => rawElem .struct (fun x => .struct x.1 x.2) o
  | .elemTriple o => rawElem .triple (fun x => .triple x.1 x.2.1 x.2.2) o
  | .elemFloat o => rawElem .float (fun bits => .float bits) o

/-- The format of a raw instruction's opcode. -/
def Raw.format : Raw → Format
  | .cmd _ _ => .cmd
  | .header _ _ _ _ => .tdfType
  | .value _ _ _ => .tdfType
  | .disc _ _ _ _ _ => .unionDisc
  | .empty _ _ _ => .unionDisc
  | .subtype _ _ _ _ => .elemKind
  | .elem _ _ _ => .elemKind

/-- The row of spec/opcode_table.json an instruction belongs to: its format and the value of its 8 fixed bits. -/
def Instr.row : Instr → Format × Byte
  | .zzEnc _ => (.cmd, 0x01)
  | .zzDec _ => (.cmd, 0x02)
  | .varintWr _ => (.cmd, 0x03)
  | .varintRd _ _ => (.cmd, 0x04)
  | .numWr _ _ => (.cmd, 0x05)
  | .rdU8 _ _ => (.cmd, 0x06)
  | .rdU16 _ _ => (.cmd, 0x07)
  | .rdU32 _ _ => (.cmd, 0x08)
  | .rdF64 _ _ => (.cmd, 0x09)
  | .strWr _ => (.cmd, 0x0A)
  | .strRd _ _ => (.cmd, 0x0B)
  | .blobWr _ => (.cmd, 0x0C)
  | .blobRd _ _ => (.cmd, 0x0D)
  | .tagPack _ => (.cmd, 0x10)
  | .tagUnpack _ => (.cmd, 0x11)
  | .tdfEnc _ => (.cmd, 0x20)
  | .tdfDec _ _ => (.cmd, 0x21)
  | .contentDec _ => (.cmd, 0x22)
  | .contentEnc _ => (.cmd, 0x23)
  | .pktEnc _ _ _ _ _ _ => (.cmd, 0x30)
  | .pktHdr _ _ => (.cmd, 0x31)
  | .pktDec _ _ => (.cmd, 0x32)
  | .streamPush _ => (.cmd, 0x40)
  | .cfgWr _ => (.cmd, 0x41)
  | .cfgRd => (.cmd, 0x42)
  | .statRd => (.cmd, 0x43)
  | .blockReset => (.cmd, 0x4F)
  | .tdfInt _ _ => (.tdfType, 0x00)
  | .tdfString _ _ => (.tdfType, 0x01)
  | .tdfBlob _ _ => (.tdfType, 0x02)
  | .tdfStruct _ _ => (.tdfType, 0x03)
  | .tdfList _ _ => (.tdfType, 0x04)
  | .tdfPairList _ _ => (.tdfType, 0x05)
  | .tdfUnion _ _ => (.tdfType, 0x06)
  | .tdfVarIntList _ _ => (.tdfType, 0x07)
  | .tdfPair _ _ => (.tdfType, 0x08)
  | .tdfTriple _ _ => (.tdfType, 0x09)
  | .tdfFloat _ _ => (.tdfType, 0x0A)
  | .unionEmpty _ _ => (.unionDisc, 0x7F)
  | .elemInt _ => (.elemKind, 0x00)
  | .elemString _ => (.elemKind, 0x01)
  | .elemStruct _ => (.elemKind, 0x03)
  | .elemTriple _ => (.elemKind, 0x09)
  | .elemFloat _ => (.elemKind, 0x0A)

/-! ## The table's words (notes/assumptions/9.md) -/

/-- Payload bytes of zeros that follow a table word: as many as the longest payload of zeros needs (a Float's 8). -/
def zeroPayload : Bytes := List.replicate 16 0

/-- The operands of a command whose operand bits are all 0: numbers 0, byte sequences empty, a cursor at 0 of an
input of zeros, and as TDF value the one whose wire bytes are zeros, `Int(0, 0)`. -/
def zeroOperands (code : Byte) : List Operand :=
  match code.toNat with
  | 0x01 | 0x02 | 0x03 | 0x11 | 0x41 => [.int 0]
  | 0x04 | 0x06 | 0x07 | 0x08 | 0x09 | 0x0B | 0x0D | 0x21 | 0x31 | 0x32 => cursorOps zeroPayload 0
  | 0x05 => [.int 0, .int 0]
  | 0x0A | 0x0C | 0x10 | 0x22 | 0x40 => [.bytes []]
  | 0x20 => [.tdf (.int 0 0)]
  | 0x23 => [.tdfs []]
  | 0x30 => [.int 0, .int 0, .int 0, .int 0, .int 0, .bytes []]
  | _ => []

/-- The four bytes of a header word as the wire has them, most significant first (R65). -/
def headerBytes (w : U32) : Bytes :=
  [w.extractLsb' 24 8, w.extractLsb' 16 8, w.extractLsb' 8 8, w.extractLsb' 0 8]

/-- The request a table word of `nbits` bits stands for. A word of more than 8 bits is a TDF header word. A byte is a
command code; a byte that is no command code is the Union sentinel or a subtype byte if it is one of those. -/
def tableRequest (nbits w : Nat) : Option Request :=
  if w < 2 ^ nbits then
    if nbits ≤ 8 then
      let b : Byte := BitVec.ofNat 8 w
      if (commandTable b).isSome then some (.cmd b (zeroOperands b))
      else if b = emptyDisc then some (.unionRead 0 (b :: zeroPayload) 0 1)
      else if (Kind.ofByte b).isSome then some (.elemRead 0 (b :: zeroPayload) 1 1)
      else some (.cmd b [])
    else if nbits ≤ 32 then some (.tdfRead (headerBytes (BitVec.ofNat 32 w) ++ zeroPayload) 0 1)
    else none
  else none

/-- The raw instruction of a table word: what the block fetches for `tableRequest`. -/
def tableRaw (nbits w : Nat) : Option Raw :=
  match tableRequest nbits w with
  | some (.cmd code ops) => some (.cmd code ops)
  | some (.tdfRead inp _ depth) => some (.header (BitVec.ofNat 32 w) inp 4 depth)
  | some (.unionRead tag inp pos depth) => some (.disc (BitVec.ofNat 8 w) tag inp pos depth)
  | some (.elemRead _ inp pos depth) => some (.subtype (BitVec.ofNat 8 w) inp pos depth)
  | _ => none

/-- FIXED NAME: the instruction the decoder reads from a word of spec/opcode_table.json. -/
def decodeTableWord (nbits w : Nat) : Option Instr :=
  match tableRaw nbits w with
  | some r =>
    match decode r with
    | .ok i => some i
    | .error _ => none
  | none => none

end Sys2Proof
end

