-- ==== Sys2Proof/Config.lean ====
section
/-! DEFINITION. What an instance fixes (00_scope.md rule R7) and the one value the spec leaves unstated. -/

namespace Sys2Proof

/-- R7: a parameter is a natural number or `INF`, no bound. -/
inductive Bound where
  /-- a finite bound -/
  | fin (n : Nat)
  /-- `INF`: no bound, the source document's own behaviour -/
  | inf
deriving DecidableEq, Repr

/-- R7: the three named parameters of an instance. R302: fixed when the instance is created; no command and no
reset changes them. -/
structure Params where
  /-- `MAX_DEPTH`: the deepest nesting of TDF values an encode or decode may reach (R161) -/
  maxDepth : Bound
  /-- `MAX_ELEMS`: the largest element or pair count a decode accepts (R162) -/
  maxElems : Bound
  /-- `BUF_CAP`: the most unconsumed bytes the Stream Reassembler holds (R251) -/
  bufCap : Bound
deriving DecidableEq, Repr

/-- R7: the source's own unbounded behaviour, every parameter `INF`. -/
def Params.unbounded : Params := { maxDepth := .inf, maxElems := .inf, bufCap := .inf }

/-- R7: `MAX_DEPTH` is at least 1 and `BUF_CAP` at least 14, each possibly `INF`. -/
def Params.legal (p : Params) : Bool :=
  (match p.maxDepth with
    | .fin n => decide (1 ≤ n)
    | .inf => true) &&
  (match p.bufCap with
    | .fin n => decide (14 ≤ n)
    | .inf => true)

/-- DESIGN CHOICE (notes/assumptions/5.md), a free value: the bytes written for a length or count of 2^63 or more.
VARINT.WR takes an I64 (R102), so the spec states no varint for such a length. Nothing is known of it. -/
opaque Config.overlongLength : Nat → Bytes

end Sys2Proof
end

