-- ==== Sys2Proof/Machine/State.lean ====
section
/-! DEFINITION. The state of the block (10_state.md), the responses it gives (R29, 60_exceptions.md), and its reset. -/

namespace Sys2Proof.Machine

/-- R104: how a varint read ended. -/
inductive VStat where
  /-- a last byte was found -/
  | ok
  /-- the input ended before a last byte -/
  | short
  /-- the 10-byte overflow guard tripped -/
  | guard
deriving DecidableEq, Repr

/-- R163, R271: the clause of R163 that a node fails. -/
inductive Check where
  | a | b | c
deriving DecidableEq, Repr

/-- R271: the info of PRECONDITION. -/
inductive PreconditionInfo where
  /-- the refused width of NUM.WR (R107) -/
  | operand (w : Int)
  /-- the path to the first ill-formed node and the clause it fails (R163) -/
  | node (path : List Nat) (check : Check)
deriving DecidableEq, Repr

/-- R271: the info of RESOURCE. `off` is the info field `at`. -/
inductive ResourceInfo where
  /-- nesting beyond MAX_DEPTH (R161) -/
  | depth (off : Nat)
  /-- a count beyond MAX_ELEMS (R162) -/
  | count (off : Nat)
  /-- unconsumed bytes beyond BUF_CAP (R252) -/
  | buffer (held cap : Nat)
deriving DecidableEq, Repr

/-- R270, R271: the error codes 1 to 10 with their info. `off` is the info field `at`. -/
inductive Error where
  | incomplete (need : Nat)
  | truncated (off : Nat)
  | unknownTdfType (off : Nat) (ty : Byte)
  | varintOverflow (off : Nat)
  | malformedLength (off : Nat) (value : Int)
  | precondition (info : PreconditionInfo)
  | resource (info : ResourceInfo)
  | tooLong (length : Nat)
  | badCommand (code : Byte)
  | faulted
deriving DecidableEq, Repr

/-- R221: a header record. -/
structure Header where
  length : U16
  component : U16
  command : U16
  error : U16
  qtype : U16
  id : U16
  extLength : U16
deriving DecidableEq, Repr

/-- R221: a packet record; `qtype` is the field as it stood on the wire. -/
structure Packet where
  component : U16
  command : U16
  error : U16
  qtype : U16
  id : U16
  content : Bytes
deriving DecidableEq, Repr

/-- The results of an `ok` response, one form per result tuple of R80; `pos` is the new cursor offset. -/
inductive Result where
  /-- CFG.WR, BLOCK.RESET -/
  | unit
  /-- ZZ.ENC -/
  | u64 (u : U64)
  /-- ZZ.DEC -/
  | i64 (v : I64)
  /-- every write, TAG.UNPACK's label -/
  | bytes (b : Bytes)
  /-- VARINT.RD -/
  | varint (u : U64) (vstat : VStat) (pos : Nat)
  /-- RD.U8 -/
  | u8At (b : Byte) (pos : Nat)
  /-- RD.U16 -/
  | u16At (x : U16) (pos : Nat)
  /-- RD.U32 -/
  | u32At (x : U32) (pos : Nat)
  /-- RD.F64 -/
  | f64At (bits : U64) (pos : Nat)
  /-- STR.RD, BLOB.RD -/
  | bytesAt (b : Bytes) (pos : Nat)
  /-- TAG.PACK -/
  | tag (t : U24)
  /-- TDF.DEC and the TDF dispatch rows, reading -/
  | tdfAt (x : Tdf) (pos : Nat)
  /-- the element rows, reading -/
  | elemAt (e : Elem) (pos : Nat)
  /-- CONTENT.DEC -/
  | tdfs (xs : List Tdf)
  /-- PKT.HDR -/
  | header (h : Header) (hlen : Nat) (declared : U32)
  /-- PKT.DEC -/
  | packetAt (p : Packet) (pos : Nat)
  /-- STREAM.PUSH -/
  | packets (ps : List Packet)
  /-- CFG.RD, STAT.RD -/
  | u8 (b : Byte)
deriving DecidableEq, Repr

/-- R13, R29: the one response of an operation. -/
inductive Response where
  | ok (r : Result)
  | err (e : Error)
deriving DecidableEq, Repr

/-- Why the machine would stop. Nothing raises one: R277 says every command ends in exactly one response and R282 that
there is no trap and no lockup, so the type has no constructor (safe: notes/assumptions/7.md). -/
inductive Fault where
deriving DecidableEq, Repr

/-- Why the model would give an instruction no meaning. -/
inductive Refusal where
  /-- The instruction has no meaning in the model yet. Raised by no arm of `exec`: every row of the table has its
  meaning. Safe: the model stops where the hardware goes on. -/
  | notModelled (mnemonic : String)
deriving DecidableEq, Repr

/-- The state of one instance. R20: `rbuf`, `rfault` and `strictVarint` are all that persists from one operation to the
next; `params` is fixed at creation (R302). `port` and `responses` are the model's own: the two directions of the
command interface (R80, R29). -/
structure State where
  /-- R22: `RBUF`, the unconsumed bytes of the Stream Reassembler -/
  rbuf : Bytes
  /-- R24: `RFAULT`, the sticky reassembler fault bit -/
  rfault : Bool
  /-- R23: `STRICT_VARINT`, CFG bit 0 -/
  strictVarint : Bool
  /-- R7: the parameters of the instance -/
  params : Params
  /-- the requests issued and not yet taken, oldest first (notes/assumptions/1.md) -/
  port : List Request
  /-- the responses given, oldest first (notes/assumptions/4.md) -/
  responses : List Response
deriving DecidableEq, Repr

/-- R300 (a), R30: a new instance with parameters `p`. -/
def State.create (p : Params) : State :=
  { rbuf := [], rfault := false, strictVarint := false, params := p, port := [], responses := [] }

/-- FIXED NAME. R30: the block right after reset, its parameters `INF` (DESIGN CHOICE, notes/assumptions/3.md). -/
def State.reset : State := State.create Params.unbounded

end Sys2Proof.Machine
end

