-- ==== Sys2Proof/Machine/Flags.lean ====
section
/-! DEFINITION. The single bits the spec gives (10_state.md rules R25, R28): the EXT flag of a qtype, the CFG and STATUS
register bits, the start marker of a Struct. There is no condition-code register. -/

namespace Sys2Proof.Machine

/-- R74: the EXT flag, bit 12 of the 16-bit qtype. -/
def extFlag (qtype : U16) : Bool := qtype.getLsbD 12

/-- R220: qtype with the EXT flag as the content length gives it. -/
def setExtFlag (ext : Bool) (qtype : U16) : U16 := if ext then qtype ||| 0x1000 else qtype &&& 0xEFFF

/-- R25: CFG, bit 0 STRICT_VARINT, bits 7:1 read as 0. -/
def cfgByte (s : State) : Byte := (BitVec.ofBool s.strictVarint).setWidth 8

/-- R25, R33: STATUS, bit 0 RFAULT, bit 1 RBUF_NONEMPTY, bits 7:2 read as 0. -/
def statusByte (s : State) : Byte :=
  ((BitVec.ofBool (!s.rbuf.isEmpty)).setWidth 8 <<< 1) ||| (BitVec.ofBool s.rfault).setWidth 8

/-- R25, R32: the STRICT_VARINT bit a write of CFG stores; bits 7:1 are ignored. -/
def strictBit (v : Byte) : Bool := v.getLsbD 0

/-- R69: the start marker, the byte a Struct body begins with when `start2` is 1. -/
def startMarker : Byte := 0x02

/-- R69: the terminator of a Struct body. -/
def terminator : Byte := 0x00

end Sys2Proof.Machine
end

