-- ==== Sys2Proof/Machine/Ops.lean ====
section
/-! DEFINITION. The shared operations on the state: giving a response, raising an error (the block's whole counterpart
of taking an exception, 60_exceptions.md rule R282), the two registers, the capacity and depth checks. -/

namespace Sys2Proof.Machine

/-- R29: one response is appended; nothing else changes. -/
def State.respond (s : State) (r : Response) : State := { s with responses := s.responses ++ [r] }

/-- R272, R282: an error response is the whole of raising an error: no result, no saved state, and every piece of
persistent state as it was. -/
def State.raise (s : State) (e : Error) : State := s.respond (.err e)

/-- R29: an `ok` response with its results. R282: there is no return from an error but the next command. -/
def State.reply (s : State) (r : Result) : State := s.respond (.ok r)

/-- R13: every operation ends in exactly one of `ok` and `err`. -/
def State.finish (s : State) (o : Except Error Result) : State :=
  match o with
  | .ok r => s.reply r
  | .error e => s.raise e

/-- The outcome of an operation that changes no state of R20. -/
def done (s : State) (o : Except Error Result) : Host.Outcome State Fault Refusal := .next (s.finish o)

/-- R7: `n` exceeds the bound; never when the bound is `INF`. -/
def Bound.exceededBy (b : Bound) (n : Nat) : Bool :=
  match b with
  | .fin k => decide (k < n)
  | .inf => false

/-- R161: a step that reaches a depth beyond MAX_DEPTH raises RESOURCE at the offset where the value begins. -/
def checkDepth (p : Params) (depth off : Nat) : Except Error Unit :=
  if Bound.exceededBy p.maxDepth depth then .error (.resource (.depth off)) else .ok ()

/-- R162: a count beyond MAX_ELEMS raises RESOURCE at the offset of the count varint. -/
def checkCount (p : Params) (n off : Nat) : Except Error Unit :=
  if Bound.exceededBy p.maxElems n then .error (.resource (.count off)) else .ok ()

/-- R25: the two registers by number. -/
inductive Reg where
  | cfg | status
deriving DecidableEq, Repr

/-- R25: the number of a register. -/
def Reg.number : Reg → Nat
  | .cfg => 0
  | .status => 1

/-- R25: reading a register. -/
def State.readReg (s : State) : Reg → Byte
  | .cfg => cfgByte s
  | .status => statusByte s

/-- R25: writing a register: CFG keeps bit 0 only; STATUS is not writable. -/
def State.writeReg (s : State) (r : Reg) (v : Byte) : State :=
  match r with
  | .cfg => { s with strictVarint := strictBit v }
  | .status => s

/-- R31, R300 (b): reset of the persistent state; the parameters stay (R302), and so do the requests and responses,
which are the caller's (notes/assumptions/4.md). -/
def State.blockReset (s : State) : State := { s with rbuf := [], rfault := false, strictVarint := false }

/-- The caller issues a request (R80); it waits behind the earlier ones (R49). -/
def State.issue (s : State) (r : Request) : State := { s with port := s.port ++ [r] }

end Sys2Proof.Machine
end

