-- ==== Sys2Proof/Machine/Operands.lean ====
section
/-! DEFINITION. The wire formats every unit reads and writes through a cursor (40_byte_cursor.md, 20_memory.md rule R42):
big-endian fields, zigzag, varints, lengths, strings and blobs. A read takes the input and an offset and gives the new
offset with its result; a write gives the bytes it appends. -/

namespace Sys2Proof.Machine

/-! ## Fixed width (R11, R42, R107 to R112) -/

/-- R11: `BE(b)`, the big-endian value of a byte sequence. -/
def beValue (b : Bytes) : Nat := b.foldl (fun acc x => acc * 256 + x.toNat) 0

/-- R11: `BE_n(v)`, the n-byte big-endian encoding of `v mod 2^(8n)`. -/
def beBytes : Nat → Nat → Bytes
  | 0, _ => []
  | n + 1, v => BitVec.ofNat 8 (v / 256 ^ n) :: beBytes n v

/-- R12: `IN[pos .. pos+n)`. -/
def span (inp : Bytes) (pos n : Nat) : Bytes := (inp.drop pos).take n

/-- R112: a fixed-width read of n bytes; TRUNCATED at the offset where it began when fewer remain. -/
def readFixed (inp : Bytes) (pos n : Nat) : Except Error (Nat × Nat) :=
  if inp.length - pos < n then .error (.truncated pos) else .ok (beValue (span inp pos n), pos + n)

/-- R108. -/
def readU8 (inp : Bytes) (pos : Nat) : Except Error (Byte × Nat) := do
  let (x, p) ← readFixed inp pos 1
  return (BitVec.ofNat 8 x, p)

/-- R109. -/
def readU16 (inp : Bytes) (pos : Nat) : Except Error (U16 × Nat) := do
  let (x, p) ← readFixed inp pos 2
  return (BitVec.ofNat 16 x, p)

/-- R110. -/
def readU32 (inp : Bytes) (pos : Nat) : Except Error (U32 × Nat) := do
  let (x, p) ← readFixed inp pos 4
  return (BitVec.ofNat 32 x, p)

/-- R111: the 64-bit pattern, carried unchanged. -/
def readF64 (inp : Bytes) (pos : Nat) : Except Error (U64 × Nat) := do
  let (x, p) ← readFixed inp pos 8
  return (BitVec.ofNat 64 x, p)

/-- R107: NUM.WR. -/
def writeNum (w : Int) (v : U64) : Except Error Bytes :=
  if w = 1 ∨ w = 2 ∨ w = 4 ∨ w = 8 then .ok (beBytes w.toNat v.toNat)
  else .error (.precondition (.operand w))

/-! ## Zigzag and varints (R100 to R106) -/

/-- R100: zigzag encode. -/
def zigzag (v : I64) : U64 :=
  let s := v <<< 1
  if v.toInt < 0 then ~~~s else s

/-- R101: zigzag decode. -/
def unzigzag (u : U64) : I64 :=
  let h := u >>> 1
  if u.getLsbD 0 then ~~~h else h

/-- R102: the base-128 groups of `u`, least significant first, at most `n` of them. -/
def groups : Nat → U64 → Bytes
  | 0, _ => []
  | n + 1, u =>
    let b : Byte := u.setWidth 8 &&& 0x7F
    let rest := u >>> 7
    if rest = 0 then [b] else (b ||| 0x80) :: groups n rest

/-- R102: the bytes VARINT.WR appends, between 1 and 10 of them. -/
def varintBytes (v : I64) : Bytes := groups 10 (zigzag v)

/-- R102, R113, R116: the varint of a length or count. VARINT.WR takes an I64, so the spec states nothing for 2^63 and
more: a free value (notes/assumptions/5.md). -/
def lengthBytes (n : Nat) : Bytes :=
  if n < 2 ^ 63 then varintBytes (BitVec.ofNat 64 n) else Config.overlongLength n

/-- R104: the loop of VARINT.RD with `n` groups still allowed; group `10 - n` is the next (i of the rule). -/
def varintLoop (inp : Bytes) : Nat → Nat → U64 → U64 × VStat × Nat
  | 0, pos, acc => (acc, .guard, pos)
  | n + 1, pos, acc =>
    match inp[pos]? with
    | none => (acc, .short, pos)
    | some b =>
      let payload : Byte := b &&& 0x7F
      if n = 0 ∧ 1 < payload.toNat then (acc, .guard, pos + 1)
      else
        let acc := acc ||| (payload.setWidth 64 <<< (7 * (9 - n)))
        if b.getLsbD 7 then varintLoop inp n (pos + 1) acc else (acc, .ok, pos + 1)

/-- R104, R105: VARINT.RD, leniently or, with `strict`, with SHORT and GUARD raised as errors at the first byte. -/
def readVarint (strict : Bool) (inp : Bytes) (pos : Nat) : Except Error (U64 × VStat × Nat) :=
  let r := varintLoop inp 10 pos 0
  if strict then
    match r.2.1 with
    | .ok => .ok r
    | .short => .error (.truncated pos)
    | .guard => .error (.varintOverflow pos)
  else .ok r

/-- R106: `vread_i64`. -/
def readInt (strict : Bool) (inp : Bytes) (pos : Nat) : Except Error (I64 × Nat) := do
  let (u, _, p) ← readVarint strict inp pos
  return (unzigzag u, p)

/-- R106: `vread_len`; MALFORMED_LENGTH when it is negative. -/
def readLen (strict : Bool) (inp : Bytes) (pos : Nat) : Except Error (Nat × Nat) := do
  let (v, p) ← readInt strict inp pos
  if v.toInt < 0 then .error (.malformedLength pos v.toInt) else return (v.toInt.toNat, p)

/-! ## Strings and blobs (R113 to R117) -/

/-- R113: the body STR.WR writes: a trailing NUL is not doubled. -/
def stringBody (str : Bytes) : Bytes := if str.getLast? = some 0 then str else str ++ [0]

/-- R113: STR.WR. -/
def stringBytes (str : Bytes) : Bytes := lengthBytes (stringBody str).length ++ stringBody str

/-- R114: the string of a body: a trailing NUL is its terminator, not its content. -/
def bodyString (body : Bytes) : Bytes := if body.getLast? = some 0 then body.dropLast else body

/-- R116: BLOB.WR. -/
def blobBytes (b : Bytes) : Bytes := lengthBytes b.length ++ b

/-- R117: BLOB.RD. -/
def readBlob (strict : Bool) (inp : Bytes) (pos : Nat) : Except Error (Bytes × Nat) := do
  let (n, p) ← readLen strict inp pos
  if inp.length - p < n then .error (.truncated p) else return (span inp p n, p + n)

/-- R114: STR.RD. -/
def readString (strict : Bool) (inp : Bytes) (pos : Nat) : Except Error (Bytes × Nat) := do
  let (body, p) ← readBlob strict inp pos
  return (bodyString body, p)

end Sys2Proof.Machine
end

