-- ==== Sys2Proof/Machine/ByteCursor.lean ====
section
/-! DEFINITION. The commands of the Byte Cursor unit (40_byte_cursor.md). -/

namespace Sys2Proof.Machine

/-- ZZ.ENC (R100). -/
def execZzEnc (v : I64) (s : State) : Host.Outcome State Fault Refusal := done s (.ok (.u64 (zigzag v)))

/-- ZZ.DEC (R101). -/
def execZzDec (u : U64) (s : State) : Host.Outcome State Fault Refusal := done s (.ok (.i64 (unzigzag u)))

/-- VARINT.WR (R102). -/
def execVarintWr (v : I64) (s : State) : Host.Outcome State Fault Refusal := done s (.ok (.bytes (varintBytes v)))

/-- VARINT.RD (R104, R105): the raw zigzag-coded value, its status, the new offset. -/
def execVarintRd (inp : Bytes) (pos : Nat) (s : State) : Host.Outcome State Fault Refusal :=
  done s ((readVarint s.strictVarint inp pos).map fun r => .varint r.1 r.2.1 r.2.2)

/-- NUM.WR (R107). -/
def execNumWr (w : Int) (v : U64) (s : State) : Host.Outcome State Fault Refusal :=
  done s ((writeNum w v).map .bytes)

/-- RD.U8 (R108). -/
def execRdU8 (inp : Bytes) (pos : Nat) (s : State) : Host.Outcome State Fault Refusal :=
  done s ((readU8 inp pos).map fun r => .u8At r.1 r.2)

/-- RD.U16 (R109). -/
def execRdU16 (inp : Bytes) (pos : Nat) (s : State) : Host.Outcome State Fault Refusal :=
  done s ((readU16 inp pos).map fun r => .u16At r.1 r.2)

/-- RD.U32 (R110). -/
def execRdU32 (inp : Bytes) (pos : Nat) (s : State) : Host.Outcome State Fault Refusal :=
  done s ((readU32 inp pos).map fun r => .u32At r.1 r.2)

/-- RD.F64 (R111). -/
def execRdF64 (inp : Bytes) (pos : Nat) (s : State) : Host.Outcome State Fault Refusal :=
  done s ((readF64 inp pos).map fun r => .f64At r.1 r.2)

/-- STR.WR (R113). -/
def execStrWr (str : Bytes) (s : State) : Host.Outcome State Fault Refusal := done s (.ok (.bytes (stringBytes str)))

/-- STR.RD (R114). -/
def execStrRd (inp : Bytes) (pos : Nat) (s : State) : Host.Outcome State Fault Refusal :=
  done s ((readString s.strictVarint inp pos).map fun r => .bytesAt r.1 r.2)

/-- BLOB.WR (R116). -/
def execBlobWr (b : Bytes) (s : State) : Host.Outcome State Fault Refusal := done s (.ok (.bytes (blobBytes b)))

/-- BLOB.RD (R117). -/
def execBlobRd (inp : Bytes) (pos : Nat) (s : State) : Host.Outcome State Fault Refusal :=
  done s ((readBlob s.strictVarint inp pos).map fun r => .bytesAt r.1 r.2)

end Sys2Proof.Machine
end

