-- ==== Sys2Proof/Machine/Control.lean ====
section
/-! DEFINITION. The register and reset commands (10_state.md rules R31 to R33). -/

namespace Sys2Proof.Machine

/-- CFG.WR (R32). -/
def execCfgWr (v : Byte) (s : State) : Host.Outcome State Fault Refusal := .next ((s.writeReg .cfg v).reply .unit)

/-- CFG.RD (R32). -/
def execCfgRd (s : State) : Host.Outcome State Fault Refusal := .next (s.reply (.u8 (s.readReg .cfg)))

/-- STAT.RD (R33). -/
def execStatRd (s : State) : Host.Outcome State Fault Refusal := .next (s.reply (.u8 (s.readReg .status)))

/-- BLOCK.RESET (R31). -/
def execBlockReset (s : State) : Host.Outcome State Fault Refusal := .next (s.blockReset.reply .unit)

end Sys2Proof.Machine
end

