-- ==== Sys2Proof/Machine/PacketFraming.lean ====
section
/-! DEFINITION. The Packet Framing unit (43_packet_framing.md): PKT.ENC, PKT.HDR, PKT.DEC. -/

namespace Sys2Proof.Machine

/-- R220: the packet of a content of at most 0xFFFFFFFF bytes; TOO_LONG beyond. -/
def packetBytes (component command error qtype id : U16) (content : Bytes) : Except Error Bytes :=
  let len := content.length
  if 0xFFFFFFFF < len then .error (.tooLong len)
  else
    let ext := decide (0xFFFF < len)
    .ok (beBytes 2 len ++ beBytes 2 component.toNat ++ beBytes 2 command.toNat ++ beBytes 2 error.toNat ++
      beBytes 2 (setExtFlag ext qtype).toNat ++ beBytes 2 id.toNat ++
      (if ext then beBytes 2 (len / 2 ^ 16) else []) ++ content)

/-- R222: a 16-bit header field at offset `off`. -/
def headerField (inp : Bytes) (off : Nat) : U16 := BitVec.ofNat 16 (beValue (span inp off 2))

/-- R221: `declared = length | (extLength << 16)`. -/
def Header.declared (h : Header) : U32 := h.extLength ++ h.length

/-- R222: the header at `pos` with its length in bytes, 12 or 14; INCOMPLETE when the input is too short. -/
def readHeader (inp : Bytes) (pos : Nat) : Except Error (Header × Nat) :=
  let avail := inp.length - pos
  if avail < 12 then .error (.incomplete (12 - avail))
  else
    let fixed : Header :=
      { length := headerField inp pos, component := headerField inp (pos + 2),
        command := headerField inp (pos + 4), error := headerField inp (pos + 6),
        qtype := headerField inp (pos + 8), id := headerField inp (pos + 10), extLength := 0 }
    if extFlag fixed.qtype then
      if avail < 14 then .error (.incomplete (14 - avail))
      else .ok ({ fixed with extLength := headerField inp (pos + 12) }, 14)
    else .ok (fixed, 12)

/-- R225: the packet at `pos`, all of it or INCOMPLETE. -/
def readPacket (inp : Bytes) (pos : Nat) : Except Error (Packet × Nat) := do
  let (h, hlen) ← readHeader inp pos
  let n := (Header.declared h).toNat
  let avail := inp.length - pos
  if avail < hlen + n then .error (.incomplete (hlen + n - avail))
  else
    return ({ component := h.component, command := h.command, error := h.error, qtype := h.qtype, id := h.id,
              content := span inp (pos + hlen) n }, pos + hlen + n)

/-- PKT.ENC (R220). -/
def execPktEnc (component command error qtype id : U16) (content : Bytes) (s : State) :
    Host.Outcome State Fault Refusal :=
  done s ((packetBytes component command error qtype id content).map .bytes)

/-- PKT.HDR (R222): the cursor does not move. -/
def execPktHdr (inp : Bytes) (pos : Nat) (s : State) : Host.Outcome State Fault Refusal :=
  done s ((readHeader inp pos).map fun r => .header r.1 r.2 (Header.declared r.1))

/-- PKT.DEC (R225). -/
def execPktDec (inp : Bytes) (pos : Nat) (s : State) : Host.Outcome State Fault Refusal :=
  done s ((readPacket inp pos).map fun r => .packetAt r.1 r.2)

end Sys2Proof.Machine
end

