-- ==== Sys2Proof/Machine/StreamReassembler.lean ====
section
/-! DEFINITION. The Stream Reassembler unit (44_stream_reassembler.md): STREAM.PUSH. -/

namespace Sys2Proof.Machine

/-- R253: the extraction loop from offset `p`: the packets and the offset after the last of them. `fuel` bounds the
number of packets; each packet has at least 12 bytes, so the bytes left are bound enough (notes/assumptions/10.md). -/
def extractPackets (b : Bytes) : Nat → Nat → List Packet × Nat
  | 0, p => ([], p)
  | fuel + 1, p =>
    match readPacket b p with
    | .error _ => ([], p)
    | .ok (pkt, p') =>
      let rest := extractPackets b fuel p'
      (pkt :: rest.1, rest.2)

/-- R253, R257: `Parse(B)`: the packets and the remainder. -/
def parseStream (b : Bytes) : List Packet × Bytes :=
  let r := extractPackets b b.length 0
  (r.1, b.drop r.2)

/-- STREAM.PUSH (R252, R253). -/
def execStreamPush (chunk : Bytes) (s : State) : Host.Outcome State Fault Refusal :=
  if s.rfault then .next (s.raise .faulted)
  else
    let r := parseStream (s.rbuf ++ chunk)
    match s.params.bufCap with
    | .fin cap =>
      if cap < r.2.length then .next ({ s with rfault := true }.raise (.resource (.buffer r.2.length cap)))
      else .next ({ s with rbuf := r.2 }.reply (.packets r.1))
    | .inf => .next ({ s with rbuf := r.2 }.reply (.packets r.1))

end Sys2Proof.Machine
end

