-- ==== Sys2Proof/Machine/TagCodec.lean ====
section
/-! DEFINITION. The Tag Codec unit (41_tag_codec.md): TAG.PACK and TAG.UNPACK. -/

namespace Sys2Proof.Machine

/-- R140: the 6-bit group of a label byte, bits 6 and 4:0. -/
def tagGroup (c : Byte) : BitVec 6 := c.extractLsb' 6 1 ++ c.extractLsb' 0 5

/-- R140: byte i of the label, NUL beyond its end; bytes after the fourth are never asked for. -/
def labelByte (label : Bytes) (i : Nat) : Byte := label.getD i 0

/-- R140: label to tag, the first character most significant. -/
def packTag (label : Bytes) : U24 :=
  tagGroup (labelByte label 0) ++ tagGroup (labelByte label 1) ++ tagGroup (labelByte label 2) ++
    tagGroup (labelByte label 3)

/-- R142: the label byte of a group; a zero byte renders as space. -/
def groupByte (g : BitVec 6) : Byte :=
  let b : Byte := ((g.extractLsb' 5 1).setWidth 8 <<< 6) ||| (g.extractLsb' 0 5).setWidth 8
  if b = 0x00 then 0x20 else b

/-- R142: tag to label, always 4 bytes. -/
def unpackTag (tag : U24) : Bytes :=
  [groupByte (tag.extractLsb' 18 6), groupByte (tag.extractLsb' 12 6), groupByte (tag.extractLsb' 6 6),
    groupByte (tag.extractLsb' 0 6)]

/-- TAG.PACK (R140). -/
def execTagPack (label : Bytes) (s : State) : Host.Outcome State Fault Refusal := done s (.ok (.tag (packTag label)))

/-- TAG.UNPACK (R142). -/
def execTagUnpack (tag : U24) (s : State) : Host.Outcome State Fault Refusal := done s (.ok (.bytes (unpackTag tag)))

end Sys2Proof.Machine
end

