-- ==== Sys2Proof/Machine/TdfCodec.lean ====
section
/-! DEFINITION. The TDF Value unit (42_tdf_value.md), shared part: the well-formedness check (R163), the recursive encoder
(R164, R165, R168, R171 to R181) and the recursive decoder (R164, R165, R169, R171 to R183). -/

namespace Sys2Proof.Machine

/-! ## Well-formedness (R163) -/

/-- The path to a failing node and the clause it fails. -/
abbrev Bad := List Nat × Check

/-- The kind of an element (R160). -/
def Elem.kind : Elem → Kind
  | .int _ => .int
  | .string _ => .string
  | .struct _ _ => .struct
  | .triple _ _ _ => .triple
  | .float _ => .float

/-- R163 (a): every element has kind `k`. -/
def allOfKind (k : Kind) : Elems → Bool
  | .nil => true
  | .cons e es => decide (Elem.kind e = k) && allOfKind k es

/-- The number of elements of a sequence. -/
def Elems.count : Elems → Nat
  | .nil => 0
  | .cons _ es => Elems.count es + 1

/-- The step of a path into the i-th part of a node (R163). -/
def Bad.under (i : Nat) (b : Bad) : Bad := (i :: b.1, b.2)

/-- The first failure of a list of parts numbered from `i`. -/
def firstBad : Nat → List (Option Bad) → Option Bad
  | _, [] => none
  | i, r :: rs =>
    match r with
    | some b => some (Bad.under i b)
    | none => firstBad (i + 1) rs

/-- The failures of the pairs of a PairList: of the i-th `as` element, then of the i-th `bs` element
(notes/assumptions/11.md). -/
def pairBads : List (Option Bad) → List (Option Bad) → List (Option Bad)
  | a :: as, b :: bs => (a.or b) :: pairBads as bs
  | _, _ => []

mutual

/-- R163: the first ill-formed node of a value in pre-order, with its path from the value. -/
def checkTdf : Tdf → Option Bad
  | .int _ _ => none
  | .string _ _ => none
  | .blob _ _ => none
  | .struct _ _ cs => firstBad 0 (checkTdfs cs)
  | .list _ sub es => if allOfKind sub es then firstBad 0 (checkElems es) else some ([], .a)
  | .pairList _ subA subB as bs =>
    if allOfKind subA as && allOfKind subB bs && decide (Elems.count as = Elems.count bs) then
      firstBad 0 (pairBads (checkElems as) (checkElems bs))
    else some ([], .b)
  | .union _ disc inner => checkInner disc inner
  | .varIntList _ _ => none
  | .pair _ _ _ => none
  | .triple _ _ _ _ => none
  | .float _ _ => none

/-- R163 (c): `inner` is none exactly when `disc` is 0x7F; the inner value is part 0 of the Union. -/
def checkInner (disc : Byte) : Inner → Option Bad
  | .none => if disc = emptyDisc then none else some ([], .c)
  | .some x => if disc = emptyDisc then some ([], .c) else (checkTdf x).map (Bad.under 0)

/-- The check of each child. -/
def checkTdfs : Tdfs → List (Option Bad)
  | .nil => []
  | .cons x xs => checkTdf x :: checkTdfs xs

/-- An element is ill formed only inside an EStruct's body. -/
def checkElem : Elem → Option Bad
  | .int _ => none
  | .string _ => none
  | .struct _ cs => firstBad 0 (checkTdfs cs)
  | .triple _ _ _ => none
  | .float _ => none

/-- The check of each element. -/
def checkElems : Elems → List (Option Bad)
  | .nil => []
  | .cons e es => checkElem e :: checkElems es

end

/-- R163: the encoder's check, before it writes anything. -/
def requireWellFormed (r : Option Bad) : Except Error Unit :=
  match r with
  | none => .ok ()
  | some b => .error (.precondition (.node b.1 b.2))

/-! ## The encoder -/

/-- A part of an encode: given the number of bytes already written (R161), the bytes it appends. -/
abbrev Writer := Nat → Except Error Bytes

/-- R12: `Append(b)`. -/
def emit (b : Bytes) : Writer := fun _ => .ok b

/-- One write after another. -/
def Writer.then (first second : Writer) : Writer := fun off => do
  let a ← first off
  let b ← second (off + a.length)
  return a ++ b

/-- Several writes in order. -/
def writeAll : List Writer → Writer
  | [] => emit []
  | w :: ws => Writer.then w (writeAll ws)

/-- R161: the depth check before any byte of a value is written. -/
def guarded (p : Params) (depth : Nat) (w : Writer) : Writer := fun off => do
  checkDepth p depth off
  w off

/-- R168: the depth check, the header word, then the payload. -/
def headed (p : Params) (depth : Nat) (tag : U24) (ty : TdfType) (payload : Writer) : Writer :=
  guarded p depth (Writer.then (emit (beBytes 4 (headerWord tag ty).toNat)) payload)

/-- R165: `encBody` of a struct at depth `depth` whose children write `cs`. -/
def structBody (p : Params) (depth : Nat) (start2 : Bool) (cs : List Writer) : Writer :=
  guarded p depth
    (Writer.then (emit (if start2 then [startMarker] else [])) (Writer.then (writeAll cs) (emit [terminator])))

/-- R176: the interleaved pairs. -/
def pairWriters : List Writer → List Writer → List Writer
  | a :: as, b :: bs => a :: b :: pairWriters as bs
  | _, _ => []

mutual

/-- R168: `enc(x, d)`, the dispatch on the variant; payload writers by R171 to R181. -/
def encTdf (p : Params) : Tdf → Nat → Writer
  | .int tag v, d => headed p d tag .int (emit (varintBytes v))
  | .string tag str, d => headed p d tag .string (emit (stringBytes str))
  | .blob tag b, d => headed p d tag .blob (emit (blobBytes b))
  | .struct tag start2 cs, d => headed p d tag .struct (structBody p d start2 (encTdfs p cs (d + 1)))
  | .list tag sub es, d =>
    headed p d tag .list (Writer.then (emit (sub.code :: lengthBytes (Elems.count es))) (writeAll (encElems p es d)))
  | .pairList tag subA subB as bs, d =>
    headed p d tag .pairList
      (Writer.then (emit (subA.code :: subB.code :: lengthBytes (Elems.count as)))
        (writeAll (pairWriters (encElems p as d) (encElems p bs d))))
  | .union tag disc inner, d => headed p d tag .union (Writer.then (emit [disc]) (encInner p disc inner d))
  | .varIntList tag vs, d => headed p d tag .varIntList (emit (lengthBytes vs.length ++ vs.flatMap varintBytes))
  | .pair tag a b, d => headed p d tag .pair (emit (varintBytes a ++ varintBytes b))
  | .triple tag a b c, d => headed p d tag .triple (emit (varintBytes a ++ varintBytes b ++ varintBytes c))
  | .float tag bits, d => headed p d tag .float (emit (beBytes 8 bits.toNat))

/-- R177: after the discriminant, the inner value one level deeper, unless the discriminant is 0x7F. -/
def encInner (p : Params) (disc : Byte) : Inner → Nat → Writer
  | .none, _ => emit []
  | .some x, d => if disc = emptyDisc then emit [] else encTdf p x (d + 1)

/-- The writers of a sequence of children at depth `d`. -/
def encTdfs (p : Params) : Tdfs → Nat → List Writer
  | .nil, _ => []
  | .cons x xs, d => encTdf p x d :: encTdfs p xs d

/-- R164: `encElem` in a List or PairList at depth `d`. -/
def encElem (p : Params) : Elem → Nat → Writer
  | .int v, _ => emit (varintBytes v)
  | .string str, _ => emit (stringBytes str)
  | .struct start2 cs, d => structBody p (d + 1) start2 (encTdfs p cs (d + 2))
  | .triple a b c, _ => emit (varintBytes a ++ varintBytes b ++ varintBytes c)
  | .float bits, _ => emit (beBytes 8 bits.toNat)

/-- The writers of a sequence of elements. -/
def encElems (p : Params) : Elems → Nat → List Writer
  | .nil, _ => []
  | .cons e es, d => encElem p e d :: encElems p es d

end

/-- R168: TDF.ENC: the whole tree is checked, then written from depth 1. -/
def encodeTdf (p : Params) (x : Tdf) : Except Error Bytes := do
  requireWellFormed (checkTdf x)
  encTdf p x 1 0

/-- R201: CONTENT.ENC: every value is checked in order (a path begins with its index), then all are written. -/
def encodeContent (p : Params) (xs : List Tdf) : Except Error Bytes := do
  requireWellFormed (firstBad 0 (xs.map checkTdf))
  writeAll (xs.map fun x => encTdf p x 1) 0

/-! ## The decoder -/

/-- What a decode reads from and is governed by (R27, R23, R7). -/
structure DecEnv where
  strict : Bool
  params : Params
  inp : Bytes
deriving DecidableEq, Repr

/-- The recursive step `dec(IN, pos, d)` as a reader is given it: from an offset and a depth. -/
abbrev TdfReader := Nat → Nat → Except Error (Tdf × Nat)

/-- R165: the child loop of a Struct body from offset `p`, the children at depth `d`. `fuel` bounds the number of
children; each has at least 4 bytes, so with the bytes left as fuel it runs out only where the input ends
(notes/assumptions/10.md). -/
def readChildren (inp : Bytes) (rec : TdfReader) (d : Nat) : Nat → Nat → Except Error (Tdfs × Nat)
  | 0, p => .error (.truncated p)
  | fuel + 1, p =>
    match inp[p]? with
    | none => .error (.truncated p)
    | some b =>
      if b = terminator then .ok (.nil, p + 1)
      else do
        let (c, p') ← rec p d
        let (cs, q) ← readChildren inp rec d fuel p'
        return (.cons c cs, q)

/-- R165: `decBody` of a struct at depth `d`. -/
def readBody (env : DecEnv) (rec : TdfReader) (p d : Nat) : Except Error (Bool × Tdfs × Nat) := do
  checkDepth env.params d p
  let start2 := decide (env.inp[p]? = some startMarker)
  let p := if start2 then p + 1 else p
  let (cs, q) ← readChildren env.inp rec (d + 1) (env.inp.length - p) p
  return (start2, cs, q)

/-- R180: three varints. -/
def readThree (env : DecEnv) (p : Nat) : Except Error (I64 × I64 × I64 × Nat) := do
  let (a, p) ← readInt env.strict env.inp p
  let (b, p) ← readInt env.strict env.inp p
  let (c, p) ← readInt env.strict env.inp p
  return (a, b, c, p)

/-- R164: `decElem` in a List or PairList at depth `d`. -/
def readElem (env : DecEnv) (rec : TdfReader) (k : Kind) (p d : Nat) : Except Error (Elem × Nat) :=
  match k with
  | .int => do
    let (v, p) ← readInt env.strict env.inp p
    return (.int v, p)
  | .string => do
    let (str, p) ← readString env.strict env.inp p
    return (.string str, p)
  | .struct => do
    let (start2, cs, p) ← readBody env rec p (d + 1)
    return (.struct start2 cs, p)
  | .triple => do
    let (a, b, c, p) ← readThree env p
    return (.triple a b c, p)
  | .float => do
    let (bits, p) ← readF64 env.inp p
    return (.float bits, p)

/-- R175: `repeat n times`, for the elements of a List. -/
def readElems (one : Nat → Except Error (Elem × Nat)) : Nat → Nat → Except Error (Elems × Nat)
  | 0, p => .ok (.nil, p)
  | n + 1, p => do
    let (e, p) ← one p
    let (es, p) ← readElems one n p
    return (.cons e es, p)

/-- R176: `repeat n times`, for the pairs of a PairList. -/
def readPairs (oneA oneB : Nat → Except Error (Elem × Nat)) : Nat → Nat → Except Error (Elems × Elems × Nat)
  | 0, p => .ok (.nil, .nil, p)
  | n + 1, p => do
    let (a, p) ← oneA p
    let (b, p) ← oneB p
    let (as, bs, p) ← readPairs oneA oneB n p
    return (.cons a as, .cons b bs, p)

/-- R178: `repeat n times`, for the varints of a VarIntList. -/
def readInts (env : DecEnv) : Nat → Nat → Except Error (List I64 × Nat)
  | 0, p => .ok ([], p)
  | n + 1, p => do
    let (v, p) ← readInt env.strict env.inp p
    let (vs, p) ← readInts env n p
    return (v :: vs, p)

/-- R175 to R178: a count varint: MALFORMED_LENGTH when negative, RESOURCE beyond MAX_ELEMS (R162). -/
def readCount (env : DecEnv) (p : Nat) : Except Error (Nat × Nat) := do
  let (n, q) ← readLen env.strict env.inp p
  checkCount env.params n p
  return (n, q)

/-- R77 (b): a subtype byte at `p`. -/
def readKind (env : DecEnv) (p : Nat) : Except Error (Kind × Nat) := do
  let (b, q) ← readU8 env.inp p
  match Kind.ofByte b with
  | none => .error (.unknownTdfType p b)
  | some k => return (k, q)

/-- R171. -/
def readIntPayload (env : DecEnv) (tag : U24) (p : Nat) : Except Error (Tdf × Nat) := do
  let (v, p) ← readInt env.strict env.inp p
  return (.int tag v, p)

/-- R172. -/
def readStringPayload (env : DecEnv) (tag : U24) (p : Nat) : Except Error (Tdf × Nat) := do
  let (str, p) ← readString env.strict env.inp p
  return (.string tag str, p)

/-- R173. -/
def readBlobPayload (env : DecEnv) (tag : U24) (p : Nat) : Except Error (Tdf × Nat) := do
  let (b, p) ← readBlob env.strict env.inp p
  return (.blob tag b, p)

/-- R174. -/
def readStructPayload (env : DecEnv) (rec : TdfReader) (tag : U24) (p d : Nat) : Except Error (Tdf × Nat) := do
  let (start2, cs, p) ← readBody env rec p d
  return (.struct tag start2 cs, p)

/-- R175. -/
def readListPayload (env : DecEnv) (rec : TdfReader) (tag : U24) (p d : Nat) : Except Error (Tdf × Nat) := do
  let (k, p) ← readKind env p
  let (n, p) ← readCount env p
  let (es, p) ← readElems (fun q => readElem env rec k q d) n p
  return (.list tag k es, p)

/-- R176. -/
def readPairListPayload (env : DecEnv) (rec : TdfReader) (tag : U24) (p d : Nat) : Except Error (Tdf × Nat) := do
  let (ka, p) ← readKind env p
  let (kb, p) ← readKind env p
  let (n, p) ← readCount env p
  let (as, bs, p) ← readPairs (fun q => readElem env rec ka q d) (fun q => readElem env rec kb q d) n p
  return (.pairList tag ka kb as bs, p)

/-- R177, R183. -/
def readUnionPayload (env : DecEnv) (rec : TdfReader) (tag : U24) (p d : Nat) : Except Error (Tdf × Nat) := do
  let (c, p) ← readU8 env.inp p
  if c = emptyDisc then return (.union tag emptyDisc .none, p)
  else do
    let (x, p) ← rec p (d + 1)
    return (.union tag c (.some x), p)

/-- R178. -/
def readVarIntListPayload (env : DecEnv) (tag : U24) (p : Nat) : Except Error (Tdf × Nat) := do
  let (n, p) ← readCount env p
  let (vs, p) ← readInts env n p
  return (.varIntList tag vs, p)

/-- R179. -/
def readPairPayload (env : DecEnv) (tag : U24) (p : Nat) : Except Error (Tdf × Nat) := do
  let (a, p) ← readInt env.strict env.inp p
  let (b, p) ← readInt env.strict env.inp p
  return (.pair tag a b, p)

/-- R180. -/
def readTriplePayload (env : DecEnv) (tag : U24) (p : Nat) : Except Error (Tdf × Nat) := do
  let (a, b, c, p) ← readThree env p
  return (.triple tag a b c, p)

/-- R181. -/
def readFloatPayload (env : DecEnv) (tag : U24) (p : Nat) : Except Error (Tdf × Nat) := do
  let (bits, p) ← readF64 env.inp p
  return (.float tag bits, p)

/-- R170: the dispatch of the decoder: the payload reader of each header type. -/
def readPayload (env : DecEnv) (rec : TdfReader) (tag : U24) (p d : Nat) : TdfType → Except Error (Tdf × Nat)
  | .int => readIntPayload env tag p
  | .string => readStringPayload env tag p
  | .blob => readBlobPayload env tag p
  | .struct => readStructPayload env rec tag p d
  | .list => readListPayload env rec tag p d
  | .pairList => readPairListPayload env rec tag p d
  | .union => readUnionPayload env rec tag p d
  | .varIntList => readVarIntListPayload env tag p
  | .pair => readPairPayload env tag p
  | .triple => readTriplePayload env tag p
  | .float => readFloatPayload env tag p

/-- R169: `dec(IN, pos, d)` with its recursive step given: depth check, header word, dispatch or UNKNOWN_TDF_TYPE at the
type byte (R182). -/
def readValue (env : DecEnv) (rec : TdfReader) (pos d : Nat) : Except Error (Tdf × Nat) := do
  checkDepth env.params d pos
  let (w, p) ← readU32 env.inp pos
  match TdfType.ofByte (headerType w) with
  | none => .error (.unknownTdfType (pos + 3) (headerType w))
  | some ty => readPayload env rec (headerTag w) p d ty

/-- R169: `dec`, its recursion bounded by `fuel`. Every nested value begins at least 4 bytes further on, so with the
bytes left as fuel it runs out only where no byte is left, and there the rule's answer is the depth check and then
TRUNCATED (notes/assumptions/10.md; Laws/TdfRecursion.lean proves the recursion of the rule without the fuel). -/
def readTdfFuel (env : DecEnv) : Nat → TdfReader
  | 0, pos, d => do
    checkDepth env.params d pos
    .error (.truncated pos)
  | fuel + 1, pos, d => readValue env (readTdfFuel env fuel) pos d

/-- R169: `dec(IN, pos, d)`. -/
def readTdf (env : DecEnv) (pos d : Nat) : Except Error (Tdf × Nat) :=
  readTdfFuel env (env.inp.length - pos) pos d

/-- R200: the content loop from offset `pos`; `fuel` bounds the number of values, each of at least 4 bytes. -/
def readContent (env : DecEnv) : Nat → Nat → Except Error (List Tdf)
  | 0, _ => .ok []
  | fuel + 1, pos =>
    if pos < env.inp.length then do
      let (x, pos) ← readTdf env pos 1
      let xs ← readContent env fuel pos
      return x :: xs
    else .ok []

/-- The environment of a decode of `inp` in state `s`. -/
def State.decEnv (s : State) (inp : Bytes) : DecEnv := { strict := s.strictVarint, params := s.params, inp := inp }

end Sys2Proof.Machine
end

