-- ==== Sys2Proof/Machine/TdfValue.lean ====
section
/-! DEFINITION. The commands of the TDF Value unit (42_tdf_value.md rules R168, R169, R200, R201) and its dispatch rows:
the payload readers and writers of the 11 header types (R171 to R181), the Union sentinel Empty (R183) and the headerless
elements (R164). A row runs the one payload rule its opcode selects (R170); the opcode byte itself has been read or
written before (notes/assumptions/2.md). -/

namespace Sys2Proof.Machine

/-! ## Commands -/

/-- TDF.ENC (R168). -/
def execTdfEnc (x : Tdf) (s : State) : Host.Outcome State Fault Refusal :=
  done s ((encodeTdf s.params x).map .bytes)

/-- TDF.DEC (R169). -/
def execTdfDec (inp : Bytes) (pos : Nat) (s : State) : Host.Outcome State Fault Refusal :=
  done s ((readTdf (s.decEnv inp) pos 1).map fun r => .tdfAt r.1 r.2)

/-- CONTENT.DEC (R200). -/
def execContentDec (content : Bytes) (s : State) : Host.Outcome State Fault Refusal :=
  done s ((readContent (s.decEnv content) content.length 0).map .tdfs)

/-- CONTENT.ENC (R201). -/
def execContentEnc (vals : List Tdf) (s : State) : Host.Outcome State Fault Refusal :=
  done s ((encodeContent s.params vals).map .bytes)

/-! ## Dispatch rows -/

/-- A dispatch row in either direction: the payload reader at `pos` and depth `d`; or, once the value meets R163, the
payload writer after `off` bytes. -/
def dispatch {α β : Type} (reader : DecEnv → Nat → Nat → Except Error (β × Nat)) (mk : β → Nat → Result)
    (check : α → Option Bad) (writer : α → Nat → Writer) (o : Dispatch α) (s : State) :
    Host.Outcome State Fault Refusal :=
  match o with
  | .read inp pos d => done s ((reader (s.decEnv inp) pos d).map fun r => mk r.1 r.2)
  | .write x off d => done s ((do requireWellFormed (check x); writer x d off).map .bytes)

/-- TDF.Int (R171). -/
def execTdfInt (tag : U24) (o : Dispatch I64) (s : State) : Host.Outcome State Fault Refusal :=
  dispatch (fun env p _ => readIntPayload env tag p) .tdfAt (fun v => checkTdf (.int tag v))
    (fun v _ => emit (varintBytes v)) o s

/-- TDF.String (R172). -/
def execTdfString (tag : U24) (o : Dispatch Bytes) (s : State) : Host.Outcome State Fault Refusal :=
  dispatch (fun env p _ => readStringPayload env tag p) .tdfAt (fun str => checkTdf (.string tag str))
    (fun str _ => emit (stringBytes str)) o s

/-- TDF.Blob (R173). -/
def execTdfBlob (tag : U24) (o : Dispatch Bytes) (s : State) : Host.Outcome State Fault Refusal :=
  dispatch (fun env p _ => readBlobPayload env tag p) .tdfAt (fun b => checkTdf (.blob tag b))
    (fun b _ => emit (blobBytes b)) o s

/-- TDF.Struct (R174). -/
def execTdfStruct (tag : U24) (o : Dispatch (Bool × Tdfs)) (s : State) : Host.Outcome State Fault Refusal :=
  dispatch (fun env p d => readStructPayload env (readTdf env) tag p d) .tdfAt
    (fun x => checkTdf (.struct tag x.1 x.2))
    (fun x d => structBody s.params d x.1 (encTdfs s.params x.2 (d + 1))) o s

/-- TDF.List (R175). -/
def execTdfList (tag : U24) (o : Dispatch (Kind × Elems)) (s : State) : Host.Outcome State Fault Refusal :=
  dispatch (fun env p d => readListPayload env (readTdf env) tag p d) .tdfAt
    (fun x => checkTdf (.list tag x.1 x.2))
    (fun x d => Writer.then (emit (x.1.code :: lengthBytes (Elems.count x.2))) (writeAll (encElems s.params x.2 d))) o s

/-- TDF.PairList (R176). -/
def execTdfPairList (tag : U24) (o : Dispatch (Kind × Kind × Elems × Elems)) (s : State) :
    Host.Outcome State Fault Refusal :=
  dispatch (fun env p d => readPairListPayload env (readTdf env) tag p d) .tdfAt
    (fun x => checkTdf (.pairList tag x.1 x.2.1 x.2.2.1 x.2.2.2))
    (fun x d => Writer.then (emit (x.1.code :: x.2.1.code :: lengthBytes (Elems.count x.2.2.1)))
      (writeAll (pairWriters (encElems s.params x.2.2.1 d) (encElems s.params x.2.2.2 d)))) o s

/-- TDF.Union (R177). -/
def execTdfUnion (tag : U24) (o : Dispatch (Byte × Inner)) (s : State) : Host.Outcome State Fault Refusal :=
  dispatch (fun env p d => readUnionPayload env (readTdf env) tag p d) .tdfAt
    (fun x => checkTdf (.union tag x.1 x.2))
    (fun x d => Writer.then (emit [x.1]) (encInner s.params x.1 x.2 d)) o s

/-- TDF.VarIntList (R178). -/
def execTdfVarIntList (tag : U24) (o : Dispatch (List I64)) (s : State) : Host.Outcome State Fault Refusal :=
  dispatch (fun env p _ => readVarIntListPayload env tag p) .tdfAt (fun vs => checkTdf (.varIntList tag vs))
    (fun vs _ => emit (lengthBytes vs.length ++ vs.flatMap varintBytes)) o s

/-- TDF.Pair (R179). -/
def execTdfPair (tag : U24) (o : Dispatch (I64 × I64)) (s : State) : Host.Outcome State Fault Refusal :=
  dispatch (fun env p _ => readPairPayload env tag p) .tdfAt (fun x => checkTdf (.pair tag x.1 x.2))
    (fun x _ => emit (varintBytes x.1 ++ varintBytes x.2)) o s

/-- TDF.Triple (R180). -/
def execTdfTriple (tag : U24) (o : Dispatch (I64 × I64 × I64)) (s : State) : Host.Outcome State Fault Refusal :=
  dispatch (fun env p _ => readTriplePayload env tag p) .tdfAt (fun x => checkTdf (.triple tag x.1 x.2.1 x.2.2))
    (fun x _ => emit (varintBytes x.1 ++ varintBytes x.2.1 ++ varintBytes x.2.2)) o s

/-- TDF.Float (R181). -/
def execTdfFloat (tag : U24) (o : Dispatch U64) (s : State) : Host.Outcome State Fault Refusal :=
  dispatch (fun env p _ => readFloatPayload env tag p) .tdfAt (fun bits => checkTdf (.float tag bits))
    (fun bits _ => emit (beBytes 8 bits.toNat)) o s

/-- UNION.Empty (R183): after the discriminant 0x7F no bytes follow. -/
def execUnionEmpty (tag : U24) (o : Dispatch Unit) (s : State) : Host.Outcome State Fault Refusal :=
  dispatch (fun _ p _ => .ok (Tdf.union tag emptyDisc .none, p)) .tdfAt
    (fun _ => checkTdf (.union tag emptyDisc .none)) (fun _ _ => emit []) o s

/-- ELEM.Int (R164). -/
def execElemInt (o : Dispatch I64) (s : State) : Host.Outcome State Fault Refusal :=
  dispatch (fun env p d => readElem env (readTdf env) .int p d) .elemAt (fun v => checkElem (.int v))
    (fun v d => encElem s.params (.int v) d) o s

/-- ELEM.String (R164). -/
def execElemString (o : Dispatch Bytes) (s : State) : Host.Outcome State Fault Refusal :=
  dispatch (fun env p d => readElem env (readTdf env) .string p d) .elemAt (fun str => checkElem (.string str))
    (fun str d => encElem s.params (.string str) d) o s

/-- ELEM.Struct (R164). -/
def execElemStruct (o : Dispatch (Bool × Tdfs)) (s : State) : Host.Outcome State Fault Refusal :=
  dispatch (fun env p d => readElem env (readTdf env) .struct p d) .elemAt (fun x => checkElem (.struct x.1 x.2))
    (fun x d => encElem s.params (.struct x.1 x.2) d) o s

/-- ELEM.Triple (R164). -/
def execElemTriple (o : Dispatch (I64 × I64 × I64)) (s : State) : Host.Outcome State Fault Refusal :=
  dispatch (fun env p d => readElem env (readTdf env) .triple p d) .elemAt
    (fun x => checkElem (.triple x.1 x.2.1 x.2.2)) (fun x d => encElem s.params (.triple x.1 x.2.1 x.2.2) d) o s

/-- ELEM.Float (R164). -/
def execElemFloat (o : Dispatch U64) (s : State) : Host.Outcome State Fault Refusal :=
  dispatch (fun env p d => readElem env (readTdf env) .float p d) .elemAt (fun bits => checkElem (.float bits))
    (fun bits d => encElem s.params (.float bits) d) o s

end Sys2Proof.Machine
end

