-- ==== Sys2Proof/Machine/Dispatch.lean ====
section
/-! DEFINITION. The meaning of each instruction, one arm per constructor of Instr. -/

namespace Sys2Proof.Machine

def exec (i : Instr) (s : State) : Host.Outcome State Fault Refusal :=
  match i with
  | .zzEnc v => Sys2Proof.Machine.execZzEnc v s
  | .zzDec u => Sys2Proof.Machine.execZzDec u s
  | .varintWr v => Sys2Proof.Machine.execVarintWr v s
  | .varintRd inp pos => Sys2Proof.Machine.execVarintRd inp pos s
  | .numWr w v => Sys2Proof.Machine.execNumWr w v s
  | .rdU8 inp pos => Sys2Proof.Machine.execRdU8 inp pos s
  | .rdU16 inp pos => Sys2Proof.Machine.execRdU16 inp pos s
  | .rdU32 inp pos => Sys2Proof.Machine.execRdU32 inp pos s
  | .rdF64 inp pos => Sys2Proof.Machine.execRdF64 inp pos s
  | .strWr str => Sys2Proof.Machine.execStrWr str s
  | .strRd inp pos => Sys2Proof.Machine.execStrRd inp pos s
  | .blobWr b => Sys2Proof.Machine.execBlobWr b s
  | .blobRd inp pos => Sys2Proof.Machine.execBlobRd inp pos s
  | .tagPack label => Sys2Proof.Machine.execTagPack label s
  | .tagUnpack tag => Sys2Proof.Machine.execTagUnpack tag s
  | .tdfEnc x => Sys2Proof.Machine.execTdfEnc x s
  | .tdfDec inp pos => Sys2Proof.Machine.execTdfDec inp pos s
  | .contentDec content => Sys2Proof.Machine.execContentDec content s
  | .contentEnc vals => Sys2Proof.Machine.execContentEnc vals s
  | .pktEnc component command error qtype id content => Sys2Proof.Machine.execPktEnc component command error qtype id content s
  | .pktHdr inp pos => Sys2Proof.Machine.execPktHdr inp pos s
  | .pktDec inp pos => Sys2Proof.Machine.execPktDec inp pos s
  | .streamPush chunk => Sys2Proof.Machine.execStreamPush chunk s
  | .cfgWr v => Sys2Proof.Machine.execCfgWr v s
  | .cfgRd => Sys2Proof.Machine.execCfgRd s
  | .statRd => Sys2Proof.Machine.execStatRd s
  | .blockReset => Sys2Proof.Machine.execBlockReset s
  | .tdfInt tag o => Sys2Proof.Machine.execTdfInt tag o s
  | .tdfString tag o => Sys2Proof.Machine.execTdfString tag o s
  | .tdfBlob tag o => Sys2Proof.Machine.execTdfBlob tag o s
  | .tdfStruct tag o => Sys2Proof.Machine.execTdfStruct tag o s
  | .tdfList tag o => Sys2Proof.Machine.execTdfList tag o s
  | .tdfPairList tag o => Sys2Proof.Machine.execTdfPairList tag o s
  | .tdfUnion tag o => Sys2Proof.Machine.execTdfUnion tag o s
  | .tdfVarIntList tag o => Sys2Proof.Machine.execTdfVarIntList tag o s
  | .tdfPair tag o => Sys2Proof.Machine.execTdfPair tag o s
  | .tdfTriple tag o => Sys2Proof.Machine.execTdfTriple tag o s
  | .tdfFloat tag o => Sys2Proof.Machine.execTdfFloat tag o s
  | .unionEmpty tag o => Sys2Proof.Machine.execUnionEmpty tag o s
  | .elemInt o => Sys2Proof.Machine.execElemInt o s
  | .elemString o => Sys2Proof.Machine.execElemString o s
  | .elemStruct o => Sys2Proof.Machine.execElemStruct o s
  | .elemTriple o => Sys2Proof.Machine.execElemTriple o s
  | .elemFloat o => Sys2Proof.Machine.execElemFloat o s

end Sys2Proof.Machine
end

