-- ==== Sys2Proof/Machine/Fetch.lean ====
section
/-! DEFINITION. Fetching: from a waiting request to the raw instruction the decoder sees. A command is its own raw
instruction. A dispatch reads its opcode where the TDF Value unit finds it: the header word at the cursor (R169), the
discriminant byte (R177), the subtype byte (R175), or the variant of the value to be written (R168). -/

namespace Sys2Proof.Machine

/-- What is fetched for a request, or the error that the opcode's own read raises: the depth check before a header is
read or a value written (R161, R276), TRUNCATED when the opcode's bytes are missing (R108, R110). A dispatch request is the
model's form, and DESIGN CHOICE (notes/assumptions/2.md) settles two orders for it. An ill-formed value to be written is
not depth-checked here, so that its row answers PRECONDITION first, as R276 orders the two for an encoder. And a read
whose opcode bytes cannot be fetched is answered with that error, RESOURCE or TRUNCATED, before its operands are looked
at: BAD_COMMAND would have no opcode byte to name. -/
def fetch (p : Params) : Request → Except Error Raw
  | .cmd code ops => .ok (.cmd code ops)
  | .tdfRead inp pos depth => do
    checkDepth p depth pos
    let (w, q) ← readU32 inp pos
    return .header w inp q depth
  | .tdfWrite x off depth => do
    if (checkTdf x).isNone then checkDepth p depth off
    return .value x off depth
  | .unionRead tag inp pos depth => do
    let (c, _) ← readU8 inp pos
    return .disc c tag inp pos depth
  | .unionWriteEmpty tag off depth => .ok (.empty tag off depth)
  | .elemRead subAt inp pos depth => do
    let (b, _) ← readU8 inp subAt
    return .subtype b inp pos depth
  | .elemWrite e off depth => .ok (.elem e off depth)

/-- R285, R77, R182, R175: the error response to a raw instruction the decoder rejects; for an unknown header type or
subtype, at the offset of the offending byte. -/
def rejection (r : Request) : DecodeError → Error
  | .reservedCode c => .badCommand c
  | .badOperand c => .badCommand c
  | .unknownType ty =>
    match r with
    | .tdfRead _ pos _ => .unknownTdfType (pos + 3) ty
    | _ => .badCommand ty
  | .unknownSubtype b =>
    match r with
    | .elemRead subAt _ _ _ => .unknownTdfType subAt b
    | _ => .badCommand b

/-- The instruction a request stands for, or the error it is answered with. -/
def fetchDecode (p : Params) (r : Request) : Except Error Instr := do
  let raw ← fetch p r
  match decode raw with
  | .ok i => return i
  | .error e => .error (rejection r e)

/-- The oldest request is taken from the port; what a step does before it runs the instruction. -/
def State.take (s : State) : State := { s with port := s.port.tail }

/-- The state with the request of a table word waiting first; a word that is no table word leaves its low byte as a
command code. -/
def State.withTableWord (s : State) (nbits w : Nat) : State :=
  { s with port := (tableRequest nbits w).getD (.cmd (BitVec.ofNat 8 w) []) :: s.port }

end Sys2Proof.Machine
end

