-- ==== Sys2Proof/Machine/Step.lean ====
section
/-! DEFINITION. One step: the oldest waiting request is taken, fetched, decoded and run whole (20_memory.md rules R47,
R49). With nothing waiting, nothing happens (60_exceptions.md rule R280). -/

namespace Sys2Proof.Machine

/-- FIXED NAME. Every request ends in exactly one response (R277): that of its instruction, or the error with which the
request is refused before an instruction is known (R285, R182). -/
def step (s : State) : Host.Outcome State Fault Refusal :=
  match s.port with
  | [] => .next s
  | r :: _ =>
    match fetchDecode s.params r with
    | .error e => .next (s.take.raise e)
    | .ok i => exec i s.take

/-- FIXED NAME. The state whose next step fetches the table word `w` of `nbits` bits (notes/assumptions/9.md). -/
def State.withFetchWord (s : State) (nbits w : Nat) : State := s.withTableWord nbits w

end Sys2Proof.Machine
end

