-- ==== Sys2Proof/Machine/Instances.lean ====
section
/-! DEFINITION. Several instances side by side, one per connection (10_state.md rule R34). Which instance moves next is the
caller's choice (20_memory.md rule R50); notes/assumptions/12.md. -/

namespace Sys2Proof.Machine

/-- R34: the instances of a system, each with its own state. -/
abbrev System := List State

/-- One step of instance `n`; `none` when there is no such instance or it stops. -/
def System.stepAt (sys : System) (n : Nat) : Option System :=
  match sys[n]? with
  | none => none
  | some s =>
    match step s with
    | .next t => some (sys.set n t)
    | .fault _ => none
    | .refused _ => none

end Sys2Proof.Machine
end

