-- ==== Sys2Proof/Safety.lean ====
section
/-! DEFINITION. The terms the statements use: what a command answers, the invariant of the state (10_state.md R22,
44_stream_reassembler.md R251, R255), the numbers wire bytes stand for, and the conditions of the laws of
42_tdf_value.md R161, R163, R190. Nothing here is part of the machine. -/

namespace Sys2Proof.Machine

/-! ## Answers -/

/-- The instruction gives exactly the response `r` and changes nothing else. -/
def Gives (i : Instr) (s : State) (r : Response) : Prop := exec i s = .next { s with responses := s.responses ++ [r] }

/-- The response an outcome becomes (R29). -/
def responseOf : Except Error Result → Response
  | .ok r => .ok r
  | .error e => .err e

/-- The instructions that write one of the three pieces of persistent state (R22, R23, R24). -/
def Instr.writesState : Instr → Bool
  | .streamPush _ => true
  | .cfgWr _ => true
  | .blockReset => true
  | _ => false

/-- R7: a natural number within a bound. -/
def Bound.holds : Bound → Nat → Prop
  | .fin k, n => n ≤ k
  | .inf, _ => True

/-- R22, R251, R255, R7: the parameters are legal, RBUF fits in BUF_CAP and does not begin with a complete packet. -/
structure State.Inv (s : State) : Prop where
  legal : s.params.legal = true
  fits : Bound.holds s.params.bufCap s.rbuf.length
  partialPacket : ∃ need, readPacket s.rbuf 0 = .error (.incomplete need)

/-! ## Numbers on the wire -/

/-- R11: the number of big-endian bytes. -/
def bigEndian (b : Bytes) : Nat := Nat.ofDigits 256 (b.reverse.map BitVec.toNat)

/-- R61: the number of base-128 groups, least significant first. -/
def base128 (b : Bytes) : Nat := Nat.ofDigits 128 (b.map fun x => x.toNat % 128)

/-- R104: `n` bytes from `pos` on are present, each with its continuation bit set. -/
def Continued (inp : Bytes) (pos n : Nat) : Prop := ∀ i < n, ∃ b : Byte, inp[pos + i]? = some b ∧ b.getLsbD 7 = true

/-- R42: two bytes of a 16-bit number. -/
def twoBytes (n : Nat) : Bytes := [BitVec.ofNat 8 (n / 256), BitVec.ofNat 8 n]

/-- R74: the 16-bit field at an offset. -/
def fieldAt (inp : Bytes) (off : Nat) : U16 := inp.getD off 0 ++ inp.getD (off + 1) 0

/-! ## TDF values -/

/-- R160: the tag of a value. -/
def Tdf.tagOf : Tdf → U24
  | .int t _ => t
  | .string t _ => t
  | .blob t _ => t
  | .struct t _ _ => t
  | .list t _ _ => t
  | .pairList t _ _ _ _ => t
  | .union t _ _ => t
  | .varIntList t _ => t
  | .pair t _ _ => t
  | .triple t _ _ _ => t
  | .float t _ => t

/-- R160, R66: `type(x)`. -/
def Tdf.typeOf : Tdf → Byte
  | .int _ _ => 0x00
  | .string _ _ => 0x01
  | .blob _ _ => 0x02
  | .struct _ _ _ => 0x03
  | .list _ _ _ => 0x04
  | .pairList _ _ _ _ _ => 0x05
  | .union _ _ _ => 0x06
  | .varIntList _ _ => 0x07
  | .pair _ _ _ => 0x08
  | .triple _ _ _ _ => 0x09
  | .float _ _ => 0x0A

/-- R65: the four header bytes of a value: the tag's three, most significant first, then the type. -/
def Tdf.header (x : Tdf) : Bytes :=
  [(Tdf.tagOf x).extractLsb' 16 8, (Tdf.tagOf x).extractLsb' 8 8, (Tdf.tagOf x).extractLsb' 0 8, Tdf.typeOf x]

/-- The children of a body as a list. -/
def Tdfs.toList : Tdfs → List Tdf
  | .nil => []
  | .cons x xs => x :: Tdfs.toList xs

/-- The elements of a sequence as a list. -/
def Elems.toList : Elems → List Elem
  | .nil => []
  | .cons e es => e :: Elems.toList es

mutual

/-- R163: clauses (a), (b), (c) hold at every node. -/
def Tdf.WF : Tdf → Prop
  | .struct _ _ cs => Tdfs.WF cs
  | .list _ sub es => (∀ e ∈ Elems.toList es, Elem.kind e = sub) ∧ Elems.WF es
  | .pairList _ subA subB as bs =>
    (∀ e ∈ Elems.toList as, Elem.kind e = subA) ∧ (∀ e ∈ Elems.toList bs, Elem.kind e = subB) ∧
      (Elems.toList as).length = (Elems.toList bs).length ∧ Elems.WF as ∧ Elems.WF bs
  | .union _ disc inner => Inner.WF disc inner
  | _ => True

/-- R163 (c). -/
def Inner.WF (disc : Byte) : Inner → Prop
  | .none => disc = 0x7F
  | .some x => disc ≠ 0x7F ∧ Tdf.WF x

/-- R163 at every child. -/
def Tdfs.WF : Tdfs → Prop
  | .nil => True
  | .cons x xs => Tdf.WF x ∧ Tdfs.WF xs

/-- R163 inside an element. -/
def Elem.WF : Elem → Prop
  | .struct _ cs => Tdfs.WF cs
  | _ => True

/-- R163 inside every element. -/
def Elems.WF : Elems → Prop
  | .nil => True
  | .cons e es => Elem.WF e ∧ Elems.WF es

end

mutual

/-- R161: the nesting depth a value at depth `d` reaches. -/
def Tdf.reach : Tdf → Nat → Nat
  | .struct _ _ cs, d => max d (Tdfs.reach cs (d + 1))
  | .list _ _ es, d => max d (Elems.reach es d)
  | .pairList _ _ _ as bs, d => max d (max (Elems.reach as d) (Elems.reach bs d))
  | .union _ _ inner, d => max d (Inner.reach inner (d + 1))
  | _, d => d

/-- R161: the inner value of a Union, at depth `d`; 0 when there is none. -/
def Inner.reach : Inner → Nat → Nat
  | .none, _ => 0
  | .some x, d => Tdf.reach x d

/-- R161: children at depth `d`; 0 when there are none. -/
def Tdfs.reach : Tdfs → Nat → Nat
  | .nil, _ => 0
  | .cons x xs, d => max (Tdf.reach x d) (Tdfs.reach xs d)

/-- R161: an EStruct of a List at depth `d` has depth d+1 and its children d+2; no other element has a depth. -/
def Elem.reach : Elem → Nat → Nat
  | .struct _ cs, d => max (d + 1) (Tdfs.reach cs (d + 2))
  | _, _ => 0

/-- R161: the elements of a List at depth `d`. -/
def Elems.reach : Elems → Nat → Nat
  | .nil, _ => 0
  | .cons e es, d => max (Elem.reach e d) (Elems.reach es d)

end

/-- What writing a part of a value takes: how many bytes, and, in the order they are written, where values and Struct
bodies begin in them: the bytes written before (R161's |OUT|) and the depth. -/
structure Extent where
  size : Nat
  starts : List (Nat × Nat)
deriving DecidableEq, Repr

/-- Plain bytes: nothing begins in them. -/
def Extent.bytes (n : Nat) : Extent := ⟨n, []⟩

/-- One part after another. -/
def Extent.then (x y : Extent) : Extent :=
  ⟨x.size + y.size, x.starts ++ y.starts.map fun b => (x.size + b.1, b.2)⟩

/-- Several parts in order. -/
def Extent.seq : List Extent → Extent
  | [] => Extent.bytes 0
  | x :: xs => Extent.then x (Extent.seq xs)

/-- A part that begins a value or a Struct body of depth `d` (R161, R168, R165). -/
def Extent.begin (d : Nat) (x : Extent) : Extent := ⟨x.size, (0, d) :: x.starts⟩

/-- R165: a Struct body of depth `d` from its children's extents. -/
def Extent.body (d : Nat) (start2 : Bool) (cs : List Extent) : Extent :=
  Extent.begin d (Extent.seq (Extent.bytes (if start2 then 1 else 0) :: cs ++ [Extent.bytes 1]))

/-- R176: the elements of pairs in the order they are written. -/
def Extent.interleave : List Extent → List Extent → List Extent
  | a :: as, b :: bs => a :: b :: Extent.interleave as bs
  | _, _ => []

/-- R168, R65: a value of depth `d`: its header, then the parts of its payload. -/
def Extent.value (d : Nat) (parts : List Extent) : Extent :=
  Extent.begin d (Extent.seq (Extent.bytes 4 :: parts))

mutual

/-- R161, R168, R171 to R181: the extent of a value at depth `d`. -/
def Tdf.extent : Tdf → Nat → Extent
  | .int _ v, d => Extent.value d [Extent.bytes (varintBytes v).length]
  | .string _ str, d => Extent.value d [Extent.bytes (stringBytes str).length]
  | .blob _ b, d => Extent.value d [Extent.bytes (blobBytes b).length]
  | .struct _ start2 cs, d => Extent.value d [Extent.body d start2 (Tdfs.extents cs (d + 1))]
  | .list _ _ es, d =>
    Extent.value d (Extent.bytes (1 + (lengthBytes (Elems.toList es).length).length) :: Elems.extents es d)
  | .pairList _ _ _ as bs, d =>
    Extent.value d (Extent.bytes (2 + (lengthBytes (Elems.toList as).length).length) ::
      Extent.interleave (Elems.extents as d) (Elems.extents bs d))
  | .union _ _ inner, d => Extent.value d (Extent.bytes 1 :: Inner.extents inner (d + 1))
  | .varIntList _ vs, d =>
    Extent.value d [Extent.bytes ((lengthBytes vs.length).length + (vs.map fun v => (varintBytes v).length).sum)]
  | .pair _ a b, d => Extent.value d [Extent.bytes ((varintBytes a).length + (varintBytes b).length)]
  | .triple _ a b c, d =>
    Extent.value d [Extent.bytes ((varintBytes a).length + (varintBytes b).length + (varintBytes c).length)]
  | .float _ _, d => Extent.value d [Extent.bytes 8]

/-- The inner value of a Union, at depth `d`, when there is one. -/
def Inner.extents : Inner → Nat → List Extent
  | .none, _ => []
  | .some x, d => [Tdf.extent x d]

/-- The extents of children at depth `d`. -/
def Tdfs.extents : Tdfs → Nat → List Extent
  | .nil, _ => []
  | .cons x xs, d => Tdf.extent x d :: Tdfs.extents xs d

/-- R164: the extent of an element of a List at depth `d`; an EStruct is a body one level deeper. -/
def Elem.extent : Elem → Nat → Extent
  | .int v, _ => Extent.bytes (varintBytes v).length
  | .string str, _ => Extent.bytes (stringBytes str).length
  | .struct start2 cs, d => Extent.body (d + 1) start2 (Tdfs.extents cs (d + 2))
  | .triple a b c, _ => Extent.bytes ((varintBytes a).length + (varintBytes b).length + (varintBytes c).length)
  | .float _, _ => Extent.bytes 8

/-- The extents of the elements of a List at depth `d`. -/
def Elems.extents : Elems → Nat → List Extent
  | .nil, _ => []
  | .cons e es, d => Elem.extent e d :: Elems.extents es d

end

/-- R161: `at` is the number of bytes written before the first value or Struct body that begins beyond `limit`. -/
def Extent.FirstTooDeep (limit : Bound) (x : Extent) (at' : Nat) : Prop :=
  ∃ before d after, x.starts = before ++ (at', d) :: after ∧ ¬ Bound.holds limit d ∧
    ∀ b ∈ before, Bound.holds limit b.2

/-- R190, the string condition: a string is empty or does not end in NUL. -/
def StringOk (str : Bytes) : Prop := str.getLast? ≠ some 0

/-- A length that a varint can carry (R102 takes an I64). -/
def LengthOk (n : Nat) : Prop := n < 2 ^ 63

/-- R190, the struct condition on one body: no child's tag begins with 0x00, and without the marker the first child's
does not begin with 0x02. -/
def BodyOk (start2 : Bool) (cs : Tdfs) : Prop :=
  (∀ x ∈ Tdfs.toList cs, (Tdf.tagOf x).extractLsb' 16 8 ≠ 0x00#8) ∧
    (start2 = false → ∀ x, (Tdfs.toList cs).head? = some x → (Tdf.tagOf x).extractLsb' 16 8 ≠ 0x02#8)

mutual

/-- R190: the struct condition and the string condition at every node, every count within MAX_ELEMS, and every length
and count below 2^63 (the range of the varint that carries it). -/
def Tdf.Plain (p : Params) : Tdf → Prop
  | .string _ str => StringOk str ∧ LengthOk (str.length + 1)
  | .blob _ b => LengthOk b.length
  | .struct _ start2 cs => BodyOk start2 cs ∧ Tdfs.Plain p cs
  | .list _ _ es =>
    Bound.holds p.maxElems (Elems.toList es).length ∧ LengthOk (Elems.toList es).length ∧ Elems.Plain p es
  | .pairList _ _ _ as bs =>
    Bound.holds p.maxElems (Elems.toList as).length ∧ LengthOk (Elems.toList as).length ∧ Elems.Plain p as ∧
      Elems.Plain p bs
  | .union _ _ inner => Inner.Plain p inner
  | .varIntList _ vs => Bound.holds p.maxElems vs.length ∧ LengthOk vs.length
  | _ => True

/-- The same for the inner value of a Union. -/
def Inner.Plain (p : Params) : Inner → Prop
  | .none => True
  | .some x => Tdf.Plain p x

/-- The same for every child. -/
def Tdfs.Plain (p : Params) : Tdfs → Prop
  | .nil => True
  | .cons x xs => Tdf.Plain p x ∧ Tdfs.Plain p xs

/-- The same for an element. -/
def Elem.Plain (p : Params) : Elem → Prop
  | .string str => StringOk str ∧ LengthOk (str.length + 1)
  | .struct start2 cs => BodyOk start2 cs ∧ Tdfs.Plain p cs
  | _ => True

/-- The same for every element. -/
def Elems.Plain (p : Params) : Elems → Prop
  | .nil => True
  | .cons e es => Elem.Plain p e ∧ Elems.Plain p es

end

/-- R106: signed varints stand back to back from `p` to `q`, each as ELEM.Int reads it. -/
def IntsAt (s : State) (inp : Bytes) : List I64 → Nat → Nat → Prop
  | [], p, q => q = p
  | v :: vs, p, q => ∃ p', Gives (.elemInt (.read inp p 1)) s (.ok (.elemAt (.int v) p')) ∧ IntsAt s inp vs p' q

/-- R274: of `n` varints from `p` on, the first that fails answers `e`, after all before it were read. -/
def IntsFail (s : State) (inp : Bytes) (n p : Nat) (e : Error) : Prop :=
  ∃ vs p', vs.length < n ∧ IntsAt s inp vs p p' ∧ Gives (.elemInt (.read inp p' 1)) s (.err e)

/-- R162, R175 to R178: a count `n` within MAX_ELEMS stands from `p` to `q`. -/
def CountAt (s : State) (inp : Bytes) (n p q : Nat) : Prop :=
  Bound.holds s.params.maxElems n ∧ ∃ v : I64, v.toInt = n ∧ IntsAt s inp [v] p q

/-- R106, R162, R274: the count at `p` fails: its varint's own error, MALFORMED_LENGTH or RESOURCE for a count. -/
def CountFails (s : State) (inp : Bytes) (p : Nat) (e : Error) : Prop :=
  IntsFail s inp 1 p e ∨ ∃ (v : I64) (q : Nat), IntsAt s inp [v] p q ∧
    if v.toInt < 0 then e = .malformedLength p v.toInt
    else ¬ Bound.holds s.params.maxElems v.toInt.toNat ∧ e = .resource (.count p)

/-- R169: `dec(IN, pos, d)`, the value at `pos` decoded at depth `d`, ends with `r`. -/
def DecGives (s : State) (inp : Bytes) (pos d : Nat) (r : Response) : Prop :=
  responseOf ((readTdf (s.decEnv inp) pos d).map fun x => .tdfAt x.1 x.2) = r

/-- R165: children stand back to back from `p` to `q`, each decoded at depth `d`, none beginning with the terminator. -/
def ChildrenAt (s : State) (inp : Bytes) (d : Nat) : Tdfs → Nat → Nat → Prop
  | .nil, p, q => q = p
  | .cons x xs, p, q =>
    (∃ b, inp[p]? = some b ∧ b ≠ 0x00#8) ∧
      ∃ p', DecGives s inp p d (.ok (.tdfAt x p')) ∧ ChildrenAt s inp d xs p' q

/-- R165: a Struct body at depth `d` stands from `p` to `q`: the marker where `start2` says, the children one level
deeper, the terminator. -/
def BodyAt (s : State) (inp : Bytes) (d : Nat) (start2 : Bool) (cs : Tdfs) (p q : Nat) : Prop :=
  Bound.holds s.params.maxDepth d ∧ (start2 = true ↔ inp[p]? = some 0x02#8) ∧
    ∃ p', ChildrenAt s inp (d + 1) cs (if start2 then p + 1 else p) p' ∧ inp[p']? = some 0x00#8 ∧ q = p' + 1

/-- R165, R161, R274: a Struct body at depth `d` fails at `p`: its own depth; or, after some children, no terminator
before the end, or the error of the next child. -/
def BodyFails (s : State) (inp : Bytes) (d p : Nat) (e : Error) : Prop :=
  (¬ Bound.holds s.params.maxDepth d ∧ e = .resource (.depth p)) ∨
  Bound.holds s.params.maxDepth d ∧ ∃ (start2 : Bool) (cs : Tdfs) (p' : Nat),
    (start2 = true ↔ inp[p]? = some 0x02#8) ∧ ChildrenAt s inp (d + 1) cs (if start2 then p + 1 else p) p' ∧
      ((inp[p']? = none ∧ e = .truncated p') ∨
        (∃ b, inp[p']? = some b ∧ b ≠ 0x00#8) ∧ DecGives s inp p' (d + 1) (.err e))

/-- R175, R176, R77 (b): the subtype byte at `p` is missing, or names no kind. -/
def SubtypeFails (inp : Bytes) (p : Nat) (e : Error) : Prop :=
  (inp[p]? = none ∧ e = .truncated p) ∨
    ∃ b, inp[p]? = some b ∧ b.toNat ∉ [0x00, 0x01, 0x03, 0x09, 0x0A] ∧ e = .unknownTdfType p b

/-- R175: elements of kind `k` stand back to back from `p` to `q`, in a List at depth `d`, each as its row reads it. -/
def ElemsAt (s : State) (inp : Bytes) (k : Kind) (d : Nat) : Elems → Nat → Nat → Prop
  | .nil, p, q => q = p
  | .cons e es, p, q =>
    ∃ p', Gives (rowOfKind inp p d k) s (.ok (.elemAt e p')) ∧ ElemsAt s inp k d es p' q

/-- R175, R274: of `n` elements from `p` on, the first that fails answers `err`. -/
def ElemsFail (s : State) (inp : Bytes) (k : Kind) (d n p : Nat) (err : Error) : Prop :=
  ∃ es p', (Elems.toList es).length < n ∧ ElemsAt s inp k d es p p' ∧ Gives (rowOfKind inp p' d k) s (.err err)

/-- R176: interleaved pairs stand from `p` to `q`. -/
def PairsAt (s : State) (inp : Bytes) (ka kb : Kind) (d : Nat) : Elems → Elems → Nat → Nat → Prop
  | .cons a as, .cons b bs, p, q =>
    ∃ p' p'', Gives (rowOfKind inp p d ka) s (.ok (.elemAt a p')) ∧
      Gives (rowOfKind inp p' d kb) s (.ok (.elemAt b p'')) ∧ PairsAt s inp ka kb d as bs p'' q
  | .nil, .nil, p, q => q = p
  | _, _, _, _ => False

/-- R176, R274: of `n` pairs from `p` on, the first element that fails, the first of its pair or the second, answers
`err`. -/
def PairsFail (s : State) (inp : Bytes) (ka kb : Kind) (d n p : Nat) (err : Error) : Prop :=
  ∃ as bs p', (Elems.toList as).length < n ∧ PairsAt s inp ka kb d as bs p p' ∧
    (Gives (rowOfKind inp p' d ka) s (.err err) ∨
      ∃ a p'', Gives (rowOfKind inp p' d ka) s (.ok (.elemAt a p'')) ∧ Gives (rowOfKind inp p'' d kb) s (.err err))

/-- R200: complete values stand back to back from `p` to `q` of the content, each as TDF.DEC reads it. -/
def ValuesAt (s : State) (content : Bytes) : List Tdf → Nat → Nat → Prop
  | [], p, q => q = p
  | x :: xs, p, q => ∃ p', Gives (.tdfDec content p) s (.ok (.tdfAt x p')) ∧ ValuesAt s content xs p' q

/-! ## Packets and streams -/

/-- R258: a packet record as the bytes it came from, header as received. -/
def Packet.wire (k : Packet) : Bytes :=
  twoBytes (k.content.length % 65536) ++ twoBytes k.component.toNat ++ twoBytes k.command.toNat ++
    twoBytes k.error.toNat ++ twoBytes k.qtype.toNat ++ twoBytes k.id.toNat ++
    (if k.qtype.getLsbD 12 then twoBytes (k.content.length / 65536) else []) ++ k.content

/-- R253, R257: PKT.DEC on `b` from `p` on gives the packets in turn, and INCOMPLETE at `q`. -/
def Extracts (s : State) (b : Bytes) : List Packet → Nat → Nat → Prop
  | [], p, q => q = p ∧ ∃ need, Gives (.pktDec b p) s (.err (.incomplete need))
  | k :: ks, p, q => ∃ p', Gives (.pktDec b p) s (.ok (.packetAt k p')) ∧ Extracts s b ks p' q

/-- R257, R258: pushing chunks in order, each answered `ok`: the packets in order and the state after. -/
def Pushes : List Bytes → State → List Packet → State → Prop
  | [], s, ks, t => ks = [] ∧ t = s
  | c :: cs, s, ks, t => ∃ u now later,
      exec (.streamPush c) s = .next u ∧ u.responses = s.responses ++ [.ok (.packets now)] ∧
        Pushes cs u later t ∧ ks = now ++ later

/-! ## Operands (30_encoding.md R80) -/

/-- The four kinds of operand a command can be given. -/
inductive OperandKind where
  | number
  | bytes
  | value
  | values
deriving DecidableEq, Repr

/-- The kind of an operand. -/
def Operand.kind : Operand → OperandKind
  | .int _ => .number
  | .bytes _ => .bytes
  | .tdf _ => .value
  | .tdfs _ => .values

/-- R80: the commands, each with the kinds of its operands in order; a cursor is an input and an offset. -/
def commandShapes : List (Byte × List OperandKind) :=
  [(0x01, [.number]), (0x02, [.number]), (0x03, [.number]), (0x04, [.bytes, .number]), (0x05, [.number, .number]),
   (0x06, [.bytes, .number]), (0x07, [.bytes, .number]), (0x08, [.bytes, .number]), (0x09, [.bytes, .number]),
   (0x0A, [.bytes]), (0x0B, [.bytes, .number]), (0x0C, [.bytes]), (0x0D, [.bytes, .number]), (0x10, [.bytes]),
   (0x11, [.number]), (0x20, [.value]), (0x21, [.bytes, .number]), (0x22, [.bytes]), (0x23, [.values]),
   (0x30, [.number, .number, .number, .number, .number, .bytes]), (0x31, [.bytes, .number]),
   (0x32, [.bytes, .number]), (0x40, [.bytes]), (0x41, [.number]), (0x42, []), (0x43, []), (0x4F, [])]

/-! ## Errors (60_exceptions.md R270) -/

/-- R270: the number of an error code. -/
def Error.code : Error → Nat
  | .incomplete _ => 1
  | .truncated _ => 2
  | .unknownTdfType _ _ => 3
  | .varintOverflow _ => 4
  | .malformedLength _ _ => 5
  | .precondition _ => 6
  | .resource _ => 7
  | .tooLong _ => 8
  | .badCommand _ => 9
  | .faulted => 10

/-- R270: the code of a response; 0 is OK. -/
def Response.code : Response → Nat
  | .ok _ => 0
  | .err e => Error.code e

/-- R26: the cursor a dispatch row reads from. -/
def Dispatch.cursor {α : Type} : Dispatch α → Option (Bytes × Nat)
  | .read inp pos _ => some (inp, pos)
  | .write _ _ _ => none

/-- R26: the cursor an instruction reads from, for those that take one. -/
def Instr.cursor : Instr → Option (Bytes × Nat)
  | .varintRd inp pos => some (inp, pos)
  | .rdU8 inp pos => some (inp, pos)
  | .rdU16 inp pos => some (inp, pos)
  | .rdU32 inp pos => some (inp, pos)
  | .rdF64 inp pos => some (inp, pos)
  | .strRd inp pos => some (inp, pos)
  | .blobRd inp pos => some (inp, pos)
  | .tdfDec inp pos => some (inp, pos)
  | .pktHdr inp pos => some (inp, pos)
  | .pktDec inp pos => some (inp, pos)
  | .tdfInt _ o => Dispatch.cursor o
  | .tdfString _ o => Dispatch.cursor o
  | .tdfBlob _ o => Dispatch.cursor o
  | .tdfStruct _ o => Dispatch.cursor o
  | .tdfList _ o => Dispatch.cursor o
  | .tdfPairList _ o => Dispatch.cursor o
  | .tdfUnion _ o => Dispatch.cursor o
  | .tdfVarIntList _ o => Dispatch.cursor o
  | .tdfPair _ o => Dispatch.cursor o
  | .tdfTriple _ o => Dispatch.cursor o
  | .tdfFloat _ o => Dispatch.cursor o
  | .unionEmpty _ o => Dispatch.cursor o
  | .elemInt o => Dispatch.cursor o
  | .elemString o => Dispatch.cursor o
  | .elemStruct o => Dispatch.cursor o
  | .elemTriple o => Dispatch.cursor o
  | .elemFloat o => Dispatch.cursor o
  | _ => none

/-- R26: the new cursor offset of a response. -/
def Result.cursor : Result → Option Nat
  | .varint _ _ p => some p
  | .u8At _ p => some p
  | .u16At _ p => some p
  | .u32At _ p => some p
  | .f64At _ p => some p
  | .bytesAt _ p => some p
  | .tdfAt _ p => some p
  | .elemAt _ p => some p
  | .packetAt _ p => some p
  | _ => none

/-- R270: the instructions that decode wire bytes: those that take a cursor, and CONTENT.DEC. -/
def Instr.decodes : Instr → Bool
  | .contentDec _ => true
  | i => (Instr.cursor i).isSome

/-- R270: the codes of a TDF Value decode and encode. -/
def tdfCodes (decodes : Bool) : List Nat := if decodes then [2, 3, 4, 5, 7] else [6, 7]

/-- R270: the error codes each operation may answer with (the column "raised by"; a dispatch row as the TDF command whose
part it is). BAD_COMMAND is answered before an instruction is known. -/
def Instr.errorCodes : Instr → List Nat
  | .zzEnc _ => []
  | .zzDec _ => []
  | .varintWr _ => []
  | .varintRd _ _ => [2, 4]
  | .numWr _ _ => [6]
  | .rdU8 _ _ => [2]
  | .rdU16 _ _ => [2]
  | .rdU32 _ _ => [2]
  | .rdF64 _ _ => [2]
  | .strWr _ => []
  | .strRd _ _ => [2, 4, 5]
  | .blobWr _ => []
  | .blobRd _ _ => [2, 4, 5]
  | .tagPack _ => []
  | .tagUnpack _ => []
  | .pktEnc _ _ _ _ _ _ => [8]
  | .pktHdr _ _ => [1]
  | .pktDec _ _ => [1]
  | .streamPush _ => [7, 10]
  | .cfgWr _ => []
  | .cfgRd => []
  | .statRd => []
  | .blockReset => []
  | i => tdfCodes (Instr.decodes i)

/-- R273: the four classes of error. -/
inductive ErrorClass where
  /-- (a) wait for more input -/
  | recoverable
  /-- (b) drop the content -/
  | contentLost
  /-- (c) a caller error on the write path -/
  | callerError
  /-- (d) a command or stream error -/
  | commandOrStream
deriving DecidableEq, Repr

/-- R273: the class of an error; RESOURCE is (b) from a decode, (c) from an encode, (d) from STREAM.PUSH. -/
def Error.classOf (fromDecode : Bool) : Error → ErrorClass
  | .incomplete _ => .recoverable
  | .truncated _ => .contentLost
  | .unknownTdfType _ _ => .contentLost
  | .varintOverflow _ => .contentLost
  | .malformedLength _ _ => .contentLost
  | .precondition _ => .callerError
  | .resource (.depth _) => if fromDecode then .contentLost else .callerError
  | .resource (.count _) => .contentLost
  | .resource (.buffer _ _) => .commandOrStream
  | .tooLong _ => .callerError
  | .badCommand _ => .commandOrStream
  | .faulted => .commandOrStream

/-- R273: the class of the errors of an operation: framing waits for more input, STREAM.PUSH has its own, a decode loses the
content, and what is left writes. -/
def Instr.errorClass : Instr → ErrorClass
  | .pktHdr _ _ => .recoverable
  | .pktDec _ _ => .recoverable
  | .streamPush _ => .commandOrStream
  | i => if Instr.decodes i then .contentLost else .callerError

end Sys2Proof.Machine
end

