-- ==== Sys2Proof/Certificates/Slice0/Obligations.lean ====
section
/-! DEFINITION. The statements for the provers. `Gives i s r` (Safety.lean) says that instruction `i` answers a next state
that is `s` with exactly the response `r` appended: every other field unchanged. -/

open Sys2Proof Sys2Proof.Machine

/-! ## Byte Cursor unit -/

/-- R100: ZZ.ENC is total, `2v` or `-2v-1`, the shift-and-xor form, and a bijection from I64 onto U64. -/
def Obligations.ZzEncIsZigzagBijection : Prop :=
  ∀ s : State,
    (∀ v : I64, ∃ u : U64, Gives (.zzEnc v) s (.ok (.u64 u)) ∧
      u = (if v.toInt < 0 then ~~~(v <<< 1) else v <<< 1) ∧ u = (v <<< 1) ^^^ v.sshiftRight 63 ∧
      (u.toNat : Int) = if v.toInt < 0 then -2 * v.toInt - 1 else 2 * v.toInt) ∧
    ∀ u : U64, ∃! v : I64, Gives (.zzEnc v) s (.ok (.u64 u))

/-- R101: ZZ.DEC is the shift, complemented when bit 0 is set, and the two mappings undo each other. -/
def Obligations.ZzDecInvertsZzEnc : Prop :=
  ∀ (s : State) (u : U64), ∃ v : I64, Gives (.zzDec u) s (.ok (.i64 v)) ∧
    v = (if u.getLsbD 0 then ~~~(u >>> 1) else u >>> 1) ∧ Gives (.zzEnc v) s (.ok (.u64 u)) ∧
    ∀ (w : I64) (x : U64), Gives (.zzEnc w) s (.ok (.u64 x)) → Gives (.zzDec x) s (.ok (.i64 w))

/-- R102: VARINT.WR never rejects; it appends 1 to 10 bytes, bit 7 set on all but the last, whose base-128 number is the
zigzag code, and no shorter sequence could carry it. -/
def Obligations.VarintWrEmitsShortestGroups : Prop :=
  ∀ (s : State) (v : I64), ∃ (b : Bytes) (u : U64),
    Gives (.varintWr v) s (.ok (.bytes b)) ∧ Gives (.zzEnc v) s (.ok (.u64 u)) ∧
    1 ≤ b.length ∧ b.length ≤ 10 ∧ base128 b = u.toNat ∧
    (∀ (i : Nat) (x : Byte), b[i]? = some x → x.getLsbD 7 = decide (i + 1 < b.length)) ∧
    ∀ k, 1 ≤ k → u.toNat < 2 ^ (7 * k) → b.length ≤ k

/-- R103: the length of a varint by its zigzag code and by its signed value, and its monotony in `|v|`. -/
def Obligations.VarintLengthBySignedRange : Prop :=
  ∀ (s : State) (v : I64), ∃ b : Bytes, Gives (.varintWr v) s (.ok (.bytes b)) ∧
    (∃ u : U64, Gives (.zzEnc v) s (.ok (.u64 u)) ∧ 1 ≤ b.length ∧ b.length ≤ 10 ∧ u.toNat < 2 ^ (7 * b.length) ∧
      ∀ k, 1 ≤ k → u.toNat < 2 ^ (7 * k) → b.length ≤ k) ∧
    (∀ k, 1 ≤ k → k ≤ 9 → (b.length ≤ k ↔ -(2 ^ (7 * k - 1) : Int) ≤ v.toInt ∧ v.toInt ≤ 2 ^ (7 * k - 1) - 1)) ∧
    ∀ (w : I64) (c : Bytes), Gives (.varintWr w) s (.ok (.bytes c)) → v.toInt.natAbs < w.toInt.natAbs →
      b.length ≤ c.length

/-- R104: the four ways a lenient varint read ends: a last byte, the end of the input, a tenth byte whose payload does not
fit (consumed, not added), a tenth byte that fits with its continuation bit set. -/
def Obligations.VarintRdLenientOutcome : Prop :=
  ∀ (inp : Bytes) (pos : Nat) (s : State), pos ≤ inp.length → s.strictVarint = false →
    (∀ (n : Nat) (b : Byte), n ≤ 9 → Continued inp pos n → inp[pos + n]? = some b → b.getLsbD 7 = false →
      (n = 9 → b.toNat % 128 ≤ 1) →
      Gives (.varintRd inp pos) s
        (.ok (.varint (BitVec.ofNat 64 (base128 ((inp.drop pos).take (n + 1)))) .ok (pos + n + 1)))) ∧
    (∀ n : Nat, n ≤ 9 → Continued inp pos n → pos + n = inp.length →
      Gives (.varintRd inp pos) s (.ok (.varint (BitVec.ofNat 64 (base128 (inp.drop pos))) .short (pos + n)))) ∧
    (∀ b : Byte, Continued inp pos 9 → inp[pos + 9]? = some b → 1 < b.toNat % 128 →
      Gives (.varintRd inp pos) s
        (.ok (.varint (BitVec.ofNat 64 (base128 ((inp.drop pos).take 9))) .guard (pos + 10)))) ∧
    (∀ b : Byte, Continued inp pos 9 → inp[pos + 9]? = some b → b.toNat % 128 ≤ 1 → b.getLsbD 7 = true →
      Gives (.varintRd inp pos) s
        (.ok (.varint (BitVec.ofNat 64 (base128 ((inp.drop pos).take 10))) .guard (pos + 10))))

/-- R105: in strict mode SHORT is TRUNCATED and GUARD is VARINT_OVERFLOW, at the first byte; OK is as in lenient mode. -/
def Obligations.VarintRdStrictOutcome : Prop :=
  ∀ (inp : Bytes) (pos : Nat) (s : State), s.strictVarint = true →
    ∃ (u : U64) (st : VStat) (p : Nat),
      Gives (.varintRd inp pos) { s with strictVarint := false } (.ok (.varint u st p)) ∧
      Gives (.varintRd inp pos) s
        (match st with
          | .ok => .ok (.varint u .ok p)
          | .short => .err (.truncated pos)
          | .guard => .err (.varintOverflow pos))

/-- R106, the round trip: what VARINT.WR writes, VARINT.RD reads whole with status OK in either mode, and ZZ.DEC gives
the value back. -/
def Obligations.VarintRoundTrip : Prop :=
  ∀ (s : State) (v : I64) (rest : Bytes), ∃ (b : Bytes) (u : U64),
    Gives (.varintWr v) s (.ok (.bytes b)) ∧
    Gives (.varintRd (b ++ rest) 0) s (.ok (.varint u .ok b.length)) ∧ Gives (.zzDec u) s (.ok (.i64 v))

/-- R107: NUM.WR appends the w-byte big-endian number `v mod 2^(8w)`; any other width is PRECONDITION. -/
def Obligations.NumWrBigEndian : Prop :=
  ∀ (s : State) (w : Int) (v : U64),
    ((w = 1 ∨ w = 2 ∨ w = 4 ∨ w = 8) → ∃ b : Bytes, Gives (.numWr w v) s (.ok (.bytes b)) ∧
      (b.length : Int) = w ∧ bigEndian b = v.toNat % 2 ^ (8 * b.length)) ∧
    (¬ (w = 1 ∨ w = 2 ∨ w = 4 ∨ w = 8) → Gives (.numWr w v) s (.err (.precondition (.operand w))))

/-- R108 to R112: the four fixed-width reads: the big-endian number of exactly n bytes, or TRUNCATED at the offset where
the read began when fewer remain. -/
def Obligations.FixedWidthReads : Prop :=
  ∀ (s : State) (inp : Bytes) (pos : Nat), pos ≤ inp.length →
    Gives (.rdU8 inp pos) s (if inp.length - pos < 1 then .err (.truncated pos)
      else .ok (.u8At (BitVec.ofNat 8 (bigEndian ((inp.drop pos).take 1))) (pos + 1))) ∧
    Gives (.rdU16 inp pos) s (if inp.length - pos < 2 then .err (.truncated pos)
      else .ok (.u16At (BitVec.ofNat 16 (bigEndian ((inp.drop pos).take 2))) (pos + 2))) ∧
    Gives (.rdU32 inp pos) s (if inp.length - pos < 4 then .err (.truncated pos)
      else .ok (.u32At (BitVec.ofNat 32 (bigEndian ((inp.drop pos).take 4))) (pos + 4))) ∧
    Gives (.rdF64 inp pos) s (if inp.length - pos < 8 then .err (.truncated pos)
      else .ok (.f64At (BitVec.ofNat 64 (bigEndian ((inp.drop pos).take 8))) (pos + 8)))

/-- R113, R116: a string is written with exactly one terminator counted in its length, a blob as it is; the length is the
varint of the body. (Lengths a varint can carry: below 2^63, notes/assumptions/5.md.) -/
def Obligations.StringAndBlobWrites : Prop :=
  ∀ (s : State) (b : Bytes),
    (b.length + 1 < 2 ^ 63 → ∃ n : Bytes,
      Gives (.varintWr (BitVec.ofNat 64 (if b.getLast? = some 0 then b else b ++ [0]).length)) s (.ok (.bytes n)) ∧
      Gives (.strWr b) s (.ok (.bytes (n ++ if b.getLast? = some 0 then b else b ++ [0])))) ∧
    (b.length < 2 ^ 63 → ∃ n : Bytes,
      Gives (.varintWr (BitVec.ofNat 64 b.length)) s (.ok (.bytes n)) ∧ Gives (.blobWr b) s (.ok (.bytes (n ++ b))))

/-- R114, R117: STR.RD and BLOB.RD by the varint at their cursor: its error, MALFORMED_LENGTH, TRUNCATED at the body, or
the body, for STR.RD without one trailing NUL. -/
def Obligations.StringAndBlobReads : Prop :=
  ∀ (s : State) (inp : Bytes) (pos : Nat), pos ≤ inp.length → ∃ r : Response,
    Gives (.varintRd inp pos) s r ∧
    Gives (.strRd inp pos) s
      (match r with
        | .ok (.varint u _ p) =>
          let n := (unzigzag u).toInt
          let body := (inp.drop p).take n.toNat
          if n < 0 then .err (.malformedLength pos n)
          else if inp.length - p < n.toNat then .err (.truncated p)
          else .ok (.bytesAt (if body.getLast? = some 0 then body.dropLast else body) (p + n.toNat))
        | other => other) ∧
    Gives (.blobRd inp pos) s
      (match r with
        | .ok (.varint u _ p) =>
          let n := (unzigzag u).toInt
          if n < 0 then .err (.malformedLength pos n)
          else if inp.length - p < n.toNat then .err (.truncated p)
          else .ok (.bytesAt ((inp.drop p).take n.toNat) (p + n.toNat))
        | other => other)

/-- R115, R117 (law): a string comes back, without the one trailing NUL it may have had; a blob comes back whole. (Lengths
below 2^63, notes/assumptions/5.md.) -/
def Obligations.StringAndBlobRoundTrip : Prop :=
  ∀ (s : State) (b rest : Bytes), b.length + 1 < 2 ^ 63 →
    (∃ w : Bytes, Gives (.strWr b) s (.ok (.bytes w)) ∧
      Gives (.strRd (w ++ rest) 0) s
        (.ok (.bytesAt (if b.getLast? = some 0 then b.dropLast else b) w.length))) ∧
    ∃ w : Bytes, Gives (.blobWr b) s (.ok (.bytes w)) ∧
      Gives (.blobRd (w ++ rest) 0) s (.ok (.bytesAt b w.length))

/-! ## Tag Codec unit -/

/-- R140: bit j of the group of byte i of the padded or cut label stands at bit 18 - 6i + j of the tag; bits 5 and 7 are
not carried. -/
def Obligations.TagPackGroups : Prop :=
  ∀ (s : State) (label : Bytes), ∃ t : U24, Gives (.tagPack label) s (.ok (.tag t)) ∧
    ∀ i j, i < 4 → j < 6 →
      t.getLsbD (18 - 6 * i + j) = if j < 5 then (label.getD i 0).getLsbD j else (label.getD i 0).getLsbD 6

/-- R142: byte i of the label has bit 6 and bits 4:0 of group i, bits 7 and 5 clear, and zero renders as space. -/
def Obligations.TagUnpackGroups : Prop :=
  ∀ (s : State) (t : U24), ∃ l : Bytes, Gives (.tagUnpack t) s (.ok (.bytes l)) ∧ l.length = 4 ∧
    ∀ i, i < 4 → ∀ g : Nat, g = t.toNat / 2 ^ (18 - 6 * i) % 64 →
      l[i]? = some (BitVec.ofNat 8 (if g = 0 then 0x20 else g / 32 * 64 + g % 32))

/-- R143: pack undoes unpack; unpack is injective with the image the rule names; pack is total and not injective:
labels that agree in bits 6 and 4:0 of their first four bytes give one tag; unpack undoes pack on labels of the subset,
padded with spaces. -/
def Obligations.TagCodecLaws : Prop :=
  ∀ s : State,
    (∀ t : U24, ∃ l : Bytes, Gives (.tagUnpack t) s (.ok (.bytes l)) ∧ Gives (.tagPack l) s (.ok (.tag t))) ∧
    (∀ (t t' : U24) (l : Bytes), Gives (.tagUnpack t) s (.ok (.bytes l)) → Gives (.tagUnpack t') s (.ok (.bytes l)) →
      t = t') ∧
    (∀ l : Bytes, (∃ t : U24, Gives (.tagUnpack t) s (.ok (.bytes l))) ↔
      l.length = 4 ∧ ∀ c ∈ l, c = 0x20#8 ∨ (c ≠ 0x00#8 ∧ c.getLsbD 7 = false ∧ c.getLsbD 5 = false)) ∧
    (∀ l : Bytes, ∃ t : U24, Gives (.tagPack l) s (.ok (.tag t))) ∧
    (∀ l l' : Bytes, (∀ i j, i < 4 → j < 7 → j ≠ 5 → (l.getD i 0).getLsbD j = (l'.getD i 0).getLsbD j) →
      ∃ t : U24, Gives (.tagPack l) s (.ok (.tag t)) ∧ Gives (.tagPack l') s (.ok (.tag t))) ∧
    (∃ (l l' : Bytes) (t : U24), l ≠ l' ∧ Gives (.tagPack l) s (.ok (.tag t)) ∧ Gives (.tagPack l') s (.ok (.tag t))) ∧
    ∀ l : Bytes, l.length ≤ 4 →
      (∀ c ∈ l, c = 0x20#8 ∨ (c ≠ 0x00#8 ∧ c.getLsbD 7 = false ∧ c.getLsbD 5 = false)) →
      ∃ t : U24, Gives (.tagPack l) s (.ok (.tag t)) ∧
        Gives (.tagUnpack t) s (.ok (.bytes (l ++ List.replicate (4 - l.length) 0x20#8)))

/-! ## TDF Value unit: the dispatch rows -/

/-- R171 to R173, R178 to R181, R183, R164: the flat payload writers, each by the byte cursor writes it is made of;
UNION.Empty writes nothing after its discriminant. (Counts below 2^63, notes/assumptions/5.md; that a row runs alone is the
model's form, notes/assumptions/2.md.) -/
def Obligations.FlatRowsWrite : Prop :=
  ∀ (s : State) (tag : U24) (off d : Nat),
    (∀ v : I64, ∃ w : Bytes, Gives (.varintWr v) s (.ok (.bytes w)) ∧
      Gives (.tdfInt tag (.write v off d)) s (.ok (.bytes w)) ∧ Gives (.elemInt (.write v off d)) s (.ok (.bytes w))) ∧
    (∀ str : Bytes, ∃ w : Bytes, Gives (.strWr str) s (.ok (.bytes w)) ∧
      Gives (.tdfString tag (.write str off d)) s (.ok (.bytes w)) ∧
      Gives (.elemString (.write str off d)) s (.ok (.bytes w))) ∧
    (∀ b : Bytes, ∃ w : Bytes, Gives (.blobWr b) s (.ok (.bytes w)) ∧
      Gives (.tdfBlob tag (.write b off d)) s (.ok (.bytes w))) ∧
    (∀ bits : U64, ∃ w : Bytes, Gives (.numWr 8 bits) s (.ok (.bytes w)) ∧
      Gives (.tdfFloat tag (.write bits off d)) s (.ok (.bytes w)) ∧
      Gives (.elemFloat (.write bits off d)) s (.ok (.bytes w))) ∧
    (∀ a b c : I64, ∃ x y z : Bytes, Gives (.varintWr a) s (.ok (.bytes x)) ∧ Gives (.varintWr b) s (.ok (.bytes y)) ∧
      Gives (.varintWr c) s (.ok (.bytes z)) ∧ Gives (.tdfPair tag (.write (a, b) off d)) s (.ok (.bytes (x ++ y))) ∧
      Gives (.tdfTriple tag (.write (a, b, c) off d)) s (.ok (.bytes (x ++ y ++ z))) ∧
      Gives (.elemTriple (.write (a, b, c) off d)) s (.ok (.bytes (x ++ y ++ z)))) ∧
    (∀ vs : List I64, vs.length < 2 ^ 63 → ∃ (n : Bytes) (bs : List Bytes),
      Gives (.varintWr (BitVec.ofNat 64 vs.length)) s (.ok (.bytes n)) ∧
      List.Forall₂ (fun v b => Gives (.varintWr v) s (.ok (.bytes b))) vs bs ∧
      Gives (.tdfVarIntList tag (.write vs off d)) s (.ok (.bytes (n ++ bs.flatten)))) ∧
    Gives (.unionEmpty tag (.write () off d)) s (.ok (.bytes []))

/-- R171 to R173, R181, R183, R164: the flat payload readers by the byte cursor reads they are made of, errors included. -/
def Obligations.FlatRowsRead : Prop :=
  ∀ (s : State) (tag : U24) (inp : Bytes) (pos d : Nat), pos ≤ inp.length →
    (∃ r, Gives (.varintRd inp pos) s r ∧
      Gives (.tdfInt tag (.read inp pos d)) s
        (match r with
          | .ok (.varint u _ p) => .ok (.tdfAt (.int tag (unzigzag u)) p)
          | other => other) ∧
      Gives (.elemInt (.read inp pos d)) s
        (match r with
          | .ok (.varint u _ p) => .ok (.elemAt (.int (unzigzag u)) p)
          | other => other)) ∧
    (∃ r, Gives (.strRd inp pos) s r ∧
      Gives (.tdfString tag (.read inp pos d)) s
        (match r with
          | .ok (.bytesAt b p) => .ok (.tdfAt (.string tag b) p)
          | other => other) ∧
      Gives (.elemString (.read inp pos d)) s
        (match r with
          | .ok (.bytesAt b p) => .ok (.elemAt (.string b) p)
          | other => other)) ∧
    (∃ r, Gives (.blobRd inp pos) s r ∧
      Gives (.tdfBlob tag (.read inp pos d)) s
        (match r with
          | .ok (.bytesAt b p) => .ok (.tdfAt (.blob tag b) p)
          | other => other)) ∧
    (∃ r, Gives (.rdF64 inp pos) s r ∧
      Gives (.tdfFloat tag (.read inp pos d)) s
        (match r with
          | .ok (.f64At bits p) => .ok (.tdfAt (.float tag bits) p)
          | other => other) ∧
      Gives (.elemFloat (.read inp pos d)) s
        (match r with
          | .ok (.f64At bits p) => .ok (.elemAt (.float bits) p)
          | other => other)) ∧
    Gives (.unionEmpty tag (.read inp pos d)) s (.ok (.tdfAt (.union tag 0x7F .none) pos))

/-- R178 to R180, R164: Pair, Triple, an ETriple and VarIntList read their varints back to back, or answer the error of
the first that fails (R105, R274), for VarIntList that of the count first; outside strict mode Pair and Triple raise
nothing. -/
def Obligations.VarintRowsRead : Prop :=
  ∀ (s : State) (tag : U24) (inp : Bytes) (pos d : Nat), pos ≤ inp.length →
    (∀ a b q, Gives (.tdfPair tag (.read inp pos d)) s (.ok (.tdfAt (.pair tag a b) q)) ↔ IntsAt s inp [a, b] pos q) ∧
    (∀ a b c q, Gives (.tdfTriple tag (.read inp pos d)) s (.ok (.tdfAt (.triple tag a b c) q)) ↔
      IntsAt s inp [a, b, c] pos q) ∧
    (∀ a b c q, Gives (.elemTriple (.read inp pos d)) s (.ok (.elemAt (.triple a b c) q)) ↔
      IntsAt s inp [a, b, c] pos q) ∧
    (∀ vs q, Gives (.tdfVarIntList tag (.read inp pos d)) s (.ok (.tdfAt (.varIntList tag vs) q)) ↔
      ∃ p, CountAt s inp vs.length pos p ∧ IntsAt s inp vs p q) ∧
    (∀ e, Gives (.tdfPair tag (.read inp pos d)) s (.err e) ↔ IntsFail s inp 2 pos e) ∧
    (∀ e, Gives (.tdfTriple tag (.read inp pos d)) s (.err e) ↔ IntsFail s inp 3 pos e) ∧
    (∀ e, Gives (.elemTriple (.read inp pos d)) s (.err e) ↔ IntsFail s inp 3 pos e) ∧
    (∀ e, Gives (.tdfVarIntList tag (.read inp pos d)) s (.err e) ↔
      CountFails s inp pos e ∨ ∃ n p, CountAt s inp n pos p ∧ IntsFail s inp n p e) ∧
    (s.strictVarint = false →
      (∃ a b q, Gives (.tdfPair tag (.read inp pos d)) s (.ok (.tdfAt (.pair tag a b) q))) ∧
      (∃ a b c q, Gives (.tdfTriple tag (.read inp pos d)) s (.ok (.tdfAt (.triple tag a b c) q))) ∧
      ∃ a b c q, Gives (.elemTriple (.read inp pos d)) s (.ok (.elemAt (.triple a b c) q)))

/-- R165, R174, R164: a Struct row and an EStruct row read the marker, then children one level deeper, up to the
terminator, and nothing else; the EStruct is one level below its List. And when they answer an error, which: RESOURCE at
the body beyond MAX_DEPTH (R161), TRUNCATED where the input ends before the terminator, or a child's error unchanged
(R274). -/
def Obligations.StructRowsRead : Prop :=
  ∀ (s : State) (tag : U24) (inp : Bytes) (pos d : Nat),
    (∀ x q, Gives (.tdfStruct tag (.read inp pos d)) s (.ok (.tdfAt x q)) ↔
      ∃ start2 cs, x = .struct tag start2 cs ∧ BodyAt s inp d start2 cs pos q) ∧
    (∀ e q, Gives (.elemStruct (.read inp pos d)) s (.ok (.elemAt e q)) ↔
      ∃ start2 cs, e = .struct start2 cs ∧ BodyAt s inp (d + 1) start2 cs pos q) ∧
    (∀ err, Gives (.tdfStruct tag (.read inp pos d)) s (.err err) ↔ BodyFails s inp d pos err) ∧
    ∀ err, Gives (.elemStruct (.read inp pos d)) s (.err err) ↔ BodyFails s inp (d + 1) pos err

/-- R175 to R177: List, PairList and Union rows read their subtype bytes, count and elements, or their discriminant and
inner value, and nothing else. And when they answer an error, which: that of a subtype byte, of the count, of the first
element that fails, of the inner value, unchanged (R274). -/
def Obligations.ContainerRowsRead : Prop :=
  ∀ (s : State) (tag : U24) (inp : Bytes) (pos d : Nat),
    (∀ x q, Gives (.tdfList tag (.read inp pos d)) s (.ok (.tdfAt x q)) ↔
      ∃ k es p, x = .list tag k es ∧ inp[pos]? = some (Kind.code k) ∧
        CountAt s inp (Elems.toList es).length (pos + 1) p ∧ ElemsAt s inp k d es p q) ∧
    (∀ x q, Gives (.tdfPairList tag (.read inp pos d)) s (.ok (.tdfAt x q)) ↔
      ∃ ka kb as bs p, x = .pairList tag ka kb as bs ∧ inp[pos]? = some (Kind.code ka) ∧
        inp[pos + 1]? = some (Kind.code kb) ∧ CountAt s inp (Elems.toList as).length (pos + 2) p ∧
        PairsAt s inp ka kb d as bs p q) ∧
    (∀ x q, Gives (.tdfUnion tag (.read inp pos d)) s (.ok (.tdfAt x q)) ↔
      (inp[pos]? = some 0x7F#8 ∧ x = .union tag 0x7F .none ∧ q = pos + 1) ∨
      ∃ c y, c ≠ 0x7F#8 ∧ inp[pos]? = some c ∧ x = .union tag c (.some y) ∧
        DecGives s inp (pos + 1) (d + 1) (.ok (.tdfAt y q))) ∧
    (∀ e, Gives (.tdfList tag (.read inp pos d)) s (.err e) ↔
      SubtypeFails inp pos e ∨ ∃ k, inp[pos]? = some (Kind.code k) ∧
        (CountFails s inp (pos + 1) e ∨ ∃ n p, CountAt s inp n (pos + 1) p ∧ ElemsFail s inp k d n p e)) ∧
    (∀ e, Gives (.tdfPairList tag (.read inp pos d)) s (.err e) ↔
      SubtypeFails inp pos e ∨ ∃ ka, inp[pos]? = some (Kind.code ka) ∧
        (SubtypeFails inp (pos + 1) e ∨ ∃ kb, inp[pos + 1]? = some (Kind.code kb) ∧
          (CountFails s inp (pos + 2) e ∨ ∃ n p, CountAt s inp n (pos + 2) p ∧ PairsFail s inp ka kb d n p e))) ∧
    ∀ e, Gives (.tdfUnion tag (.read inp pos d)) s (.err e) ↔
      (inp[pos]? = none ∧ e = .truncated pos) ∨
      ∃ c, c ≠ 0x7F#8 ∧ inp[pos]? = some c ∧ DecGives s inp (pos + 1) (d + 1) (.err e)

/-- R165, R174 to R177, R164: the writers of Struct, EStruct, List, PairList and Union, from well-formed fields within
MAX_DEPTH, by the writes of their parts. (Counts below 2^63, notes/assumptions/5.md.) -/
def Obligations.ContainerRowsWrite : Prop :=
  ∀ (s : State) (tag : U24) (off d : Nat),
    (∀ start2 cs, Tdfs.WF cs → Bound.holds s.params.maxDepth (Tdf.reach (.struct tag start2 cs) d) →
      ∃ ws : List Bytes,
        List.Forall₂ (fun x w => ∀ o, encTdf s.params x (d + 1) o = .ok w) (Tdfs.toList cs) ws ∧
        Gives (.tdfStruct tag (.write (start2, cs) off d)) s
          (.ok (.bytes ((if start2 then [0x02#8] else []) ++ ws.flatten ++ [0x00#8])))) ∧
    (∀ start2 cs, Tdfs.WF cs → Bound.holds s.params.maxDepth (Elem.reach (.struct start2 cs) d) →
      ∃ ws : List Bytes,
        List.Forall₂ (fun x w => ∀ o, encTdf s.params x (d + 2) o = .ok w) (Tdfs.toList cs) ws ∧
        Gives (.elemStruct (.write (start2, cs) off d)) s
          (.ok (.bytes ((if start2 then [0x02#8] else []) ++ ws.flatten ++ [0x00#8])))) ∧
    (∀ k es, Tdf.WF (.list tag k es) → Bound.holds s.params.maxDepth (Tdf.reach (.list tag k es) d) →
      (Elems.toList es).length < 2 ^ 63 → ∃ (n : Bytes) (ws : List Bytes),
        Gives (.varintWr (BitVec.ofNat 64 (Elems.toList es).length)) s (.ok (.bytes n)) ∧
        List.Forall₂ (fun e w => ∀ o, encElem s.params e d o = .ok w) (Elems.toList es) ws ∧
        Gives (.tdfList tag (.write (k, es) off d)) s (.ok (.bytes ([Kind.code k] ++ n ++ ws.flatten)))) ∧
    (∀ ka kb as bs, Tdf.WF (.pairList tag ka kb as bs) →
      Bound.holds s.params.maxDepth (Tdf.reach (.pairList tag ka kb as bs) d) →
      (Elems.toList as).length < 2 ^ 63 → ∃ (n : Bytes) (us ws : List Bytes),
        Gives (.varintWr (BitVec.ofNat 64 (Elems.toList as).length)) s (.ok (.bytes n)) ∧
        List.Forall₂ (fun e w => ∀ o, encElem s.params e d o = .ok w) (Elems.toList as) us ∧
        List.Forall₂ (fun e w => ∀ o, encElem s.params e d o = .ok w) (Elems.toList bs) ws ∧
        Gives (.tdfPairList tag (.write (ka, kb, as, bs) off d)) s
          (.ok (.bytes ([Kind.code ka, Kind.code kb] ++ n ++ (List.zipWith (· ++ ·) us ws).flatten)))) ∧
    (∀ x disc, disc ≠ 0x7F#8 → Tdf.WF x → Bound.holds s.params.maxDepth (Tdf.reach x (d + 1)) →
      ∃ w : Bytes, (∀ o, encTdf s.params x (d + 1) o = .ok w) ∧
        Gives (.tdfUnion tag (.write (disc, .some x) off d)) s (.ok (.bytes (disc :: w)))) ∧
    Gives (.tdfUnion tag (.write (0x7F, .none) off d)) s (.ok (.bytes [0x7F#8]))

/-! ## TDF Value unit: the commands -/

/-- R168, R65, R170: TDF.ENC is its header word followed by what the row of the value's variant writes; an error of the
row is its error. (For every value: that the row of an ill-formed one answers PRECONDITION, as TDF.ENC does, is the model's
choice, a write row first checks R163: notes/assumptions/2.md.) -/
def Obligations.TdfEncIsHeaderThenRow : Prop :=
  ∀ (s : State) (x : Tdf), Bound.holds s.params.maxDepth 1 → ∃ r,
    Gives (rowOfValue 4 1 x) s r ∧
    Gives (.tdfEnc x) s
      (match r with
        | .ok (.bytes b) => .ok (.bytes (Tdf.header x ++ b))
        | other => other)

/-- R168, R161, R163: TDF.ENC answers bytes exactly for a well-formed value within MAX_DEPTH, as many as its extent says;
PRECONDITION for every ill-formed one, whatever its depth; for a well-formed one beyond MAX_DEPTH, RESOURCE (depth) at the
number of bytes already written before the first value or Struct body that is too deep. -/
def Obligations.TdfEncSucceedsWithinBounds : Prop :=
  ∀ (s : State) (x : Tdf),
    (Tdf.WF x → Bound.holds s.params.maxDepth (Tdf.reach x 1) →
      ∃ b, Gives (.tdfEnc x) s (.ok (.bytes b)) ∧ b.length = (Tdf.extent x 1).size) ∧
    (Tdf.WF x → ¬ Bound.holds s.params.maxDepth (Tdf.reach x 1) →
      ∃ off, Extent.FirstTooDeep s.params.maxDepth (Tdf.extent x 1) off ∧
        Gives (.tdfEnc x) s (.err (.resource (.depth off)))) ∧
    (¬ Tdf.WF x → ∃ path check, Gives (.tdfEnc x) s (.err (.precondition (.node path check))))

/-- R163: which node and clause PRECONDITION names: the root by its own clause; otherwise the first ill-formed part, its
index before the path inside it. In a PairList, `as[i]` comes before `bs[i]` (the model's reading of pre-order,
notes/assumptions/11.md). -/
def Obligations.PreconditionNamesFirstBadNode : Prop :=
  ∀ (s : State) (tag : U24),
    (∀ k es, (∃ e ∈ Elems.toList es, Elem.kind e ≠ k) →
      Gives (.tdfEnc (.list tag k es)) s (.err (.precondition (.node [] .a)))) ∧
    (∀ ka kb as bs, ((∃ e ∈ Elems.toList as, Elem.kind e ≠ ka) ∨ (∃ e ∈ Elems.toList bs, Elem.kind e ≠ kb) ∨
        (Elems.toList as).length ≠ (Elems.toList bs).length) →
      Gives (.tdfEnc (.pairList tag ka kb as bs)) s (.err (.precondition (.node [] .b)))) ∧
    (∀ disc, disc ≠ 0x7F#8 → Gives (.tdfEnc (.union tag disc .none)) s (.err (.precondition (.node [] .c)))) ∧
    (∀ x, Gives (.tdfEnc (.union tag 0x7F (.some x))) s (.err (.precondition (.node [] .c)))) ∧
    (∀ disc x path check, disc ≠ 0x7F#8 → Gives (.tdfEnc x) s (.err (.precondition (.node path check))) →
      Gives (.tdfEnc (.union tag disc (.some x))) s (.err (.precondition (.node (0 :: path) check)))) ∧
    (∀ start2 cs i x path check, (Tdfs.toList cs)[i]? = some x → (∀ y ∈ (Tdfs.toList cs).take i, Tdf.WF y) →
      Gives (.tdfEnc x) s (.err (.precondition (.node path check))) →
      Gives (.tdfEnc (.struct tag start2 cs)) s (.err (.precondition (.node (i :: path) check)))) ∧
    (∀ k es i start2 cs path check, (∀ e ∈ Elems.toList es, Elem.kind e = k) →
      (Elems.toList es)[i]? = some (.struct start2 cs) → (∀ e ∈ (Elems.toList es).take i, Elem.WF e) →
      Gives (.tdfEnc (.struct tag start2 cs)) s (.err (.precondition (.node path check))) →
      Gives (.tdfEnc (.list tag k es)) s (.err (.precondition (.node (i :: path) check)))) ∧
    (∀ ka kb as bs i start2 cs path check, (∀ e ∈ Elems.toList as, Elem.kind e = ka) →
      (∀ e ∈ Elems.toList bs, Elem.kind e = kb) → (Elems.toList as).length = (Elems.toList bs).length →
      (∀ e ∈ (Elems.toList as).take i, Elem.WF e) → (∀ e ∈ (Elems.toList bs).take i, Elem.WF e) →
      ((Elems.toList as)[i]? = some (.struct start2 cs) ∨
        (∃ e, (Elems.toList as)[i]? = some e ∧ Elem.WF e) ∧ (Elems.toList bs)[i]? = some (.struct start2 cs)) →
      Gives (.tdfEnc (.struct tag start2 cs)) s (.err (.precondition (.node path check))) →
      Gives (.tdfEnc (.pairList tag ka kb as bs)) s (.err (.precondition (.node (i :: path) check)))) ∧
    ∀ vals i x path check, vals[i]? = some x → (∀ y ∈ vals.take i, Tdf.WF y) →
      Gives (.tdfEnc x) s (.err (.precondition (.node path check))) →
      Gives (.contentEnc vals) s (.err (.precondition (.node (i :: path) check)))

/-- R169, R170, R182, R276: decoding a value checks the depth, then the four header bytes, then the type byte, and then
answers what the row of that type answers on the payload, at every depth; TDF.DEC is the decoding at depth 1. -/
def Obligations.TdfDecDispatchesOnType : Prop :=
  ∀ (s : State) (inp : Bytes) (pos : Nat), pos ≤ inp.length →
    (∀ r, Gives (.tdfDec inp pos) s r ↔ DecGives s inp pos 1 r) ∧
    ∀ d, (¬ Bound.holds s.params.maxDepth d → DecGives s inp pos d (.err (.resource (.depth pos)))) ∧
      (Bound.holds s.params.maxDepth d →
        (inp.length - pos < 4 → DecGives s inp pos d (.err (.truncated pos))) ∧
        ∀ a b c ty : Byte, inp[pos]? = some a → inp[pos + 1]? = some b → inp[pos + 2]? = some c →
          inp[pos + 3]? = some ty →
          (0x0A < ty.toNat → DecGives s inp pos d (.err (.unknownTdfType (pos + 3) ty))) ∧
          ∀ t, TdfType.code t = ty → ∃ r,
            Gives (rowOfHeader (a ++ b ++ c) inp (pos + 4) d t) s r ∧ DecGives s inp pos d r)

/-- R175, R176, R177: a List, PairList or Union row whose subtype or discriminant byte is missing answers TRUNCATED at its
place, a PairList row for its second subtype byte too; a List or PairList row with a subtype byte that names no kind
answers UNKNOWN_TDF_TYPE at that byte. -/
def Obligations.BadSubtypesRefused : Prop :=
  ∀ (s : State) (tag : U24) (inp : Bytes) (pos d : Nat), pos ≤ inp.length →
    (inp[pos]? = none → Gives (.tdfList tag (.read inp pos d)) s (.err (.truncated pos)) ∧
      Gives (.tdfPairList tag (.read inp pos d)) s (.err (.truncated pos)) ∧
      Gives (.tdfUnion tag (.read inp pos d)) s (.err (.truncated pos))) ∧
    (∀ b : Byte, inp[pos]? = some b → b.toNat ∉ [0x00, 0x01, 0x03, 0x09, 0x0A] →
      Gives (.tdfList tag (.read inp pos d)) s (.err (.unknownTdfType pos b)) ∧
      Gives (.tdfPairList tag (.read inp pos d)) s (.err (.unknownTdfType pos b))) ∧
    ∀ a : Byte, inp[pos]? = some a → a.toNat ∈ [0x00, 0x01, 0x03, 0x09, 0x0A] →
      (inp[pos + 1]? = none → Gives (.tdfPairList tag (.read inp pos d)) s (.err (.truncated (pos + 1)))) ∧
      ∀ b : Byte, inp[pos + 1]? = some b → b.toNat ∉ [0x00, 0x01, 0x03, 0x09, 0x0A] →
        Gives (.tdfPairList tag (.read inp pos d)) s (.err (.unknownTdfType (pos + 1) b))

/-- R162, R106: where the count varint of a List, PairList or VarIntList gives a negative number, the row answers
MALFORMED_LENGTH; where it gives more than MAX_ELEMS, RESOURCE for a count; both at the offset of the count varint. -/
def Obligations.CountLimits : Prop :=
  ∀ (s : State) (tag : U24) (inp : Bytes) (q d : Nat) (v : I64) (p : Nat),
    Gives (.elemInt (.read inp q d)) s (.ok (.elemAt (.int v) p)) →
    (v.toInt < 0 → Gives (.tdfVarIntList tag (.read inp q d)) s (.err (.malformedLength q v.toInt))) ∧
    (0 ≤ v.toInt → ¬ Bound.holds s.params.maxElems v.toInt.toNat →
      Gives (.tdfVarIntList tag (.read inp q d)) s (.err (.resource (.count q)))) ∧
    (∀ (k : Kind) (pos : Nat), q = pos + 1 → inp[pos]? = some (Kind.code k) →
      (v.toInt < 0 → Gives (.tdfList tag (.read inp pos d)) s (.err (.malformedLength q v.toInt))) ∧
      (0 ≤ v.toInt → ¬ Bound.holds s.params.maxElems v.toInt.toNat →
        Gives (.tdfList tag (.read inp pos d)) s (.err (.resource (.count q))))) ∧
    ∀ (k k' : Kind) (pos : Nat), q = pos + 2 → inp[pos]? = some (Kind.code k) → inp[pos + 1]? = some (Kind.code k') →
      (v.toInt < 0 → Gives (.tdfPairList tag (.read inp pos d)) s (.err (.malformedLength q v.toInt))) ∧
      (0 ≤ v.toInt → ¬ Bound.holds s.params.maxElems v.toInt.toNat →
        Gives (.tdfPairList tag (.read inp pos d)) s (.err (.resource (.count q))))

/-- R190: what TDF.ENC writes of a well-formed value within the bounds, TDF.DEC reads back whole, in either varint mode
and whatever follows. (`Tdf.Plain` holds R190's two conditions, the count bound, and the model's limit of 2^63 on lengths,
notes/assumptions/5.md.) -/
def Obligations.TdfRoundTrip : Prop :=
  ∀ (s : State) (x : Tdf) (rest : Bytes), Tdf.WF x → Bound.holds s.params.maxDepth (Tdf.reach x 1) →
    Tdf.Plain s.params x →
    ∃ b, Gives (.tdfEnc x) s (.ok (.bytes b)) ∧ Gives (.tdfDec (b ++ rest) 0) s (.ok (.tdfAt x b.length))

/-- R163 (last sentence), R161: every value TDF.DEC returns is well formed and within MAX_DEPTH, so TDF.ENC takes it. -/
def Obligations.DecodedValuesAreWellFormed : Prop :=
  ∀ (s : State) (inp : Bytes) (pos : Nat) (x : Tdf) (q : Nat),
    Gives (.tdfDec inp pos) s (.ok (.tdfAt x q)) →
    Tdf.WF x ∧ Bound.holds s.params.maxDepth (Tdf.reach x 1) ∧ ∃ b, Gives (.tdfEnc x) s (.ok (.bytes b))

/-- R200: CONTENT.DEC answers exactly the values that TDF.DEC reads one after another up to the end of the content, and
otherwise the error of the first value that raises one. -/
def Obligations.ContentDecReadsToTheEnd : Prop :=
  ∀ (s : State) (content : Bytes),
    (∀ xs, Gives (.contentDec content) s (.ok (.tdfs xs)) ↔ ValuesAt s content xs 0 content.length) ∧
    (∀ xs p e, ValuesAt s content xs 0 p → p < content.length → Gives (.tdfDec content p) s (.err e) →
      Gives (.contentDec content) s (.err e)) ∧
    ∃ r, Gives (.contentDec content) s r ∧ ((∃ xs, r = .ok (.tdfs xs)) ∨
      ∃ xs p e, r = .err e ∧ ValuesAt s content xs 0 p ∧ p < content.length ∧ Gives (.tdfDec content p) s (.err e))

/-- R201: CONTENT.ENC appends what TDF.ENC writes of each value, in order; of well-formed values of which one goes beyond
MAX_DEPTH, it answers RESOURCE (depth) at the number of bytes already written, those of the values before included
(R161). -/
def Obligations.ContentEncConcatenates : Prop :=
  ∀ (s : State) (vals : List Tdf),
    (∀ bs : List Bytes, List.Forall₂ (fun x b => Gives (.tdfEnc x) s (.ok (.bytes b))) vals bs →
      Gives (.contentEnc vals) s (.ok (.bytes bs.flatten))) ∧
    ((∀ x ∈ vals, Tdf.WF x) → (∃ x ∈ vals, ¬ Bound.holds s.params.maxDepth (Tdf.reach x 1)) →
      ∃ off, Extent.FirstTooDeep s.params.maxDepth (Extent.seq (vals.map fun x => Tdf.extent x 1)) off ∧
        Gives (.contentEnc vals) s (.err (.resource (.depth off))))

/-- R202: what CONTENT.ENC writes, CONTENT.DEC reads back. -/
def Obligations.ContentRoundTrip : Prop :=
  ∀ (s : State) (vals : List Tdf),
    (∀ x ∈ vals, Tdf.WF x ∧ Bound.holds s.params.maxDepth (Tdf.reach x 1) ∧ Tdf.Plain s.params x) →
    ∃ b, Gives (.contentEnc vals) s (.ok (.bytes b)) ∧ Gives (.contentDec b) s (.ok (.tdfs vals))

/-- R26: whatever instruction reads, the cursor it returns is not before the one it was given and not past the end of
the input. -/
def Obligations.CursorStaysInInput : Prop :=
  ∀ (s : State) (i : Instr) (inp : Bytes) (pos : Nat) (r : Result) (q : Nat),
    Instr.cursor i = some (inp, pos) → pos ≤ inp.length → Gives i s (.ok r) → Result.cursor r = some q →
    pos ≤ q ∧ q ≤ inp.length

/-- R270 (last sentence), R278: with lenient varints and every parameter INF a decode command answers OK, INCOMPLETE,
TRUNCATED, UNKNOWN_TDF_TYPE or MALFORMED_LENGTH and no other code. -/
def Obligations.LenientDecodeErrorCodes : Prop :=
  ∀ (s : State) (i : Instr), s.strictVarint = false → s.params = Params.unbounded → Instr.decodes i = true →
    ∃ r, Gives i s r ∧ Response.code r ∈ [0, 1, 2, 3, 5]

/-! ## Packet Framing unit -/

/-- R220: the packet of a content: header fields big-endian, EXT set and extLength present exactly for more than 0xFFFF
bytes; TOO_LONG beyond 0xFFFFFFFF. -/
def Obligations.PktEncLayout : Prop :=
  ∀ (s : State) (component command error qtype id : U16) (content : Bytes),
    (0xFFFFFFFF < content.length → Gives (.pktEnc component command error qtype id content) s
      (.err (.tooLong content.length))) ∧
    (content.length ≤ 0xFFFF → Gives (.pktEnc component command error qtype id content) s
      (.ok (.bytes (twoBytes content.length ++ twoBytes component.toNat ++ twoBytes command.toNat ++
        twoBytes error.toNat ++ twoBytes (qtype &&& 0xEFFF).toNat ++ twoBytes id.toNat ++ content)))) ∧
    (0xFFFF < content.length → content.length ≤ 0xFFFFFFFF →
      Gives (.pktEnc component command error qtype id content) s
      (.ok (.bytes (twoBytes (content.length % 65536) ++ twoBytes component.toNat ++ twoBytes command.toNat ++
        twoBytes error.toNat ++ twoBytes (qtype ||| 0x1000).toNat ++ twoBytes id.toNat ++
        twoBytes (content.length / 65536) ++ content))))

/-- R222, R221: PKT.HDR: INCOMPLETE with the bytes still needed, or the fields, the header length by the EXT flag, and the
declared length. -/
def Obligations.PktHdrFields : Prop :=
  ∀ (s : State) (inp : Bytes) (pos : Nat), pos ≤ inp.length →
    (inp.length - pos < 12 → Gives (.pktHdr inp pos) s (.err (.incomplete (12 - (inp.length - pos))))) ∧
    (12 ≤ inp.length - pos →
      let h : Header :=
        { length := fieldAt inp pos, component := fieldAt inp (pos + 2), command := fieldAt inp (pos + 4),
          error := fieldAt inp (pos + 6), qtype := fieldAt inp (pos + 8), id := fieldAt inp (pos + 10),
          extLength := 0 }
      ((fieldAt inp (pos + 8)).getLsbD 12 = false →
        Gives (.pktHdr inp pos) s (.ok (.header h 12 ((fieldAt inp pos).setWidth 32)))) ∧
      ((fieldAt inp (pos + 8)).getLsbD 12 = true →
        (inp.length - pos < 14 → Gives (.pktHdr inp pos) s (.err (.incomplete (14 - (inp.length - pos))))) ∧
        (14 ≤ inp.length - pos →
          Gives (.pktHdr inp pos) s (.ok (.header { h with extLength := fieldAt inp (pos + 12) } 14
            (fieldAt inp (pos + 12) ++ fieldAt inp pos))))))

/-- R225, R223: PKT.DEC by its header: the header's INCOMPLETE, INCOMPLETE for the content, or the whole packet and the
cursor after it. -/
def Obligations.PktDecByItsHeader : Prop :=
  ∀ (s : State) (inp : Bytes) (pos : Nat), pos ≤ inp.length → ∃ r,
    Gives (.pktHdr inp pos) s r ∧
    Gives (.pktDec inp pos) s
      (match r with
        | .ok (.header h hlen n) =>
          if inp.length - pos < hlen + n.toNat then .err (.incomplete (hlen + n.toNat - (inp.length - pos)))
          else .ok (.packetAt { component := h.component, command := h.command, error := h.error, qtype := h.qtype,
                                id := h.id, content := (inp.drop (pos + hlen)).take n.toNat } (pos + hlen + n.toNat))
        | other => other)

/-- R226: a packet comes back with the qtype as its length makes it. -/
def Obligations.PacketRoundTrip : Prop :=
  ∀ (s : State) (component command error qtype id : U16) (content rest : Bytes), content.length ≤ 0xFFFFFFFF →
    ∃ b, Gives (.pktEnc component command error qtype id content) s (.ok (.bytes b)) ∧
      b.length = (if 0xFFFF < content.length then 14 else 12) + content.length ∧
      Gives (.pktDec (b ++ rest) 0) s
        (.ok (.packetAt
          { component := component, command := command, error := error,
            qtype := if 0xFFFF < content.length then qtype ||| 0x1000 else qtype &&& 0xEFFF,
            id := id, content := content } b.length))

/-! ## Stream Reassembler unit -/

/-- R253, R252, R256, R24: STREAM.PUSH: FAULTED while RFAULT is set; otherwise the packets PKT.DEC finds in RBUF and the
chunk, the rest kept as RBUF, or, when the rest exceeds BUF_CAP, RFAULT set, RBUF kept and RESOURCE answered. -/
def Obligations.StreamPushOutcome : Prop :=
  ∀ (s : State) (chunk : Bytes),
    (s.rfault = true → Gives (.streamPush chunk) s (.err .faulted)) ∧
    (s.rfault = false → ∃ ks p, Extracts s (s.rbuf ++ chunk) ks 0 p ∧
      (Bound.holds s.params.bufCap ((s.rbuf ++ chunk).length - p) →
        exec (.streamPush chunk) s = .next { s with
          rbuf := (s.rbuf ++ chunk).drop p, responses := s.responses ++ [.ok (.packets ks)] }) ∧
      ∀ cap, s.params.bufCap = .fin cap → cap < (s.rbuf ++ chunk).length - p →
        exec (.streamPush chunk) s = .next { s with
          rfault := true,
          responses := s.responses ++ [.err (.resource (.buffer ((s.rbuf ++ chunk).length - p) cap))] })

/-- R257: chunk boundaries carry no meaning: pushes that are all answered `ok` return the packets of the whole sequence
and leave its remainder; and no push overflows when BUF_CAP is INF, or when every packet has at most BUF_CAP + 1 bytes and
the remainder at most BUF_CAP. Without that proviso one chunk may be accepted where two overflow. -/
def Obligations.ChunkingDoesNotMatter : Prop :=
  (∀ (s : State) (chunks : List Bytes), s.rbuf = [] → s.rfault = false →
    ∃ ks p, Extracts s chunks.flatten ks 0 p ∧
      (∀ ks' t, Pushes chunks s ks' t → ks' = ks ∧ t.rbuf = chunks.flatten.drop p) ∧
      (s.params.bufCap = .inf → ∃ t, Pushes chunks s ks t) ∧
      ∀ cap, s.params.bufCap = .fin cap → (∀ k ∈ ks, (Packet.wire k).length ≤ cap + 1) →
        chunks.flatten.length - p ≤ cap → ∃ t, Pushes chunks s ks t) ∧
  ∃ (s : State) (c d : Bytes), s.rbuf = [] ∧ s.rfault = false ∧ (∃ k t, Pushes [c ++ d] s [k] t) ∧
    ¬ ∃ ks t, Pushes [c, d] s ks t

/-- R258: no byte is lost or repeated: the packets as received followed by RBUF are the old RBUF and all chunks; and no
instruction but BLOCK.RESET drops a held byte. -/
def Obligations.NoStreamByteLost : Prop :=
  (∀ (s t : State) (chunks : List Bytes) (ks : List Packet), Pushes chunks s ks t →
    (ks.map Packet.wire).flatten ++ t.rbuf = s.rbuf ++ chunks.flatten) ∧
  ∀ (i : Instr) (s t : State), exec i s = .next t → i ≠ .blockReset → t.rbuf = s.rbuf ∨
    ∃ chunk ks, i = .streamPush chunk ∧ Pushes [chunk] s ks t

/-! ## Registers, reset, the invariant -/

/-- R32, R33, R25: CFG.WR stores bit 0 and ignores bits 7:1; CFG.RD reads it in bit 0 with bits 7:1 as 0; STAT.RD reads
RFAULT in bit 0, RBUF_NONEMPTY in bit 1 and the other bits as 0. -/
def Obligations.ControlRegisters : Prop :=
  ∀ (s : State) (v : Byte),
    exec (.cfgWr v) s = .next { s with strictVarint := v.getLsbD 0, responses := s.responses ++ [.ok .unit] } ∧
    Gives .cfgRd s (.ok (.u8 (if s.strictVarint then 0x01 else 0x00))) ∧
    ∃ b : Byte, Gives .statRd s (.ok (.u8 b)) ∧
      b.toNat = (if s.rbuf = [] then 0 else 2) + (if s.rfault = true then 1 else 0)

/-- R31, R302: BLOCK.RESET clears RBUF, RFAULT and STRICT_VARINT and changes no parameter. (That the waiting requests and
the responses given before survive it is the model's choice, notes/assumptions/4.md.) -/
def Obligations.BlockResetClears : Prop :=
  ∀ s : State, exec .blockReset s = .next { s with
    rbuf := [], rfault := false, strictVarint := false, responses := s.responses ++ [.ok .unit] }

/-- R30: what an instance is right after reset: the model's reset state, and a new instance whatever its parameters. -/
def Obligations.ResetValues : Prop :=
  ∀ s : State, (s = State.reset ∨ ∃ p, s = State.create p) →
    s.rbuf = [] ∧ s.rfault = false ∧ s.strictVarint = false ∧
      Gives .cfgRd s (.ok (.u8 0x00)) ∧ Gives .statRd s (.ok (.u8 0x00))

/-- R22, R251, R255: every step keeps the invariant: legal parameters, RBUF within BUF_CAP and without a complete packet at
its front. -/
def Obligations.StepKeepsStateInv : Prop :=
  ∀ s t : State, s.Inv → step s = .next t → t.Inv

/-- R30, R255: an instance with legal parameters meets the invariant right after reset. (That State.reset has the
parameters INF is the model's choice, notes/assumptions/3.md.) -/
def Obligations.ResetMeetsStateInv : Prop := ∀ p : Params, p.legal = true → (State.create p).Inv

/-- R24, R252: RFAULT is sticky: a step that leaves it 0 from 1 ran BLOCK.RESET; and a step that sets it ran a
STREAM.PUSH that changed neither RBUF nor STRICT_VARINT. -/
def Obligations.RfaultIsSticky : Prop :=
  ∀ s t : State, step s = .next t →
    (s.rfault = true → t.rfault = false →
      ∃ r rest, s.port = r :: rest ∧ fetchDecode s.params r = .ok .blockReset) ∧
    (s.rfault = false → t.rfault = true →
      ∃ r rest chunk, s.port = r :: rest ∧ fetchDecode s.params r = .ok (.streamPush chunk) ∧
        t.rbuf = s.rbuf ∧ t.strictVarint = s.strictVarint)

/-- R272: what an error response leaves behind: everything as it was but the request taken, the response itself and, for
the RESOURCE of a STREAM.PUSH, RFAULT set. -/
def Obligations.ErrorsKeepPersistentState : Prop :=
  ∀ (s t : State) (e : Error), step s = .next t → t.responses = s.responses ++ [.err e] →
    t = { s with port := s.port.tail, responses := s.responses ++ [.err e],
                 rfault := match e with
                   | .resource (.buffer _ _) => true
                   | _ => s.rfault }

/-- R270, R273: the codes and the class of the errors an instruction can answer with: the table's "raised by" column and
the four classes. -/
def Obligations.ErrorsByOperation : Prop :=
  ∀ (i : Instr) (s t : State) (e : Error), exec i s = .next t → t.responses = s.responses ++ [.err e] →
    Error.code e ∈ Instr.errorCodes i ∧ Error.classOf (Instr.decodes i) e = Instr.errorClass i

/-- R20, R47, R48: every instruction but STREAM.PUSH, CFG.WR and BLOCK.RESET gives one response and changes nothing else,
and, STAT.RD apart, its response depends on its operands, STRICT_VARINT and the parameters alone. -/
def Obligations.OtherInstructionsKeepState : Prop :=
  ∀ (i : Instr) (s s' : State), Instr.writesState i = false → s.strictVarint = s'.strictVarint → s.params = s'.params →
    (∃ r, Gives i s r) ∧ (i ≠ .statRd → ∃ r, Gives i s r ∧ Gives i s' r)

/-- R22, R23, R24, R302: who writes what: a step that changes RBUF ran STREAM.PUSH or BLOCK.RESET; one that changes
STRICT_VARINT ran CFG.WR or BLOCK.RESET; none changes the parameters. -/
def Obligations.OnlyTheNamedCommandsWrite : Prop :=
  ∀ s t : State, step s = .next t →
    t.params = s.params ∧
    (t.rbuf ≠ s.rbuf → ∃ r rest i, s.port = r :: rest ∧ fetchDecode s.params r = .ok i ∧
      (i = .blockReset ∨ ∃ chunk, i = .streamPush chunk)) ∧
    (t.strictVarint ≠ s.strictVarint → ∃ r rest i, s.port = r :: rest ∧ fetchDecode s.params r = .ok i ∧
      (i = .blockReset ∨ ∃ v, i = .cfgWr v))

/-- R254: STRICT_VARINT has no effect on STREAM.PUSH. -/
def Obligations.StreamIgnoresStrictMode : Prop :=
  ∀ (s : State) (chunk : Bytes) (b : Bool), ∃ t,
    exec (.streamPush chunk) s = .next t ∧
    exec (.streamPush chunk) { s with strictVarint := b } = .next { t with strictVarint := b }

/-! ## The step and the command interface -/

/-- R49, R80: when the oldest waiting request decodes to an instruction, a step takes it from the port and is that
instruction's meaning. (The port is the model's form of the command interface, notes/assumptions/1.md.) -/
def Obligations.StepRunsDecodedInstruction : Prop :=
  ∀ (s : State) (r : Request) (rest : List Request) (raw : Raw) (i : Instr), s.port = r :: rest →
    fetch s.params r = .ok raw → decode raw = .ok i → step s = exec i { s with port := rest }

/-- R277, R49, R280: a step with a request waiting takes exactly it and gives exactly one response; with none waiting it
changes nothing. (R277 speaks of commands; the port and its idle step, notes/assumptions/1.md, and the dispatch requests,
notes/assumptions/2.md, are the model's form.) -/
def Obligations.EveryRequestGetsOneResponse : Prop :=
  ∀ s : State,
    (s.port = [] → step s = .next s) ∧
    ∀ (r : Request) (rest : List Request), s.port = r :: rest →
      ∃ t x, step s = .next t ∧ t.port = rest ∧ t.responses = s.responses ++ [x] ∧ Response.code x ≤ 10

/-- R285, R80: a reserved command code is refused with BAD_COMMAND and changes no state. -/
def Obligations.ReservedCodesRefused : Prop :=
  ∀ (s : State) (code : Byte) (ops : List Operand) (rest : List Request), s.port = .cmd code ops :: rest →
    code.toNat ∉ [0x01, 0x02, 0x03, 0x04, 0x05, 0x06, 0x07, 0x08, 0x09, 0x0A, 0x0B, 0x0C, 0x0D, 0x10, 0x11, 0x20, 0x21,
      0x22, 0x23, 0x30, 0x31, 0x32, 0x40, 0x41, 0x42, 0x43, 0x4F] →
    step s = .next { s with port := rest, responses := s.responses ++ [.err (.badCommand code)] }

/-- R285: numbers outside the type of the operand are refused with BAD_COMMAND: an I64, a U64, a U24, a byte, any of the
five U16 of PKT.ENC, the U64 of NUM.WR. So is a cursor beyond its input (by inference from R12: notes/assumptions/6.md),
and so are operands of the wrong kind or number (by inference: notes/assumptions/13.md). -/
def Obligations.OutOfTypeOperandsRefused : Prop :=
  ∀ (s : State) (rest : List Request) (code : Byte) (ops : List Operand), s.port = .cmd code ops :: rest →
    (code ∈ [0x01#8, 0x03#8] ∧ (∃ n : Int, ops = [.int n] ∧ ¬ (-(2 ^ 63) ≤ n ∧ n < 2 ^ 63))) ∨
    (∃ (n : Int) (w : Nat), (code, w) ∈ [(0x02#8, 64), (0x11#8, 24), (0x41#8, 8)] ∧ ops = [.int n] ∧
      ¬ (0 ≤ n ∧ n < 2 ^ w)) ∨
    (code = 0x05#8 ∧ ∃ w n : Int, ops = [.int w, .int n] ∧ ¬ (0 ≤ n ∧ n < 2 ^ 64)) ∨
    (code = 0x30#8 ∧ ∃ (ns : List Int) (b : Bytes), ops = ns.map Operand.int ++ [.bytes b] ∧ ns.length = 5 ∧
      ∃ n ∈ ns, ¬ (0 ≤ n ∧ n < 2 ^ 16)) ∨
    (code ∈ [0x04#8, 0x06#8, 0x07#8, 0x08#8, 0x09#8, 0x0B#8, 0x0D#8, 0x21#8, 0x31#8, 0x32#8] ∧
      ∃ (inp : Bytes) (n : Int), ops = [.bytes inp, .int n] ∧ ¬ (0 ≤ n ∧ n ≤ inp.length)) ∨
    (∃ kinds, (code, kinds) ∈ commandShapes ∧ ops.map Operand.kind ≠ kinds) →
    step s = .next { s with port := rest, responses := s.responses ++ [.err (.badCommand code)] }

/-- R34, R50, R283: a step of one instance changes no other. (A list of instances is the model's form,
notes/assumptions/12.md.) -/
def Obligations.InstancesAreIndependent : Prop :=
  ∀ (sys sys' : System) (n m : Nat), System.stepAt sys n = some sys' →
    (m ≠ n → sys'[m]? = sys[m]?) ∧
    ∀ s, sys[n]? = some s → ∃ t, step s = .next t ∧ sys'[n]? = some t

/-- R80, R65, R66, R70: decode undoes encode on every well-formed instruction. -/
def Obligations.DecodeEncode : Prop := ∀ i : Instr, i.wellFormed = true → decode (encode i) = .ok i

/-- R80, R285: a command that decodes is exactly the encoding of its instruction, so no two commands are one instruction.
(That a command with a missing or an extra operand does not decode, so that no operand is dropped, is the model's
inference, notes/assumptions/13.md; that a cursor beyond its input does not, notes/assumptions/6.md.) -/
def Obligations.CommandsEncodeBack : Prop :=
  ∀ (code : Byte) (ops : List Operand) (i : Instr), decode (.cmd code ops) = .ok i →
    encode i = .cmd code ops ∧ i.wellFormed = true

/-- R80, R66, R70: a few table words decode to their rows. (How a table word becomes an instruction is the model's choice,
notes/assumptions/9.md.) -/
def Obligations.TableWordsDecode : Prop :=
  decodeTableWord 8 0x03 = some (.varintWr 0) ∧ decodeTableWord 8 0x11 = some (.tagUnpack 0) ∧
  decodeTableWord 8 0x40 = some (.streamPush []) ∧ decodeTableWord 8 0x4F = some .blockReset ∧
  decodeTableWord 8 0x50 = none ∧ decodeTableWord 32 0x0B = none
end

