-- ==== Sys2Proof/Laws/Codec.lean ====
section
/-! SUPPORT. What the operand readers of the decoder accept, and that they read back what the encoder writes. -/

namespace Sys2Proof

theorem takeCursor_cursorOps {inp : Bytes} {pos : Nat} (h : cursorOk inp pos = true) (mk) : takeCursor mk (cursorOps inp pos) = some (mk inp pos) := by
  simp only [cursorOk, decide_eq_true_eq] at h
  simp only [cursorOps, takeCursor]
  rw [if_pos ⟨by omega, by omega⟩]; rfl
theorem asI64_toInt (v : I64) : Operand.asI64 (.int v.toInt) = some v := by
  have h1 := BitVec.le_toInt v
  have h2 := BitVec.toInt_lt (x := v)
  simp only [Operand.asI64]
  rw [if_pos (by constructor <;> simpa using (by assumption)), BitVec.ofInt_toInt]
theorem asUnsigned_toNat {w} (v : BitVec w) : Operand.asUnsigned w (.int v.toNat) = some v := by
  have := v.isLt
  simp only [Operand.asUnsigned]
  rw [if_pos ⟨by omega, by exact_mod_cast this⟩]; simp

theorem takeNum_eq {a o b} (h : Operand.asUnsigned 64 o = some b) : takeNum [.int a, o] = some (.numWr a b) := by
  rw [takeNum, h]; rfl
theorem takePacket_eq {a b c d e f o1 o2 o3 o4 o5} (h1 : Operand.asUnsigned 16 o1 = some a) (h2 : Operand.asUnsigned 16 o2 = some b) (h3 : Operand.asUnsigned 16 o3 = some c) (h4 : Operand.asUnsigned 16 o4 = some d) (h5 : Operand.asUnsigned 16 o5 = some e) : takePacket [o1, o2, o3, o4, o5, .bytes f] = some (.pktEnc a b c d e f) := by
  rw [takePacket, h1, h2, h3, h4, h5]; rfl
theorem takeOne_eq_some {α} {ty : Operand → Option α} {mk : α → Instr} {ops i} (h : takeOne ty mk ops = some i) : ∃ o a, ops = [o] ∧ ty o = some a ∧ i = mk a := by
  unfold takeOne at h
  split at h
  · rename_i a
    cases ht : ty a with
    | none => rw [ht] at h; cases h
    | some x => rw [ht] at h; cases h; exact ⟨_, _, rfl, ht, rfl⟩
  · cases h
theorem takeNone_eq_some {j ops i} (h : takeNone j ops = some i) : ops = [] ∧ i = j := by
  unfold takeNone at h; split at h
  · cases h; exact ⟨rfl, rfl⟩
  · cases h
theorem asI64_eq_some {o v} (h : Operand.asI64 o = some v) : o = .int v.toInt := by
  unfold Operand.asI64 at h; split at h
  · split at h
    · rename_i n hn; cases h
      rw [BitVec.toInt_ofInt_eq_self (by omega) (by simpa using hn.1) (by simpa using hn.2)]
    · cases h
  · cases h
theorem asUnsigned_eq_some {w o} {v : BitVec w} (h : Operand.asUnsigned w o = some v) : o = .int v.toNat := by
  unfold Operand.asUnsigned at h; split at h
  · split at h
    · rename_i n hn; cases h
      congr 1
      rw [BitVec.toNat_ofInt, Int.toNat_of_nonneg (Int.emod_nonneg _ (by positivity)), Int.emod_eq_of_lt hn.1 (by exact_mod_cast hn.2)]
    · cases h
  · cases h
theorem asBytes_eq_some {o v} (h : Operand.asBytes o = some v) : o = .bytes v := by
  unfold Operand.asBytes at h; split at h <;> cases h; rfl
theorem asInt_eq_some {o v} (h : Operand.asInt o = some v) : o = .int v := by
  unfold Operand.asInt at h; split at h <;> cases h; rfl
theorem asTdf_eq_some {o v} (h : Operand.asTdf o = some v) : o = .tdf v := by
  unfold Operand.asTdf at h; split at h <;> cases h; rfl
theorem asTdfs_eq_some {o v} (h : Operand.asTdfs o = some v) : o = .tdfs v := by
  unfold Operand.asTdfs at h; split at h <;> cases h; rfl
theorem takeCursor_eq_some {mk : Bytes → Nat → Instr} {ops i} (h : takeCursor mk ops = some i) : ∃ inp pos, ops = cursorOps inp pos ∧ cursorOk inp pos = true ∧ i = mk inp pos := by
  unfold takeCursor at h; split at h
  · split at h
    · rename_i inp n hn; cases h
      refine ⟨inp, n.toNat, ?_, ?_, rfl⟩
      · simp only [cursorOps]; rw [Int.toNat_of_nonneg hn.1]
      · simp only [cursorOk, decide_eq_true_eq]; omega
    · cases h
  · cases h

end Sys2Proof
end

