-- ==== Sys2Proof/Laws/State.lean ====
section
/-! SUPPORT. One lemma per field per update of State, each true by rfl. -/

namespace Sys2Proof.Machine

/-! ### respond -/

@[simp] theorem State.respond_rbuf (s : State) (r : Response) : (s.respond r).rbuf = s.rbuf := rfl
@[simp] theorem State.respond_rfault (s : State) (r : Response) : (s.respond r).rfault = s.rfault := rfl
@[simp] theorem State.respond_strictVarint (s : State) (r : Response) : (s.respond r).strictVarint = s.strictVarint := rfl
@[simp] theorem State.respond_params (s : State) (r : Response) : (s.respond r).params = s.params := rfl
@[simp] theorem State.respond_port (s : State) (r : Response) : (s.respond r).port = s.port := rfl
@[simp] theorem State.respond_responses (s : State) (r : Response) : (s.respond r).responses = s.responses ++ [r] := rfl

/-! ### raise -/

@[simp] theorem State.raise_rbuf (s : State) (e : Error) : (s.raise e).rbuf = s.rbuf := rfl
@[simp] theorem State.raise_rfault (s : State) (e : Error) : (s.raise e).rfault = s.rfault := rfl
@[simp] theorem State.raise_strictVarint (s : State) (e : Error) : (s.raise e).strictVarint = s.strictVarint := rfl
@[simp] theorem State.raise_params (s : State) (e : Error) : (s.raise e).params = s.params := rfl
@[simp] theorem State.raise_port (s : State) (e : Error) : (s.raise e).port = s.port := rfl
@[simp] theorem State.raise_responses (s : State) (e : Error) : (s.raise e).responses = s.responses ++ [.err e] := rfl

/-! ### reply -/

@[simp] theorem State.reply_rbuf (s : State) (r : Result) : (s.reply r).rbuf = s.rbuf := rfl
@[simp] theorem State.reply_rfault (s : State) (r : Result) : (s.reply r).rfault = s.rfault := rfl
@[simp] theorem State.reply_strictVarint (s : State) (r : Result) : (s.reply r).strictVarint = s.strictVarint := rfl
@[simp] theorem State.reply_params (s : State) (r : Result) : (s.reply r).params = s.params := rfl
@[simp] theorem State.reply_port (s : State) (r : Result) : (s.reply r).port = s.port := rfl
@[simp] theorem State.reply_responses (s : State) (r : Result) : (s.reply r).responses = s.responses ++ [.ok r] := rfl

/-! ### blockReset -/

@[simp] theorem State.blockReset_rbuf (s : State) : (s.blockReset).rbuf = [] := rfl
@[simp] theorem State.blockReset_rfault (s : State) : (s.blockReset).rfault = false := rfl
@[simp] theorem State.blockReset_strictVarint (s : State) : (s.blockReset).strictVarint = false := rfl
@[simp] theorem State.blockReset_params (s : State) : (s.blockReset).params = s.params := rfl
@[simp] theorem State.blockReset_port (s : State) : (s.blockReset).port = s.port := rfl
@[simp] theorem State.blockReset_responses (s : State) : (s.blockReset).responses = s.responses := rfl

/-! ### issue -/

@[simp] theorem State.issue_rbuf (s : State) (r : Request) : (s.issue r).rbuf = s.rbuf := rfl
@[simp] theorem State.issue_rfault (s : State) (r : Request) : (s.issue r).rfault = s.rfault := rfl
@[simp] theorem State.issue_strictVarint (s : State) (r : Request) : (s.issue r).strictVarint = s.strictVarint := rfl
@[simp] theorem State.issue_params (s : State) (r : Request) : (s.issue r).params = s.params := rfl
@[simp] theorem State.issue_port (s : State) (r : Request) : (s.issue r).port = s.port ++ [r] := rfl
@[simp] theorem State.issue_responses (s : State) (r : Request) : (s.issue r).responses = s.responses := rfl

/-! ### take -/

@[simp] theorem State.take_rbuf (s : State) : (s.take).rbuf = s.rbuf := rfl
@[simp] theorem State.take_rfault (s : State) : (s.take).rfault = s.rfault := rfl
@[simp] theorem State.take_strictVarint (s : State) : (s.take).strictVarint = s.strictVarint := rfl
@[simp] theorem State.take_params (s : State) : (s.take).params = s.params := rfl
@[simp] theorem State.take_port (s : State) : (s.take).port = s.port.tail := rfl
@[simp] theorem State.take_responses (s : State) : (s.take).responses = s.responses := rfl

/-! ### withTableWord -/

@[simp] theorem State.withTableWord_rbuf (s : State) (nbits w : Nat) : (s.withTableWord nbits w).rbuf = s.rbuf := rfl
@[simp] theorem State.withTableWord_rfault (s : State) (nbits w : Nat) : (s.withTableWord nbits w).rfault = s.rfault := rfl
@[simp] theorem State.withTableWord_strictVarint (s : State) (nbits w : Nat) : (s.withTableWord nbits w).strictVarint = s.strictVarint := rfl
@[simp] theorem State.withTableWord_params (s : State) (nbits w : Nat) : (s.withTableWord nbits w).params = s.params := rfl
@[simp] theorem State.withTableWord_port (s : State) (nbits w : Nat) : (s.withTableWord nbits w).port = (tableRequest nbits w).getD (.cmd (BitVec.ofNat 8 w) []) :: s.port := rfl
@[simp] theorem State.withTableWord_responses (s : State) (nbits w : Nat) : (s.withTableWord nbits w).responses = s.responses := rfl

/-! ### writeReg -/

@[simp] theorem State.writeReg_cfg_rbuf (s : State) (v : Byte) : (s.writeReg .cfg v).rbuf = s.rbuf := rfl
@[simp] theorem State.writeReg_cfg_rfault (s : State) (v : Byte) : (s.writeReg .cfg v).rfault = s.rfault := rfl
@[simp] theorem State.writeReg_cfg_strictVarint (s : State) (v : Byte) : (s.writeReg .cfg v).strictVarint = strictBit v := rfl
@[simp] theorem State.writeReg_cfg_params (s : State) (v : Byte) : (s.writeReg .cfg v).params = s.params := rfl
@[simp] theorem State.writeReg_cfg_port (s : State) (v : Byte) : (s.writeReg .cfg v).port = s.port := rfl
@[simp] theorem State.writeReg_cfg_responses (s : State) (v : Byte) : (s.writeReg .cfg v).responses = s.responses := rfl
@[simp] theorem State.writeReg_status (s : State) (v : Byte) : s.writeReg .status v = s := rfl

/-! ### create -/

@[simp] theorem State.create_rbuf (p : Params) : (State.create p).rbuf = [] := rfl
@[simp] theorem State.create_rfault (p : Params) : (State.create p).rfault = false := rfl
@[simp] theorem State.create_strictVarint (p : Params) : (State.create p).strictVarint = false := rfl
@[simp] theorem State.create_params (p : Params) : (State.create p).params = p := rfl
@[simp] theorem State.create_port (p : Params) : (State.create p).port = [] := rfl
@[simp] theorem State.create_responses (p : Params) : (State.create p).responses = [] := rfl

@[simp] theorem State.decEnv_strict (s : State) (b : Bytes) : (s.decEnv b).strict = s.strictVarint := rfl
@[simp] theorem State.decEnv_params (s : State) (b : Bytes) : (s.decEnv b).params = s.params := rfl
@[simp] theorem State.decEnv_inp (s : State) (b : Bytes) : (s.decEnv b).inp = b := rfl

/-! ### readReg -/

@[simp] theorem State.readReg_cfg (s : State) : s.readReg .cfg = cfgByte s := rfl
@[simp] theorem State.readReg_status (s : State) : s.readReg .status = statusByte s := rfl

end Sys2Proof.Machine
end

