-- ==== Sys2Proof/Laws/Ops.lean ====
section
/-! SUPPORT. What each shared operation over the state can do: giving a response, the depth and count checks, fetching. -/

namespace Sys2Proof.Machine

@[simp] theorem State.finish_ok (s : State) (r : Result) : s.finish (.ok r) = s.reply r := rfl
@[simp] theorem State.finish_error (s : State) (e : Error) : s.finish (.error e) = s.raise e := rfl

@[simp] theorem responseOf_ok (r : Result) : responseOf (.ok r) = .ok r := rfl
@[simp] theorem responseOf_error (e : Error) : responseOf (.error e) = .err e := rfl

theorem State.finish_eq_respond (s : State) (o : Except Error Result) : s.finish o = s.respond (responseOf o) := by
  cases o <;> rfl

/-- `done` appends one response and changes nothing else. -/
theorem done_eq (s : State) (o : Except Error Result) :
    done s o = .next { s with responses := s.responses ++ [responseOf o] } := by
  cases o <;> rfl

theorem append_one_injective {α : Type} (l : List α) (a b : α) : l ++ [a] = l ++ [b] ↔ a = b := by simp

/-- A command that ends in `done` gives exactly its response. -/
theorem gives_of_done {i : Instr} {s : State} {o : Except Error Result} (h : exec i s = done s o) (r : Response) :
    Gives i s r ↔ r = responseOf o := by
  rw [Gives, h, done_eq]
  constructor
  · intro hr
    have := (Host.Outcome.next.inj hr)
    simp only [State.mk.injEq, append_one_injective, true_and] at this
    exact this.symm
  · rintro rfl; rfl

/-- An instruction gives at most one response. -/
theorem Gives.unique {i : Instr} {s : State} {r r' : Response} (h : Gives i s r) (h' : Gives i s r') : r = r' := by
  rw [Gives] at h h'
  have := Host.Outcome.next.inj (h.symm.trans h')
  simpa only [State.mk.injEq, append_one_injective, true_and] using this

theorem Bound.exceededBy_iff (b : Bound) (n : Nat) : Bound.exceededBy b n = true ↔ ¬ Bound.holds b n := by
  cases b <;> simp [Bound.exceededBy, Bound.holds]

theorem checkDepth_ok {p : Params} {d off : Nat} (h : Bound.holds p.maxDepth d) : checkDepth p d off = .ok () := by
  rw [checkDepth, if_neg]
  rw [Bound.exceededBy_iff]; simpa using h

theorem checkDepth_error {p : Params} {d off : Nat} (h : ¬ Bound.holds p.maxDepth d) :
    checkDepth p d off = .error (.resource (.depth off)) := by
  rw [checkDepth, if_pos]
  rw [Bound.exceededBy_iff]; exact h

/-- The depth check passes exactly within MAX_DEPTH. -/
theorem checkDepth_eq_ok_iff {p : Params} {d off : Nat} {u : Unit} :
    checkDepth p d off = .ok u ↔ Bound.holds p.maxDepth d := by
  by_cases h : Bound.holds p.maxDepth d
  · simp [checkDepth_ok h, h]
  · simp [checkDepth_error h, h]

theorem checkCount_ok {p : Params} {n off : Nat} (h : Bound.holds p.maxElems n) : checkCount p n off = .ok () := by
  rw [checkCount, if_neg]
  rw [Bound.exceededBy_iff]; simpa using h

theorem checkCount_error {p : Params} {n off : Nat} (h : ¬ Bound.holds p.maxElems n) :
    checkCount p n off = .error (.resource (.count off)) := by
  rw [checkCount, if_pos]
  rw [Bound.exceededBy_iff]; exact h

/-- The count check passes exactly within MAX_ELEMS. -/
theorem checkCount_eq_ok_iff {p : Params} {n off : Nat} {u : Unit} :
    checkCount p n off = .ok u ↔ Bound.holds p.maxElems n := by
  by_cases h : Bound.holds p.maxElems n
  · simp [checkCount_ok h, h]
  · simp [checkCount_error h, h]

/-- Sequencing of two parts of an operation, when it answers `ok`. -/
theorem bind_eq_ok {α β : Type} {x : Except Error α} {f : α → Except Error β} {b : β} :
    (x >>= f) = .ok b ↔ ∃ a, x = .ok a ∧ f a = .ok b := by
  cases x with
  | ok a => simp [bind, Except.bind]
  | error e => simp [bind, Except.bind]

/-- Sequencing of two parts of an operation, when it raises. -/
theorem bind_eq_error {α β : Type} {x : Except Error α} {f : α → Except Error β} {e : Error} :
    (x >>= f) = .error e ↔ x = .error e ∨ ∃ a, x = .ok a ∧ f a = .error e := by
  cases x with
  | ok a => simp [bind, Except.bind]
  | error e' => simp [bind, Except.bind]

@[simp] theorem bind_ok {α β : Type} (a : α) (f : α → Except Error β) : (Except.ok a >>= f) = f a := rfl
@[simp] theorem bind_error {α β : Type} (e : Error) (f : α → Except Error β) :
    ((Except.error e : Except Error α) >>= f) = .error e := rfl
@[simp] theorem pure_eq_ok {α : Type} (a : α) : (pure a : Except Error α) = .ok a := rfl

end Sys2Proof.Machine
end

