-- ==== Sys2Proof/Laws/Cursor.lean ====
section
/-! SUPPORT. What each read of 40_byte_cursor.md can do to the cursor: it goes forward by what it consumed and never
past the end of the input (10_state.md rule R26). -/

namespace Sys2Proof.Machine

/-- The read at `pos` goes forward by at least `k` bytes and stays within the input. -/
def Advances {α : Type} (inp : Bytes) (pos k : Nat) (r : Except Error (α × Nat)) : Prop :=
  ∀ a p, r = .ok (a, p) → pos + k ≤ p ∧ (pos ≤ inp.length → p ≤ inp.length)

theorem Advances.weaken {α : Type} {inp : Bytes} {pos k j : Nat} {r : Except Error (α × Nat)}
    (h : Advances inp pos k r) (hj : j ≤ k) : Advances inp pos j r := by
  intro a p e
  have := h a p e
  exact ⟨by omega, this.2⟩

@[simp] theorem span_length (inp : Bytes) (pos n : Nat) : (span inp pos n).length = min n (inp.length - pos) := by
  simp [span]

/-- A fixed-width read answers exactly when its bytes are there. -/
theorem readFixed_eq_ok {inp : Bytes} {pos n x p : Nat} :
    readFixed inp pos n = .ok (x, p) ↔ n ≤ inp.length - pos ∧ x = beValue (span inp pos n) ∧ p = pos + n := by
  unfold readFixed
  split
  · constructor
    · intro h; cases h
    · intro h; omega
  · constructor
    · intro h
      simp only [Except.ok.injEq, Prod.mk.injEq] at h
      exact ⟨by omega, h.1.symm, h.2.symm⟩
    · rintro ⟨_, rfl, rfl⟩; rfl

/-- A fixed-width read raises TRUNCATED at its start, and nothing else. -/
theorem readFixed_eq_error {inp : Bytes} {pos n : Nat} {e : Error} :
    readFixed inp pos n = .error e ↔ inp.length - pos < n ∧ e = .truncated pos := by
  unfold readFixed
  split
  · simp_all [eq_comm]
  · constructor
    · intro h; cases h
    · intro h; omega

theorem readU8_advances (inp : Bytes) (pos : Nat) : Advances inp pos 1 (readU8 inp pos) := by
  intro a p h
  obtain ⟨⟨x, q⟩, hx, hq⟩ := bind_eq_ok.1 h
  have := readFixed_eq_ok.1 hx
  simp only [pure_eq_ok, Except.ok.injEq, Prod.mk.injEq] at hq
  omega

theorem readU16_advances (inp : Bytes) (pos : Nat) : Advances inp pos 2 (readU16 inp pos) := by
  intro a p h
  obtain ⟨⟨x, q⟩, hx, hq⟩ := bind_eq_ok.1 h
  have := readFixed_eq_ok.1 hx
  simp only [pure_eq_ok, Except.ok.injEq, Prod.mk.injEq] at hq
  omega

theorem readU32_advances (inp : Bytes) (pos : Nat) : Advances inp pos 4 (readU32 inp pos) := by
  intro a p h
  obtain ⟨⟨x, q⟩, hx, hq⟩ := bind_eq_ok.1 h
  have := readFixed_eq_ok.1 hx
  simp only [pure_eq_ok, Except.ok.injEq, Prod.mk.injEq] at hq
  omega

/-- The header word is read exactly when four bytes are there. -/
theorem readU32_eq_ok {inp : Bytes} {pos p : Nat} {w : U32} (h : readU32 inp pos = .ok (w, p)) :
    pos + 4 ≤ inp.length ∧ p = pos + 4 := by
  obtain ⟨⟨x, q⟩, hx, hq⟩ := bind_eq_ok.1 h
  have := readFixed_eq_ok.1 hx
  simp only [pure_eq_ok, Except.ok.injEq, Prod.mk.injEq] at hq
  omega

theorem readF64_advances (inp : Bytes) (pos : Nat) : Advances inp pos 8 (readF64 inp pos) := by
  intro a p h
  obtain ⟨⟨x, q⟩, hx, hq⟩ := bind_eq_ok.1 h
  have := readFixed_eq_ok.1 hx
  simp only [pure_eq_ok, Except.ok.injEq, Prod.mk.injEq] at hq
  omega

/-- The varint loop goes forward and stays within the input. -/
theorem varintLoop_pos (inp : Bytes) : ∀ (n pos : Nat) (acc : U64),
    pos ≤ (varintLoop inp n pos acc).2.2 ∧ (pos ≤ inp.length → (varintLoop inp n pos acc).2.2 ≤ inp.length) := by
  intro n
  induction n with
  | zero => intro pos acc; simp [varintLoop]
  | succ n ih =>
    intro pos acc
    rw [varintLoop]
    split
    · simp
    · rename_i b hb
      have hlt : pos < inp.length := (List.getElem?_eq_some_iff.1 hb).1
      dsimp only
      split
      · simp only; omega
      · split
        · have := ih (pos + 1) (acc ||| ((b &&& 0x7F).setWidth 64 <<< (7 * (9 - n))))
          omega
        · simp only; omega

theorem readVarint_advances (strict : Bool) (inp : Bytes) (pos : Nat) {u : U64} {v : VStat} {p : Nat}
    (h : readVarint strict inp pos = .ok (u, v, p)) : pos ≤ p ∧ (pos ≤ inp.length → p ≤ inp.length) := by
  have hl := varintLoop_pos inp 10 pos 0
  unfold readVarint at h
  dsimp only at h
  split at h
  · split at h
    · simp only [Except.ok.injEq] at h; rw [h] at hl; exact hl
    · cases h
    · cases h
  · simp only [Except.ok.injEq] at h; rw [h] at hl; exact hl

theorem readInt_advances (strict : Bool) (inp : Bytes) (pos : Nat) : Advances inp pos 0 (readInt strict inp pos) := by
  intro a p h
  obtain ⟨⟨u, v, q⟩, hx, hq⟩ := bind_eq_ok.1 h
  have := readVarint_advances strict inp pos hx
  simp only [pure_eq_ok, Except.ok.injEq, Prod.mk.injEq] at hq
  omega

theorem readLen_advances (strict : Bool) (inp : Bytes) (pos : Nat) : Advances inp pos 0 (readLen strict inp pos) := by
  intro a p h
  obtain ⟨⟨u, q⟩, hx, hq⟩ := bind_eq_ok.1 h
  have := readInt_advances strict inp pos _ _ hx
  dsimp only at hq
  split at hq
  · cases hq
  · simp only [pure_eq_ok, Except.ok.injEq, Prod.mk.injEq] at hq
    omega

theorem readBlob_advances (strict : Bool) (inp : Bytes) (pos : Nat) : Advances inp pos 0 (readBlob strict inp pos) := by
  intro a p h
  obtain ⟨⟨n, q⟩, hx, hq⟩ := bind_eq_ok.1 h
  have := readLen_advances strict inp pos _ _ hx
  dsimp only at hq
  split at hq
  · cases hq
  · simp only [pure_eq_ok, Except.ok.injEq, Prod.mk.injEq] at hq
    omega

theorem readString_advances (strict : Bool) (inp : Bytes) (pos : Nat) :
    Advances inp pos 0 (readString strict inp pos) := by
  intro a p h
  obtain ⟨⟨n, q⟩, hx, hq⟩ := bind_eq_ok.1 h
  have := readBlob_advances strict inp pos _ _ hx
  simp only [pure_eq_ok, Except.ok.injEq, Prod.mk.injEq] at hq
  omega

end Sys2Proof.Machine
end

