-- ==== Sys2Proof/Laws/Fixed.lean ====
section
/-! SUPPORT. What the fixed-width operations compute (00_scope.md rule R11): the number of big-endian bytes and its
inverse. -/

namespace Sys2Proof.Machine

/-- The fold of `beValue` from any start. -/
theorem foldl_be (b : Bytes) : ∀ acc, b.foldl (fun acc x => acc * 256 + x.toNat) acc =
    acc * 256 ^ b.length + b.foldl (fun acc x => acc * 256 + x.toNat) 0 := by
  induction b with
  | nil => intro acc; simp
  | cons x b ih =>
    intro acc
    simp only [List.foldl_cons, List.length_cons]
    rw [ih, ih (0 * 256 + x.toNat)]
    ring

@[simp] theorem beValue_nil : beValue [] = 0 := rfl

theorem beValue_cons (x : Byte) (b : Bytes) : beValue (x :: b) = x.toNat * 256 ^ b.length + beValue b := by
  simp only [beValue, List.foldl_cons]
  rw [foldl_be]
  ring

theorem beValue_append (a b : Bytes) : beValue (a ++ b) = beValue a * 256 ^ b.length + beValue b := by
  simp only [beValue, List.foldl_append]
  rw [foldl_be]

/-- R11: `beValue` is the number the bytes stand for. -/
theorem beValue_eq_bigEndian (b : Bytes) : beValue b = bigEndian b := by
  induction b with
  | nil => rfl
  | cons x b ih =>
    rw [beValue_cons, ih]
    simp only [bigEndian, List.reverse_cons, List.map_append, List.map_cons, List.map_nil, Nat.ofDigits_append,
      List.length_map, List.length_reverse, Nat.ofDigits_singleton]
    ring

theorem beValue_lt (b : Bytes) : beValue b < 256 ^ b.length := by
  induction b with
  | nil => simp
  | cons x b ih =>
    rw [beValue_cons, List.length_cons, pow_succ]
    have := x.isLt
    nlinarith

@[simp] theorem beBytes_length (n v : Nat) : (beBytes n v).length = n := by
  induction n with
  | zero => rfl
  | succ n ih => simp [beBytes, ih]

/-- R11: the n big-endian bytes of `v` stand for `v mod 2^(8n)`. -/
theorem beValue_beBytes (n v : Nat) : beValue (beBytes n v) = v % 256 ^ n := by
  induction n with
  | zero => simp [beBytes, Nat.mod_one]
  | succ n ih =>
    rw [beBytes, beValue_cons, ih, beBytes_length, BitVec.toNat_ofNat, pow_succ 256, Nat.mod_mul (x := v),
      Nat.add_comm, Nat.mul_comm]

/-- Bytes are the big-endian bytes of their number. -/
theorem beBytes_beValue (b : Bytes) : beBytes b.length (beValue b) = b := by
  induction b with
  | nil => rfl
  | cons x b ih =>
    have hb := beValue_lt b
    rw [List.length_cons, beBytes, beValue_cons]
    have h1 : (x.toNat * 256 ^ b.length + beValue b) / 256 ^ b.length = x.toNat := by
      rw [Nat.add_comm, Nat.add_mul_div_right _ _ (by positivity), Nat.div_eq_of_lt hb]; simp
    have h2 : ∀ n v w, beBytes n (w * 256 ^ n + v) = beBytes n v := by
      intro n
      induction n with
      | zero => intros; rfl
      | succ n ih =>
        intro v w
        rw [beBytes, beBytes]
        congr 1
        · apply BitVec.eq_of_toNat_eq
          simp only [BitVec.toNat_ofNat]
          rw [show w * 256 ^ (n + 1) + v = v + w * 256 * 256 ^ n by ring, Nat.add_mul_div_right _ _ (by positivity)]
          omega
        · rw [show w * 256 ^ (n + 1) + v = (w * 256) * 256 ^ n + v by ring, ih]
    rw [h1, h2, ih]
    simp

theorem span_append_left (a b : Bytes) : span (a ++ b) 0 a.length = a := by simp [span]

theorem span_append_at (a b c : Bytes) : span (a ++ (b ++ c)) a.length b.length = b := by simp [span]

end Sys2Proof.Machine
end

