-- ==== Sys2Proof/Laws/Writers.lean ====
section
/-! SUPPORT. How the parts of an encode combine (42_tdf_value.md rules R161, R165, R168): a writer that never raises
writes the same bytes wherever they stand; one that goes too deep raises RESOURCE (depth). -/

namespace Sys2Proof.Machine

/-- The writer appends `b`, however many bytes stand before. -/
def Writer.Writes (w : Writer) (b : Bytes) : Prop := ∀ off, w off = .ok b

/-- The writer raises RESOURCE for a depth, however many bytes stand before. -/
def Writer.TooDeep (w : Writer) : Prop := ∀ off, ∃ a, w off = .error (.resource (.depth a))

/-- The writer writes when `P` holds and is too deep when it does not. -/
def Writer.Settled (w : Writer) (P : Prop) : Prop := (P → ∃ b, Writer.Writes w b) ∧ (¬ P → Writer.TooDeep w)

theorem emit_writes (b : Bytes) : Writer.Writes (emit b) b := fun _ => rfl

theorem Writer.Writes.then {f s : Writer} {a b : Bytes} (h : Writer.Writes f a) (h' : Writer.Writes s b) :
    Writer.Writes (Writer.then f s) (a ++ b) := by
  intro off
  rw [Writer.then, h off, bind_ok, h' _, bind_ok]
  rfl

theorem Writer.Writes.unique {w : Writer} {a b : Bytes} (h : Writer.Writes w a) (h' : Writer.Writes w b) : a = b :=
  Except.ok.inj ((h 0).symm.trans (h' 0))

theorem writeAll_writes {ws : List Writer} {bs : List Bytes} (h : List.Forall₂ Writer.Writes ws bs) :
    Writer.Writes (writeAll ws) bs.flatten := by
  induction h with
  | nil => exact emit_writes []
  | cons h _ ih => exact h.then ih

theorem guarded_writes {p : Params} {d : Nat} {w : Writer} {b : Bytes} (hd : Bound.holds p.maxDepth d)
    (h : Writer.Writes w b) : Writer.Writes (guarded p d w) b := by
  intro off
  rw [guarded, checkDepth_ok hd, bind_ok, h off]

theorem headed_writes {p : Params} {d : Nat} {tag : U24} {ty : TdfType} {w : Writer} {b : Bytes}
    (hd : Bound.holds p.maxDepth d) (h : Writer.Writes w b) :
    Writer.Writes (headed p d tag ty w) (beBytes 4 (headerWord tag ty).toNat ++ b) :=
  guarded_writes hd ((emit_writes _).then h)

theorem structBody_writes {p : Params} {d : Nat} {start2 : Bool} {ws : List Writer} {bs : List Bytes}
    (hd : Bound.holds p.maxDepth d) (h : List.Forall₂ Writer.Writes ws bs) :
    Writer.Writes (structBody p d start2 ws)
      ((if start2 then [startMarker] else []) ++ (bs.flatten ++ [terminator])) :=
  guarded_writes hd ((emit_writes _).then ((writeAll_writes h).then (emit_writes _)))

theorem emit_settled (b : Bytes) : Writer.Settled (emit b) True := ⟨fun _ => ⟨b, emit_writes b⟩, fun h => absurd trivial h⟩

theorem Writer.Settled.congr {w : Writer} {P Q : Prop} (h : Writer.Settled w P) (hq : Q ↔ P) : Writer.Settled w Q :=
  ⟨fun q => h.1 (hq.1 q), fun q => h.2 (fun p => q (hq.2 p))⟩

theorem Writer.Settled.then {f s : Writer} {P Q : Prop} (h : Writer.Settled f P) (h' : Writer.Settled s Q) :
    Writer.Settled (Writer.then f s) (P ∧ Q) := by
  constructor
  · rintro ⟨hp, hq⟩
    obtain ⟨a, ha⟩ := h.1 hp
    obtain ⟨b, hb⟩ := h'.1 hq
    exact ⟨a ++ b, ha.then hb⟩
  · intro hn off
    by_cases hp : P
    · obtain ⟨a, ha⟩ := h.1 hp
      obtain ⟨at', hb⟩ := h'.2 (fun hq => hn ⟨hp, hq⟩) (off + a.length)
      exact ⟨at', by rw [Writer.then, ha off, bind_ok, hb, bind_error]⟩
    · obtain ⟨at', ha⟩ := h.2 hp off
      exact ⟨at', by rw [Writer.then, ha, bind_error]⟩

theorem guarded_settled {p : Params} {d : Nat} {w : Writer} {P : Prop} (h : Writer.Settled w P) :
    Writer.Settled (guarded p d w) (Bound.holds p.maxDepth d ∧ P) := by
  constructor
  · rintro ⟨hd, hp⟩
    obtain ⟨b, hb⟩ := h.1 hp
    exact ⟨b, guarded_writes hd hb⟩
  · intro hn off
    by_cases hd : Bound.holds p.maxDepth d
    · obtain ⟨a, ha⟩ := h.2 (fun hp => hn ⟨hd, hp⟩) off
      exact ⟨a, by rw [guarded, checkDepth_ok hd, bind_ok, ha]⟩
    · exact ⟨off, by rw [guarded, checkDepth_error hd, bind_error]⟩

theorem headed_settled {p : Params} {d : Nat} {tag : U24} {ty : TdfType} {w : Writer} {P : Prop}
    (h : Writer.Settled w P) : Writer.Settled (headed p d tag ty w) (Bound.holds p.maxDepth d ∧ P) :=
  (guarded_settled ((emit_settled _).then h)).congr (by simp)

/-- A sequence of writers settles when each does. -/
theorem writeAll_settled {α : Type} {f : α → Writer} {P : α → Prop} :
    ∀ xs : List α, (∀ x ∈ xs, Writer.Settled (f x) (P x)) → Writer.Settled (writeAll (xs.map f)) (∀ x ∈ xs, P x)
  | [], _ => (emit_settled []).congr (by simp)
  | x :: xs, h =>
    ((h x (by simp)).then (writeAll_settled xs (fun y hy => h y (by simp [hy])))).congr (by simp)

theorem structBody_settled {α : Type} {p : Params} {d : Nat} {start2 : Bool} {f : α → Writer} {P : α → Prop}
    (xs : List α) (h : ∀ x ∈ xs, Writer.Settled (f x) (P x)) :
    Writer.Settled (structBody p d start2 (xs.map f)) (Bound.holds p.maxDepth d ∧ ∀ x ∈ xs, P x) :=
  (guarded_settled ((emit_settled _).then ((writeAll_settled xs h).then (emit_settled _)))).congr (by simp)

/-- Interleaved pairs settle when each element does. -/
theorem pairWriters_settled {α : Type} {f g : α → Writer} {P Q : α → Prop} :
    ∀ (as bs : List α), as.length = bs.length → (∀ x ∈ as, Writer.Settled (f x) (P x)) →
      (∀ x ∈ bs, Writer.Settled (g x) (Q x)) →
      Writer.Settled (writeAll (pairWriters (as.map f) (bs.map g))) ((∀ x ∈ as, P x) ∧ ∀ x ∈ bs, Q x)
  | [], [], _, _, _ => (emit_settled []).congr (by simp)
  | a :: as, b :: bs, hl, ha, hb =>
    ((ha a (by simp)).then ((hb b (by simp)).then
      (pairWriters_settled as bs (by simpa using hl) (fun x hx => ha x (by simp [hx]))
        (fun x hx => hb x (by simp [hx]))))).congr (by simp; tauto)

/-! ## Sequences as lists -/

theorem encTdfs_eq_map (p : Params) (d : Nat) : ∀ cs, encTdfs p cs d = (Tdfs.toList cs).map (fun x => encTdf p x d)
  | .nil => by simp [encTdfs, Tdfs.toList]
  | .cons x xs => by simp [encTdfs, Tdfs.toList, encTdfs_eq_map p d xs]

theorem encElems_eq_map (p : Params) (d : Nat) : ∀ es, encElems p es d = (Elems.toList es).map (fun e => encElem p e d)
  | .nil => by simp [encElems, Elems.toList]
  | .cons e es => by simp [encElems, Elems.toList, encElems_eq_map p d es]

theorem count_eq_length : ∀ es, Elems.count es = (Elems.toList es).length
  | .nil => rfl
  | .cons _ es => by simp [Elems.count, Elems.toList, count_eq_length es]

theorem Bound.holds_max (b : Bound) (m n : Nat) : Bound.holds b (max m n) ↔ Bound.holds b m ∧ Bound.holds b n := by
  cases b <;> simp [Bound.holds]

theorem Bound.holds_zero (b : Bound) : Bound.holds b 0 := by cases b <;> simp [Bound.holds]

theorem Bound.holds_mono {b : Bound} {m n : Nat} (h : Bound.holds b n) (hm : m ≤ n) : Bound.holds b m := by
  cases b with
  | inf => trivial
  | fin k => exact Nat.le_trans hm h

theorem holds_reach_children (b : Bound) (d : Nat) : ∀ cs, Bound.holds b (Tdfs.reach cs d) ↔
    ∀ x ∈ Tdfs.toList cs, Bound.holds b (Tdf.reach x d)
  | .nil => by simp [Tdfs.reach, Tdfs.toList, Bound.holds_zero]
  | .cons x xs => by simp [Tdfs.reach, Tdfs.toList, Bound.holds_max, holds_reach_children b d xs]

theorem holds_reach_elems (b : Bound) (d : Nat) : ∀ es, Bound.holds b (Elems.reach es d) ↔
    ∀ e ∈ Elems.toList es, Bound.holds b (Elem.reach e d)
  | .nil => by simp [Elems.reach, Elems.toList, Bound.holds_zero]
  | .cons x xs => by simp [Elems.reach, Elems.toList, Bound.holds_max, holds_reach_elems b d xs]

theorem children_wf : ∀ cs, Tdfs.WF cs ↔ ∀ x ∈ Tdfs.toList cs, Tdf.WF x
  | .nil => by simp [Tdfs.WF, Tdfs.toList]
  | .cons x xs => by simp [Tdfs.WF, Tdfs.toList, children_wf xs]

theorem elems_wf : ∀ es, Elems.WF es ↔ ∀ e ∈ Elems.toList es, Elem.WF e
  | .nil => by simp [Elems.WF, Elems.toList]
  | .cons x xs => by simp [Elems.WF, Elems.toList, elems_wf xs]

end Sys2Proof.Machine
end

