-- ==== Sys2Proof/Laws/Encode.lean ====
section
/-! SUPPORT. What the encoder's check and the encoder can do (R161, R163, R168), and how a header word is laid out (R65). -/

namespace Sys2Proof.Machine

theorem firstBad_eq_none : ∀ (l : List (Option Bad)) i, firstBad i l = none ↔ ∀ r ∈ l, r = none
  | [], _ => by simp [firstBad]
  | r :: rs, i => by
    cases r with
    | none => simp [firstBad, firstBad_eq_none rs]
    | some b => simp [firstBad]

theorem allOfKind_iff (k : Kind) : ∀ es, allOfKind k es = true ↔ ∀ e ∈ Elems.toList es, Elem.kind e = k
  | .nil => by simp [allOfKind, Elems.toList]
  | .cons e es => by simp [allOfKind, Elems.toList, allOfKind_iff k es]

theorem pairBads_none : ∀ (as bs : List (Option Bad)), as.length = bs.length →
    ((∀ r ∈ pairBads as bs, r = none) ↔ (∀ r ∈ as, r = none) ∧ ∀ r ∈ bs, r = none)
  | [], [], _ => by simp [pairBads]
  | a :: as, b :: bs, h => by
    have := pairBads_none as bs (by simpa using h)
    simp only [pairBads, List.mem_cons, forall_eq_or_imp, Option.or_eq_none_iff, this]
    tauto

theorem checkTdfs_eq_map : ∀ cs, checkTdfs cs = (Tdfs.toList cs).map checkTdf
  | .nil => by simp [checkTdfs, Tdfs.toList]
  | .cons x xs => by simp [checkTdfs, Tdfs.toList, checkTdfs_eq_map xs]

theorem checkElems_eq_map : ∀ cs, checkElems cs = (Elems.toList cs).map checkElem
  | .nil => by simp [checkElems, Elems.toList]
  | .cons x xs => by simp [checkElems, Elems.toList, checkElems_eq_map xs]

mutual
/-- The check of R163 passes exactly the well-formed values. -/
theorem checkTdf_eq_none : ∀ x : Tdf, checkTdf x = none ↔ Tdf.WF x
  | .int _ _ => by simp [checkTdf, Tdf.WF]
  | .string _ _ => by simp [checkTdf, Tdf.WF]
  | .blob _ _ => by simp [checkTdf, Tdf.WF]
  | .struct _ _ cs => by
    rw [checkTdf, Tdf.WF, firstBad_eq_none, checkTdfs_eq_none cs]
  | .list _ sub es => by
    rw [checkTdf, Tdf.WF, ← allOfKind_iff]
    by_cases h : allOfKind sub es = true
    · rw [if_pos h, firstBad_eq_none, checkElems_eq_none es]; simp [h]
    · rw [if_neg h]; simp [h]
  | .pairList _ ka kb as bs => by
    rw [checkTdf, Tdf.WF, ← allOfKind_iff, ← allOfKind_iff, ← count_eq_length, ← count_eq_length]
    by_cases h : (allOfKind ka as && allOfKind kb bs && decide (Elems.count as = Elems.count bs)) = true
    · rw [if_pos h]
      simp only [Bool.and_eq_true, decide_eq_true_eq] at h
      rw [firstBad_eq_none, pairBads_none, checkElems_eq_none as, checkElems_eq_none bs]
      · tauto
      · rw [checkElems_eq_map, checkElems_eq_map]; simp [← count_eq_length, h.2]
    · rw [if_neg h]
      simp only [Bool.and_eq_true, decide_eq_true_eq] at h
      simp; tauto
  | .union _ disc i => by rw [checkTdf, Tdf.WF, checkInner_eq_none disc i]
  | .varIntList _ _ => by simp [checkTdf, Tdf.WF]
  | .pair _ _ _ => by simp [checkTdf, Tdf.WF]
  | .triple _ _ _ _ => by simp [checkTdf, Tdf.WF]
  | .float _ _ => by simp [checkTdf, Tdf.WF]
theorem checkInner_eq_none (disc : Byte) : ∀ i, checkInner disc i = none ↔ Inner.WF disc i
  | .none => by
    rw [checkInner, Inner.WF]
    show (if disc = 0x7F#8 then _ else _) = none ↔ _
    by_cases h : disc = 0x7F#8
    · rw [if_pos h]; simp [h]
    · rw [if_neg h]; simp [h]
  | .some x => by
    rw [checkInner, Inner.WF, ← checkTdf_eq_none x]
    by_cases h : disc = emptyDisc
    · rw [if_pos h]; simp [h, emptyDisc]
    · rw [if_neg h]; simp [emptyDisc] at h; simp [h]
theorem checkTdfs_eq_none : ∀ cs, (∀ r ∈ checkTdfs cs, r = none) ↔ Tdfs.WF cs
  | .nil => by simp [checkTdfs, Tdfs.WF]
  | .cons x xs => by simp [checkTdfs, Tdfs.WF, checkTdfs_eq_none xs, checkTdf_eq_none x]
theorem checkElem_eq_none : ∀ e, checkElem e = none ↔ Elem.WF e
  | .int _ => by simp [checkElem, Elem.WF]
  | .string _ => by simp [checkElem, Elem.WF]
  | .struct _ cs => by rw [checkElem, Elem.WF, firstBad_eq_none, checkTdfs_eq_none cs]
  | .triple _ _ _ => by simp [checkElem, Elem.WF]
  | .float _ => by simp [checkElem, Elem.WF]
theorem checkElems_eq_none : ∀ cs, (∀ r ∈ checkElems cs, r = none) ↔ Elems.WF cs
  | .nil => by simp [checkElems, Elems.WF]
  | .cons x xs => by simp [checkElems, Elems.WF, checkElems_eq_none xs, checkElem_eq_none x]
end

mutual
/-- TDF.ENC of a well-formed value writes within MAX_DEPTH and is too deep beyond it. -/
theorem encTdf_settled (p : Params) : ∀ x : Tdf, Tdf.WF x → ∀ d,
    Writer.Settled (encTdf p x d) (Bound.holds p.maxDepth (Tdf.reach x d))
  | .int _ _, _, d => by rw [encTdf, Tdf.reach]; exact (headed_settled (emit_settled _)).congr (by simp); all_goals simp
  | .string _ _, _, d => by rw [encTdf, Tdf.reach]; exact (headed_settled (emit_settled _)).congr (by simp); all_goals simp
  | .blob _ _, _, d => by rw [encTdf, Tdf.reach]; exact (headed_settled (emit_settled _)).congr (by simp); all_goals simp
  | .struct _ _ cs, h, d => by
    rw [Tdf.WF] at h
    rw [encTdf, Tdf.reach, encTdfs_eq_map]
    refine (headed_settled (structBody_settled _ (fun x hx => encTdfs_settled p cs h x hx (d + 1)))).congr ?_
    rw [Bound.holds_max, holds_reach_children]; tauto
  | .list _ sub es, h, d => by
    rw [Tdf.WF] at h
    rw [encTdf, Tdf.reach, encElems_eq_map]
    refine (headed_settled ((emit_settled _).then (writeAll_settled _ (fun x hx => encElems_settled p es h.2 x hx d)))).congr ?_
    rw [Bound.holds_max, holds_reach_elems]; tauto
  | .pairList _ ka kb as bs, h, d => by
    rw [Tdf.WF] at h
    rw [encTdf, Tdf.reach, encElems_eq_map, encElems_eq_map]
    refine (headed_settled ((emit_settled _).then (pairWriters_settled _ _ h.2.2.1 (fun x hx => encElems_settled p as h.2.2.2.1 x hx d)
      (fun x hx => encElems_settled p bs h.2.2.2.2 x hx d)))).congr ?_
    rw [Bound.holds_max, Bound.holds_max, holds_reach_elems, holds_reach_elems]; tauto
  | .union _ disc i, h, d => by
    rw [Tdf.WF] at h
    rw [encTdf, Tdf.reach]
    refine (headed_settled ((emit_settled _).then (encInner_settled p disc i h d))).congr ?_
    rw [Bound.holds_max]; tauto
  | .varIntList _ _, _, d => by rw [encTdf, Tdf.reach]; exact (headed_settled (emit_settled _)).congr (by simp); all_goals simp
  | .pair _ _ _, _, d => by rw [encTdf, Tdf.reach]; exact (headed_settled (emit_settled _)).congr (by simp); all_goals simp
  | .triple _ _ _ _, _, d => by rw [encTdf, Tdf.reach]; exact (headed_settled (emit_settled _)).congr (by simp); all_goals simp
  | .float _ _, _, d => by rw [encTdf, Tdf.reach]; exact (headed_settled (emit_settled _)).congr (by simp); all_goals simp
theorem encInner_settled (p : Params) (disc : Byte) : ∀ i : Inner, Inner.WF disc i → ∀ d,
    Writer.Settled (encInner p disc i d) (Bound.holds p.maxDepth (Inner.reach i (d + 1)))
  | .none, _, d => by
    rw [encInner, Inner.reach]; exact (emit_settled _).congr (by simp [Bound.holds_zero])
  | .some x, h, d => by
    rw [Inner.WF] at h
    rw [encInner, Inner.reach, if_neg (by simpa [emptyDisc] using h.1)]
    exact encTdf_settled p x h.2 (d + 1)
theorem encTdfs_settled (p : Params) : ∀ cs : Tdfs, Tdfs.WF cs → ∀ x ∈ Tdfs.toList cs, ∀ d,
    Writer.Settled (encTdf p x d) (Bound.holds p.maxDepth (Tdf.reach x d))
  | .nil, _ => by simp [Tdfs.toList]
  | .cons y ys, h => by
    rw [Tdfs.WF] at h
    rw [Tdfs.toList]
    exact List.forall_mem_cons.2 ⟨encTdf_settled p y h.1, encTdfs_settled p ys h.2⟩
theorem encElem_settled (p : Params) : ∀ e : Elem, Elem.WF e → ∀ d,
    Writer.Settled (encElem p e d) (Bound.holds p.maxDepth (Elem.reach e d))
  | .int _, _, d => by rw [encElem, Elem.reach]; exact (emit_settled _).congr (by simp [Bound.holds_zero]); all_goals simp
  | .string _, _, d => by rw [encElem, Elem.reach]; exact (emit_settled _).congr (by simp [Bound.holds_zero]); all_goals simp
  | .struct _ cs, h, d => by
    rw [Elem.WF] at h
    rw [encElem, Elem.reach, encTdfs_eq_map]
    refine (structBody_settled _ (fun x hx => encTdfs_settled p cs h x hx (d + 2))).congr ?_
    rw [Bound.holds_max, holds_reach_children]
  | .triple _ _ _, _, d => by rw [encElem, Elem.reach]; exact (emit_settled _).congr (by simp [Bound.holds_zero]); all_goals simp
  | .float _, _, d => by rw [encElem, Elem.reach]; exact (emit_settled _).congr (by simp [Bound.holds_zero]); all_goals simp
theorem encElems_settled (p : Params) : ∀ es : Elems, Elems.WF es → ∀ e ∈ Elems.toList es, ∀ d,
    Writer.Settled (encElem p e d) (Bound.holds p.maxDepth (Elem.reach e d))
  | .nil, _ => by simp [Elems.toList]
  | .cons y ys, h => by
    rw [Elems.WF] at h
    rw [Elems.toList]
    exact List.forall_mem_cons.2 ⟨encElem_settled p y h.1, encElems_settled p ys h.2⟩

end

theorem beBytes_four (w : U32) : beBytes 4 w.toNat = headerBytes w := by
  have h := w.isLt
  simp only [beBytes, headerBytes, List.cons.injEq, and_true]
  refine ⟨?_, ?_, ?_, ?_⟩ <;>
  · apply BitVec.eq_of_toNat_eq
    simp only [BitVec.toNat_ofNat, BitVec.extractLsb'_toNat, Nat.shiftRight_eq_div_pow]
    norm_num

theorem headerWord_getLsbD (tag : U24) (ty : TdfType) (i : Nat) :
    (headerWord tag ty).getLsbD i = if i < 8 then ty.code.getLsbD i else tag.getLsbD (i - 8) := by
  rw [← Bool.cond_decide]
  exact (BitVec.getLsbD_append (x := tag) (y := ty.code)).trans (by simp)

theorem headerTag_headerWord (tag : U24) (ty : TdfType) : headerTag (headerWord tag ty) = tag := by
  apply BitVec.eq_of_getLsbD_eq
  intro i hi
  rw [headerTag, BitVec.getLsbD_extractLsb', headerWord_getLsbD, if_neg (by omega), Nat.add_sub_cancel_left]
  simp [hi]

theorem headerType_headerWord (tag : U24) (ty : TdfType) : headerType (headerWord tag ty) = ty.code := by
  apply BitVec.eq_of_getLsbD_eq
  intro i hi
  rw [headerType, BitVec.getLsbD_extractLsb', headerWord_getLsbD, if_pos (by omega), Nat.zero_add]
  simp [hi]

theorem tdfType_ofByte_code (ty : TdfType) : TdfType.ofByte ty.code = some ty := by cases ty <;> rfl
theorem kind_ofByte_code (k : Kind) : Kind.ofByte k.code = some k := by cases k <;> rfl

/-- A value begins with the first byte of its tag. -/
theorem header_head (tag : U24) (ty : TdfType) (b : Bytes) :
    (beBytes 4 (headerWord tag ty).toNat ++ b).head? = some (tag.extractLsb' 16 8) := by
  rw [beBytes_four, headerBytes, List.cons_append, List.head?_cons]
  congr 1
  apply BitVec.eq_of_getLsbD_eq
  intro i hi
  rw [BitVec.getLsbD_extractLsb', BitVec.getLsbD_extractLsb', headerWord_getLsbD, if_neg (by omega)]
  congr 2
  omega

end Sys2Proof.Machine
end

