-- ==== Sys2Proof/Laws/Extents.lean ====
section
/-! SUPPORT. Where an encode that goes too deep stops (42_tdf_value.md R161): a writer measured by its extent writes that
many bytes, or raises RESOURCE (depth) at the bytes written before the first value or Struct body beyond MAX_DEPTH. -/

namespace Sys2Proof.Machine

theorem Extent.then_bytes_zero (x : Extent) : Extent.then x (Extent.bytes 0) = x := by
  simp [Extent.then, Extent.bytes]

theorem Extent.then_assoc (x y z : Extent) :
    Extent.then (Extent.then x y) z = Extent.then x (Extent.then y z) := by
  simp [Extent.then, Nat.add_assoc]

theorem Extent.bytes_zero_then (x : Extent) : Extent.then (Extent.bytes 0) x = x := by
  simp [Extent.then, Extent.bytes]

theorem Extent.seq_append (xs ys : List Extent) :
    Extent.seq (xs ++ ys) = Extent.then (Extent.seq xs) (Extent.seq ys) := by
  induction xs with
  | nil => exact (Extent.bytes_zero_then _).symm
  | cons x xs ih => rw [List.cons_append, Extent.seq, Extent.seq, ih, Extent.then_assoc]

theorem Extent.seq_one (x : Extent) : Extent.seq [x] = x := Extent.then_bytes_zero x

/-- The first part that is too deep, or everything is within the limit. -/
theorem Extent.within_or_firstTooDeep (limit : Bound) (x : Extent) :
    (∀ b ∈ x.starts, Bound.holds limit b.2) ∨ ∃ at', Extent.FirstTooDeep limit x at' := by
  obtain ⟨n, l⟩ := x
  simp only [Extent.FirstTooDeep]
  clear n
  induction l with
  | nil => exact .inl (by simp)
  | cons b l ih =>
    by_cases hb : Bound.holds limit b.2
    · rcases ih with h | ⟨a, pre, d, post, rfl, hd, h⟩
      · exact .inl (List.forall_mem_cons.2 ⟨hb, h⟩)
      · exact .inr ⟨a, b :: pre, d, post, rfl, hd, List.forall_mem_cons.2 ⟨hb, h⟩⟩
    · exact .inr ⟨b.1, [], b.2, l, rfl, hb, by simp⟩

/-- The writer writes as many bytes as `x` says, or stops where `x` first goes beyond the limit. -/
def Writer.Measured (limit : Bound) (w : Writer) (x : Extent) : Prop :=
  ((∀ b ∈ x.starts, Bound.holds limit b.2) → ∃ b, Writer.Writes w b ∧ b.length = x.size) ∧
    ∀ at', Extent.FirstTooDeep limit x at' → ∀ off, w off = .error (.resource (.depth (off + at')))

theorem emit_measured (limit : Bound) (b : Bytes) : Writer.Measured limit (emit b) (Extent.bytes b.length) :=
  ⟨fun _ => ⟨b, emit_writes b, rfl⟩, by rintro a ⟨pre, d, post, h, -⟩; simp [Extent.bytes] at h⟩

theorem Extent.firstTooDeep_then {limit : Bound} {x y : Extent} {a : Nat}
    (h : Extent.FirstTooDeep limit (Extent.then x y) a) : Extent.FirstTooDeep limit x a ∨
      (∀ b ∈ x.starts, Bound.holds limit b.2) ∧ ∃ c, a = x.size + c ∧ Extent.FirstTooDeep limit y c := by
  obtain ⟨pre, d, post, h, hd, hp⟩ := h
  rw [Extent.then] at h
  rcases List.append_eq_append_iff.1 h with ⟨m, h1, h2⟩ | ⟨m, h1, h2⟩
  · right
    subst h1
    obtain ⟨l1, l2, h3, h4, h5⟩ := List.map_eq_append_iff.1 h2
    cases l2 with
    | nil => simp at h5
    | cons c l2 =>
      simp only [List.map_cons, List.cons.injEq, Prod.mk.injEq] at h5
      refine ⟨fun b hb => hp b (by simp [hb]), c.1, h5.1.1.symm, l1, c.2, l2, h3, by rw [h5.1.2]; exact hd, ?_⟩
      intro b hb
      exact hp (x.size + b.1, b.2) (by rw [← h4]; simp only [List.mem_append, List.mem_map]; exact .inr ⟨b, hb, rfl⟩)
  · cases m with
    | nil =>
      right
      simp only [List.append_nil] at h1
      cases hy : y.starts with
      | nil => simp [hy] at h2
      | cons c l2 =>
        simp only [hy, List.map_cons, List.nil_append, List.cons.injEq, Prod.mk.injEq] at h2
        refine ⟨fun b hb => hp b (h1 ▸ hb), c.1, h2.1.1, [], c.2, l2, hy, by rw [← h2.1.2]; exact hd, by simp⟩
    | cons c m =>
      simp only [List.cons_append, List.cons.injEq] at h2
      obtain ⟨rfl, -⟩ := h2
      exact .inl ⟨pre, d, m, h1, hd, hp⟩

theorem Writer.Measured.then {limit : Bound} {f s : Writer} {x y : Extent} (h : Writer.Measured limit f x)
    (h' : Writer.Measured limit s y) : Writer.Measured limit (Writer.then f s) (Extent.then x y) := by
  constructor
  · intro hb
    rw [Extent.then] at hb
    obtain ⟨a, ha, hx⟩ := h.1 (fun b hb' => hb b (by simp [hb']))
    obtain ⟨c, hc, hy⟩ := h'.1 (fun b hb' => hb (x.size + b.1, b.2)
      (by simp only [List.mem_append, List.mem_map]; exact .inr ⟨b, hb', rfl⟩))
    exact ⟨a ++ c, ha.then hc, by rw [List.length_append, hx, hy]; rfl⟩
  · intro a ha off
    rcases Extent.firstTooDeep_then ha with ha | ⟨hx, c, rfl, hc⟩
    · rw [Writer.then, h.2 a ha, bind_error]
    · obtain ⟨b, hb, hl⟩ := h.1 hx
      rw [Writer.then, hb off, bind_ok, h'.2 c hc, bind_error, hl, Nat.add_assoc]

theorem guarded_measured {p : Params} {d : Nat} {w : Writer} {x : Extent} (h : Writer.Measured p.maxDepth w x) :
    Writer.Measured p.maxDepth (guarded p d w) (Extent.begin d x) := by
  constructor
  · intro hb
    obtain ⟨b, hw, hl⟩ := h.1 (fun b hb' => hb b (List.mem_cons_of_mem _ hb'))
    exact ⟨b, guarded_writes (hb (0, d) (List.mem_cons_self ..)) hw, hl⟩
  · rintro a ⟨pre, d', post, hs, hd, hp⟩ off
    cases pre with
    | nil =>
      simp only [Extent.begin, List.nil_append, List.cons.injEq, Prod.mk.injEq] at hs
      obtain ⟨⟨rfl, rfl⟩, -⟩ := hs
      rw [guarded, checkDepth_error hd, bind_error]
      rfl
    | cons c pre =>
      simp only [Extent.begin, List.cons_append, List.cons.injEq] at hs
      obtain ⟨rfl, hs⟩ := hs
      rw [guarded, checkDepth_ok (hp (0, d) (List.mem_cons_self ..)), bind_ok]
      exact h.2 a ⟨pre, d', post, hs, hd, fun b hb => hp b (List.mem_cons_of_mem _ hb)⟩ off

theorem writeAll_measured {limit : Bound} {ws : List Writer} {xs : List Extent}
    (h : List.Forall₂ (Writer.Measured limit) ws xs) : Writer.Measured limit (writeAll ws) (Extent.seq xs) := by
  induction h with
  | nil => exact emit_measured limit []
  | cons h _ ih => exact h.then ih

theorem pairWriters_measured {limit : Bound} {ws us : List Writer} {xs ys : List Extent}
    (h : List.Forall₂ (Writer.Measured limit) ws xs) (h' : List.Forall₂ (Writer.Measured limit) us ys) :
    List.Forall₂ (Writer.Measured limit) (pairWriters ws us) (Extent.interleave xs ys) := by
  induction h generalizing us ys with
  | nil => cases h' <;> exact .nil
  | cons h _ ih =>
    cases h' with
    | nil => exact .nil
    | cons h1 h2 => exact .cons h (.cons h1 (ih h2))

theorem headed_measured {p : Params} {d : Nat} {tag : U24} {ty : TdfType} {w : Writer} {xs : List Extent}
    (h : Writer.Measured p.maxDepth w (Extent.seq xs)) :
    Writer.Measured p.maxDepth (headed p d tag ty w) (Extent.value d xs) :=
  guarded_measured ((emit_measured p.maxDepth (beBytes 4 (headerWord tag ty).toNat)).then h)

/-- A header and plain bytes. -/
theorem headed_measured_bytes {p : Params} {d : Nat} {tag : U24} {ty : TdfType} {b : Bytes} {n : Nat}
    (h : b.length = n) :
    Writer.Measured p.maxDepth (headed p d tag ty (emit b)) (Extent.value d [Extent.bytes n]) :=
  headed_measured (by rw [Extent.seq_one, ← h]; exact emit_measured _ b)

theorem structBody_measured {p : Params} {d : Nat} {start2 : Bool} {ws : List Writer} {xs : List Extent}
    (h : List.Forall₂ (Writer.Measured p.maxDepth) ws xs) :
    Writer.Measured p.maxDepth (structBody p d start2 ws) (Extent.body d start2 xs) := by
  refine guarded_measured ?_
  rw [List.cons_append, Extent.seq, Extent.seq_append, Extent.seq_one]
  refine Writer.Measured.then ?_ ((writeAll_measured h).then (emit_measured _ [terminator]))
  cases start2
  · exact emit_measured _ []
  · exact emit_measured _ [startMarker]

mutual
/-- TDF.ENC of a well-formed value is measured by its extent. -/
theorem encTdf_measured (p : Params) : ∀ x : Tdf, Tdf.WF x → ∀ d,
    Writer.Measured p.maxDepth (encTdf p x d) (Tdf.extent x d)
  | .int _ _, _, d => by rw [encTdf, Tdf.extent]; exact headed_measured_bytes rfl
  | .string _ _, _, d => by rw [encTdf, Tdf.extent]; exact headed_measured_bytes rfl
  | .blob _ _, _, d => by rw [encTdf, Tdf.extent]; exact headed_measured_bytes rfl
  | .struct _ start2 cs, h, d => by
    rw [Tdf.WF] at h
    rw [encTdf, Tdf.extent]
    exact headed_measured (by rw [Extent.seq_one]; exact structBody_measured (encTdfs_measured p cs h (d + 1)))
  | .list _ sub es, h, d => by
    rw [Tdf.WF] at h
    rw [encTdf, Tdf.extent]
    refine headed_measured (Writer.Measured.then ?_ (writeAll_measured (encElems_measured p es h.2 d)))
    rw [← count_eq_length, Nat.add_comm, ← List.length_cons]
    exact emit_measured _ _
  | .pairList _ ka kb as bs, h, d => by
    rw [Tdf.WF] at h
    rw [encTdf, Tdf.extent]
    refine headed_measured (Writer.Measured.then ?_ (writeAll_measured (pairWriters_measured
      (encElems_measured p as h.2.2.2.1 d) (encElems_measured p bs h.2.2.2.2 d))))
    rw [← count_eq_length, Nat.add_comm]
    exact emit_measured _ (ka.code :: kb.code :: lengthBytes (Elems.count as))
  | .union _ disc i, h, d => by
    rw [Tdf.WF] at h
    rw [encTdf, Tdf.extent]
    exact headed_measured ((emit_measured _ [disc]).then (encInner_measured p disc i h d))
  | .varIntList _ vs, _, d => by
    rw [encTdf, Tdf.extent]
    exact headed_measured_bytes (by rw [List.length_append, List.length_flatMap])
  | .pair _ _ _, _, d => by rw [encTdf, Tdf.extent]; exact headed_measured_bytes List.length_append
  | .triple _ _ _ _, _, d => by
    rw [encTdf, Tdf.extent]
    exact headed_measured_bytes (by rw [List.length_append, List.length_append])
  | .float _ bits, _, d => by rw [encTdf, Tdf.extent]; exact headed_measured_bytes rfl
theorem encInner_measured (p : Params) (disc : Byte) : ∀ i : Inner, Inner.WF disc i → ∀ d,
    Writer.Measured p.maxDepth (encInner p disc i d) (Extent.seq (Inner.extents i (d + 1)))
  | .none, _, d => by rw [encInner, Inner.extents]; exact emit_measured _ []
  | .some x, h, d => by
    rw [Inner.WF] at h
    rw [encInner, Inner.extents, if_neg (show ¬ disc = emptyDisc from h.1), Extent.seq_one]
    exact encTdf_measured p x h.2 (d + 1)
theorem encTdfs_measured (p : Params) : ∀ cs : Tdfs, Tdfs.WF cs → ∀ d,
    List.Forall₂ (Writer.Measured p.maxDepth) (encTdfs p cs d) (Tdfs.extents cs d)
  | .nil, _, d => by rw [encTdfs, Tdfs.extents]; exact .nil
  | .cons x xs, h, d => by
    rw [Tdfs.WF] at h
    rw [encTdfs, Tdfs.extents]
    exact .cons (encTdf_measured p x h.1 d) (encTdfs_measured p xs h.2 d)
theorem encElem_measured (p : Params) : ∀ e : Elem, Elem.WF e → ∀ d,
    Writer.Measured p.maxDepth (encElem p e d) (Elem.extent e d)
  | .int _, _, d => by rw [encElem, Elem.extent]; exact emit_measured _ _
  | .string _, _, d => by rw [encElem, Elem.extent]; exact emit_measured _ _
  | .struct _ cs, h, d => by
    rw [Elem.WF] at h
    rw [encElem, Elem.extent]
    exact structBody_measured (encTdfs_measured p cs h (d + 2))
  | .triple _ _ _, _, d => by
    rw [encElem, Elem.extent, ← List.length_append, ← List.length_append]
    exact emit_measured _ _
  | .float _, _, d => by rw [encElem, Elem.extent]; exact emit_measured _ (beBytes 8 _)
theorem encElems_measured (p : Params) : ∀ es : Elems, Elems.WF es → ∀ d,
    List.Forall₂ (Writer.Measured p.maxDepth) (encElems p es d) (Elems.extents es d)
  | .nil, _, d => by rw [encElems, Elems.extents]; exact .nil
  | .cons x xs, h, d => by
    rw [Elems.WF] at h
    rw [encElems, Elems.extents]
    exact .cons (encElem_measured p x h.1 d) (encElems_measured p xs h.2 d)
end

/-- A writer of some bytes never stops, so its extent is within the limit and its size is theirs. -/
theorem Writer.Measured.length_eq {limit : Bound} {w : Writer} {x : Extent} {b : Bytes}
    (h : Writer.Measured limit w x) (hw : Writer.Writes w b) : b.length = x.size := by
  rcases Extent.within_or_firstTooDeep limit x with hx | ⟨a, ha⟩
  · obtain ⟨c, hc, hl⟩ := h.1 hx
    rw [hw.unique hc, hl]
  · have := h.2 a ha 0
    rw [hw 0] at this
    cases this

/-- A writer that is too deep stops where its extent first is. -/
theorem Writer.Measured.stops {limit : Bound} {w : Writer} {x : Extent} (h : Writer.Measured limit w x)
    (hw : Writer.TooDeep w) :
    ∃ a, Extent.FirstTooDeep limit x a ∧ ∀ off, w off = .error (.resource (.depth (off + a))) := by
  rcases Extent.within_or_firstTooDeep limit x with hx | ⟨a, ha⟩
  · obtain ⟨c, hc, -⟩ := h.1 hx
    obtain ⟨a, ha⟩ := hw 0
    rw [hc 0] at ha
    cases ha
  · exact ⟨a, ha, h.2 a ha⟩

end Sys2Proof.Machine
end

