-- ==== Sys2Proof/Laws/Packets.lean ====
section
/-! SUPPORT. What the packet reader and the stream reassembler can do (43_packet_framing.md, 44_stream_reassembler.md). -/

namespace Sys2Proof.Machine

theorem beBytes_two (n : Nat) : beBytes 2 n = twoBytes n := by simp [beBytes, twoBytes]

theorem headerField_eq (inp : Bytes) (off : Nat) (h : off + 2 ≤ inp.length) : headerField inp off = fieldAt inp off := by
  have l0 : off < inp.length := by omega
  have l1 : off + 1 < inp.length := by omega
  have hs : span inp off 2 = [inp[off], inp[off + 1]] := by
    rw [span, List.drop_eq_getElem_cons l0, List.drop_eq_getElem_cons l1]; rfl
  rw [headerField, hs, fieldAt]
  apply BitVec.eq_of_toNat_eq
  have := (inp[off]).isLt
  have := (inp[off + 1]).isLt
  have e0 : inp.getD off 0 = inp[off] := by simp [List.getD, List.getElem?_eq_getElem l0]
  have e1 : inp.getD (off + 1) 0 = inp[off + 1] := by simp [List.getD, List.getElem?_eq_getElem l1]
  rw [e0, e1]
  rw [show (inp[off] ++ inp[off+1] : U16) = (inp[off] ++ inp[off+1] : BitVec (8+8)) from rfl]
  simp only [beValue, List.foldl, BitVec.toNat_ofNat, BitVec.toNat_append]
  rw [← Nat.shiftLeft_add_eq_or_of_lt (BitVec.isLt _)]
  simp only [Nat.shiftLeft_eq]
  omega

theorem readHeader_eq (inp : Bytes) (pos : Nat) (h : 12 ≤ inp.length - pos) : readHeader inp pos =
    let h : Header :=
        { length := fieldAt inp pos, component := fieldAt inp (pos + 2), command := fieldAt inp (pos + 4),
          error := fieldAt inp (pos + 6), qtype := fieldAt inp (pos + 8), id := fieldAt inp (pos + 10), extLength := 0 }
    if (fieldAt inp (pos + 8)).getLsbD 12 then
      (if inp.length - pos < 14 then .error (.incomplete (14 - (inp.length - pos))) else .ok ({ h with extLength := fieldAt inp (pos + 12) }, 14))
    else .ok (h, 12) := by
  rw [readHeader]
  dsimp only
  rw [if_neg (by omega), headerField_eq _ _ (by omega), headerField_eq _ _ (by omega), headerField_eq _ _ (by omega), headerField_eq _ _ (by omega), headerField_eq _ _ (by omega), headerField_eq _ _ (by omega), extFlag]
  split
  · split
    · rfl
    · rw [headerField_eq _ _ (by omega)]
  · rfl

theorem readHeader_error (inp : Bytes) (pos : Nat) {e} (h : readHeader inp pos = .error e) : ∃ n, e = .incomplete n := by
  unfold readHeader at h
  dsimp only at h
  split at h
  · cases h; exact ⟨_, rfl⟩
  · split at h
    · split at h
      · cases h; exact ⟨_, rfl⟩
      · cases h
    · cases h

/-- PKT.DEC raises nothing but INCOMPLETE. -/
theorem readPacket_error (inp : Bytes) (pos : Nat) {e} (h : readPacket inp pos = .error e) : ∃ n, e = .incomplete n := by
  rcases bind_eq_error.1 h with h | ⟨⟨h0, hl⟩, _, h⟩
  · exact readHeader_error _ _ h
  · dsimp only at h
    split at h
    · cases h; exact ⟨_, rfl⟩
    · cases h

/-- All that a header read says. -/
theorem readHeader_ok {inp : Bytes} {pos : Nat} {h : Header} {hl : Nat} (hh : readHeader inp pos = .ok (h, hl)) :
    hl = (if h.qtype.getLsbD 12 then 14 else 12) ∧ pos + hl ≤ inp.length ∧ 
    h = { length := headerField inp pos, component := headerField inp (pos + 2), command := headerField inp (pos + 4),
          error := headerField inp (pos + 6), qtype := headerField inp (pos + 8), id := headerField inp (pos + 10),
          extLength := if h.qtype.getLsbD 12 then headerField inp (pos + 12) else 0 } := by
  unfold readHeader at hh
  dsimp only at hh
  split at hh
  · cases hh
  · split at hh
    · rename_i he
      split at hh
      · cases hh
      · cases hh
        simp only [extFlag] at he
        simp only [he, if_true]
        refine ⟨trivial, by omega, trivial⟩
    · rename_i he
      cases hh
      simp only [extFlag] at he
      simp only [he]
      refine ⟨rfl, by omega, rfl⟩

theorem span_append {a b : Bytes} {p n : Nat} (h : p + n ≤ a.length) : span (a ++ b) p n = span a p n := by
  rw [span, span, List.drop_append_of_le_length (by omega), List.take_append_of_le_length (by simp; omega)]

theorem headerField_append {a b : Bytes} {p : Nat} (h : p + 2 ≤ a.length) : headerField (a ++ b) p = headerField a p := by
  rw [headerField, headerField, span_append h]

/-- Bytes after a packet do not matter to it. -/
theorem readPacket_append {a b : Bytes} {p : Nat} {k : Packet} {q : Nat} (h : readPacket a p = .ok (k, q)) : readPacket (a ++ b) p = .ok (k, q) := by
  obtain ⟨⟨h0, hl⟩, h1, h2⟩ := bind_eq_ok.1 h
  dsimp only at h2
  split at h2
  · cases h2
  · rename_i hn
    have hk := readHeader_ok h1
    have hlen : hl = 12 ∨ hl = 14 := by rw [hk.1]; split <;> simp
    have e : readHeader (a ++ b) p = .ok (h0, hl) := by
      rw [← h1]
      unfold readHeader
      dsimp only
      have l : (a ++ b).length = a.length + b.length := List.length_append
      have l12 : p + 12 ≤ a.length := by omega
      rw [headerField_append (by omega), headerField_append (by omega), headerField_append (by omega), headerField_append (by omega), headerField_append (by omega), headerField_append (by omega),
        if_neg (show ¬ (a ++ b).length - p < 12 by omega), if_neg (show ¬ a.length - p < 12 by omega)]
      have hq : h0.qtype = headerField a (p + 8) := by
        have := hk.2.2; rw [this]
      split
      · rename_i he
        have : hl = 14 := by rw [hk.1, hq]; simp only [extFlag] at he; rw [he]; rfl
        rw [if_neg (show ¬ (a ++ b).length - p < 14 by omega), if_neg (show ¬ a.length - p < 14 by omega), headerField_append (by omega)]
      · rfl
    rw [readPacket, e, bind_ok]
    dsimp only
    have l : (a ++ b).length = a.length + b.length := List.length_append
    rw [if_neg (by omega), span_append (by omega)]
    exact h2

/-- A packet needs no byte beyond its own. -/
theorem readPacket_of_append {a b : Bytes} {p : Nat} {k : Packet} {q : Nat} (h : readPacket (a ++ b) p = .ok (k, q)) (hq : q ≤ a.length) :
    readPacket a p = .ok (k, q) := by
  cases ha : readPacket a p with
  | ok r => rw [readPacket_append ha] at h; exact h
  | error e =>
    exfalso
    obtain ⟨⟨h0, hl⟩, h1, h2⟩ := bind_eq_ok.1 h
    dsimp only at h2
    split at h2
    · cases h2
    · rename_i hn
      cases h2
      have hk := readHeader_ok h1
      have hlen : hl = 12 ∨ hl = 14 := by rw [hk.1]; split <;> simp
      have e' : readHeader a p = .ok (h0, hl) := by
        rw [← h1]
        unfold readHeader
        dsimp only
        have l : (a ++ b).length = a.length + b.length := List.length_append
        have l12 : p + 12 ≤ a.length := by omega
        rw [headerField_append (by omega), headerField_append (by omega), headerField_append (by omega), headerField_append (by omega), headerField_append (by omega), headerField_append (by omega),
          if_neg (show ¬ (a ++ b).length - p < 12 by omega), if_neg (show ¬ a.length - p < 12 by omega)]
        have hq : h0.qtype = headerField a (p + 8) := by
          have := hk.2.2; rw [this]; exact headerField_append (by omega)
        split
        · rename_i he
          have : hl = 14 := by rw [hk.1, hq]; simp only [extFlag] at he; rw [he]; rfl
          rw [if_neg (show ¬ (a ++ b).length - p < 14 by omega), if_neg (show ¬ a.length - p < 14 by omega), headerField_append (by omega)]
        · rfl
      rw [readPacket, e', bind_ok] at ha
      dsimp only at ha
      rw [if_neg (by omega)] at ha
      cases ha

theorem headerField_shift (pre b : Bytes) (p : Nat) : headerField (pre ++ b) (pre.length + p) = headerField b p := by
  rw [headerField, headerField, span, span]
  congr 3
  simp

/-- Bytes before a packet only shift its cursor. -/
theorem readPacket_shift (pre b : Bytes) (p : Nat) : readPacket (pre ++ b) (pre.length + p) = (readPacket b p).map fun r => (r.1, pre.length + r.2) := by
  have hl : (pre ++ b).length - (pre.length + p) = b.length - p := by simp; omega
  have hh : readHeader (pre ++ b) (pre.length + p) = readHeader b p := by
    unfold readHeader
    dsimp only
    simp only [hl, Nat.add_assoc, headerField_shift]
  rw [readPacket, hh, readPacket]
  cases readHeader b p with
  | error e => rfl
  | ok r =>
    simp only [bind_ok, hl]
    split
    · rfl
    · simp only [pure_eq_ok, Except.map, Except.ok.injEq, Prod.mk.injEq, Packet.mk.injEq, true_and]
      refine ⟨?_, by omega⟩
      rw [span, span]; congr 1; rw [Nat.add_assoc]; simp

theorem twoBytes_headerField {inp : Bytes} {p : Nat} (h : p + 2 ≤ inp.length) : twoBytes (headerField inp p).toNat = span inp p 2 := by
  have hl : (span inp p 2).length = 2 := by simp; omega
  have := beValue_lt (span inp p 2)
  rw [hl] at this
  rw [headerField, BitVec.toNat_ofNat, Nat.mod_eq_of_lt (by simpa using this), ← beBytes_two]
  have h2 := beBytes_beValue (span inp p 2)
  rw [hl] at h2
  exact h2

theorem span_append_span (inp : Bytes) (p a b : Nat) : span inp p a ++ span inp (p + a) b = span inp p (a + b) := by
  rw [span, span, span, ← List.drop_drop, List.take_add]

/-- A packet is the bytes it came from. -/
theorem readPacket_wire {b : Bytes} {p : Nat} {k : Packet} {q : Nat} (h : readPacket b p = .ok (k, q)) :
    Packet.wire k = span b p (q - p) ∧ p + 12 ≤ q ∧ q ≤ b.length := by
  obtain ⟨⟨h0, hl⟩, h1, h2⟩ := bind_eq_ok.1 h
  dsimp only at h2
  split at h2
  · cases h2
  · rename_i hn
    cases h2
    have hk := readHeader_ok h1
    obtain ⟨hl1, hle, hrec⟩ := hk
    have hlen : hl = 12 ∨ hl = 14 := by rw [hl1]; split <;> simp
    have hclen : (span b (p + hl) (Header.declared h0).toNat).length = (Header.declared h0).toNat := by simp; omega
    have hdecl : (Header.declared h0).toNat = h0.extLength.toNat * 65536 + h0.length.toNat := by
      rw [Header.declared, show (h0.extLength ++ h0.length : U32) = (h0.extLength ++ h0.length : BitVec (16+16)) from rfl, BitVec.toNat_append, ← Nat.shiftLeft_add_eq_or_of_lt (BitVec.isLt _), Nat.shiftLeft_eq]
    refine ⟨?_, by omega, by omega⟩
    have hl16 := h0.length.isLt
    have eA : (Header.declared h0).toNat % 65536 = h0.length.toNat := by omega
    have eB : (Header.declared h0).toNat / 65536 = h0.extLength.toNat := by omega
    simp only [Packet.wire, hclen, eA, eB]
    have f0 : h0.length = headerField b p := by rw [hrec]
    have f1 : h0.component = headerField b (p+2) := by rw [hrec]
    have f2 : h0.command = headerField b (p+4) := by rw [hrec]
    have f3 : h0.error = headerField b (p+6) := by rw [hrec]
    have f4 : h0.qtype = headerField b (p+8) := by rw [hrec]
    have f5 : h0.id = headerField b (p+10) := by rw [hrec]
    rw [f0, f1, f2, f3, f5]
    rw [twoBytes_headerField (by omega), twoBytes_headerField (by omega), twoBytes_headerField (by omega), twoBytes_headerField (by omega), twoBytes_headerField (inp := b) (p := p+10) (by omega)]
    rw [show p + 4 = p + (2 + 2) by omega, show p + 6 = p + (2 + 2 + 2) by omega, show p + 10 = p + (2+2+2+2+2) by omega]
    rw [span_append_span, span_append_span, span_append_span]
    have f4' : twoBytes h0.qtype.toNat = span b (p + (2+2+2+2)) 2 := by rw [f4, twoBytes_headerField (by omega)]
    rw [f4', span_append_span, span_append_span]
    by_cases he : h0.qtype.getLsbD 12 = true
    · have f6 : h0.extLength = headerField b (p+12) := by
        have := congrArg Header.extLength hrec
        simp only [he, if_true] at this; exact this
      have : hl = 14 := by rw [hl1, if_pos he]
      subst this
      rw [if_pos he, f6, twoBytes_headerField (by omega), show p + 12 = p + (2+2+2+2+2+2) by omega, span_append_span, show p + 14 = p + (2+2+2+2+2+2+2) by omega, span_append_span]
      congr 1; omega
    · have : hl = 12 := by rw [hl1, if_neg he]
      subst this
      rw [if_neg he, List.append_nil, show p + 12 = p + (2+2+2+2+2+2) by omega, span_append_span]
      congr 1; omega

/-- `Extracts` in terms of the packet reader: packets from `p` to `q`, and no complete one at `q`. -/
def PacketChain (b : Bytes) : List Packet → Nat → Nat → Prop
  | [], p, q => q = p ∧ ∃ need, readPacket b p = .error (.incomplete need)
  | k :: ks, p, q => ∃ p', readPacket b p = .ok (k, p') ∧ PacketChain b ks p' q

theorem gives_pktDec_ok {s : State} {b p k q} : Gives (.pktDec b p) s (.ok (.packetAt k q)) ↔ readPacket b p = .ok (k, q) := by
  rw [gives_of_done (o := (readPacket b p).map fun r => .packetAt r.1 r.2) rfl]
  cases readPacket b p with
  | error e => simp [Except.map]
  | ok r => obtain ⟨k', q'⟩ := r; simp [Except.map, eq_comm]

theorem gives_pktDec_err {s : State} {b p e} : Gives (.pktDec b p) s (.err e) ↔ readPacket b p = .error e := by
  rw [gives_of_done (o := (readPacket b p).map fun r => .packetAt r.1 r.2) rfl]
  cases readPacket b p with
  | error e => simp [Except.map, eq_comm]
  | ok r => simp [Except.map]

theorem extracts_iff_chain {s b} : ∀ {ks p q}, Extracts s b ks p q ↔ PacketChain b ks p q
  | [], p, q => by simp only [Extracts, PacketChain, gives_pktDec_err]
  | k :: ks, p, q => by simp only [Extracts, PacketChain, gives_pktDec_ok, extracts_iff_chain (ks := ks)]

theorem PacketChain.unique {b} : ∀ {ks ks' p q q'}, PacketChain b ks p q → PacketChain b ks' p q' → ks = ks' ∧ q = q'
  | [], [], _, _, _, h, h' => ⟨rfl, h.1.trans h'.1.symm⟩
  | [], _ :: _, _, _, _, h, h' => by obtain ⟨_, n, e⟩ := h; obtain ⟨_, e', _⟩ := h'; rw [e] at e'; cases e'
  | _ :: _, [], _, _, _, h', h => by obtain ⟨_, n, e⟩ := h; obtain ⟨_, e', _⟩ := h'; rw [e] at e'; cases e'
  | _ :: _, _ :: _, _, _, _, h, h' => by
    obtain ⟨p1, e, h⟩ := h; obtain ⟨p2, e', h'⟩ := h'
    rw [e] at e'; cases e'
    obtain ⟨rfl, rfl⟩ := PacketChain.unique h h'; exact ⟨rfl, rfl⟩

theorem extractPackets_chain (b : Bytes) : ∀ fuel p, b.length - p ≤ fuel → PacketChain b (extractPackets b fuel p).1 p (extractPackets b fuel p).2 := by
  intro fuel
  induction fuel with
  | zero =>
    intro p h
    refine ⟨rfl, ?_⟩
    cases hr : readPacket b p with
    | error e => obtain ⟨n, rfl⟩ := readPacket_error _ _ hr; exact ⟨n, rfl⟩
    | ok r => obtain ⟨k, q⟩ := r; have := readPacket_wire hr; omega
  | succ f ih =>
    intro p h
    cases hr : readPacket b p with
    | error e => obtain ⟨n, rfl⟩ := readPacket_error _ _ hr; simp only [extractPackets, hr]; exact ⟨rfl, n, hr⟩
    | ok r =>
      obtain ⟨k, q⟩ := r; have := readPacket_wire hr
      simp only [extractPackets, hr]
      exact ⟨q, hr, ih q (by omega)⟩

theorem parseStream_chain (b : Bytes) : ∃ ks q, PacketChain b ks 0 q ∧ parseStream b = (ks, b.drop q) :=
  ⟨_, _, extractPackets_chain b b.length 0 (by omega), rfl⟩

theorem PacketChain.le {b} : ∀ {ks p q}, PacketChain b ks p q → p ≤ b.length → q ≤ b.length
  | [], _, _, h, hp => by rw [h.1]; exact hp
  | _ :: _, _, _, ⟨_, e, h⟩, _ => h.le (readPacket_wire e).2.2

theorem PacketChain.ge {b} : ∀ {ks p q}, PacketChain b ks p q → p ≤ q
  | [], _, _, h => by rw [h.1]
  | _ :: _, _, _, ⟨_, e, h⟩ => by have := h.ge; have := (readPacket_wire e); omega

theorem PacketChain.wire {b} : ∀ {ks p q}, PacketChain b ks p q → p ≤ b.length → (ks.map Packet.wire).flatten ++ b.drop q = b.drop p
  | [], _, _, h, hp => by rw [h.1]; rfl
  | k :: ks, p, q, ⟨p', e, h⟩, hp => by
    have hw := readPacket_wire e
    simp only [List.map_cons, List.flatten_cons, List.append_assoc]
    rw [h.wire hw.2.2, hw.1, span]
    conv_rhs => rw [← List.take_append_drop (p' - p) (b.drop p)]
    rw [List.drop_drop]; congr 2; omega

theorem PacketChain.shift {pre b} : ∀ {ks p q}, PacketChain b ks p q → PacketChain (pre ++ b) ks (pre.length + p) (pre.length + q)
  | [], p, q, ⟨e, n, h⟩ => by refine ⟨by rw [e], n, ?_⟩; rw [readPacket_shift, h]; rfl
  | _ :: _, p, q, ⟨p', e, h⟩ => by refine ⟨_, ?_, h.shift⟩; rw [readPacket_shift, e]; rfl

theorem PacketChain.append {a c} : ∀ {ks p q}, PacketChain a ks p q → p ≤ a.length → ∀ {ks' r}, PacketChain (a.drop q ++ c) ks' 0 r → PacketChain (a ++ c) (ks ++ ks') p (q + r)
  | [], p, q, ⟨e, _⟩, hp, ks', r, h => by
    subst e
    have := h.shift (pre := a.take q)
    rw [← List.append_assoc, List.take_append_drop, List.length_take, Nat.min_eq_left hp] at this
    exact this
  | _ :: _, p, q, ⟨p', e, h1⟩, hp, ks', r, h => ⟨p', readPacket_append e, h1.append (readPacket_wire e).2.2 h⟩

theorem streamPush_eq {s : State} (h : s.rfault = false) (c : Bytes) : ∃ ks q, PacketChain (s.rbuf ++ c) ks 0 q ∧
    (Bound.holds s.params.bufCap ((s.rbuf ++ c).length - q) → exec (.streamPush c) s =
      .next { s with rbuf := (s.rbuf ++ c).drop q, responses := s.responses ++ [.ok (.packets ks)] }) ∧
    ∀ cap, s.params.bufCap = .fin cap → cap < (s.rbuf ++ c).length - q →
        exec (.streamPush c) s = .next { s with
          rfault := true,
          responses := s.responses ++ [.err (.resource (.buffer ((s.rbuf ++ c).length - q) cap))] } := by
  obtain ⟨ks, q, h1, h2⟩ := parseStream_chain (s.rbuf ++ c)
  refine ⟨ks, q, h1, ?_, ?_⟩
  · intro hb
    rw [exec, execStreamPush, h, h2]
    rcases hc : s.params.bufCap with cap | _
    · rw [hc] at hb
      simp only [Bool.false_eq_true, if_false, List.length_drop]
      rw [if_neg (by simp only [Bound.holds] at hb; omega)]; rfl
    · rfl
  · intro cap hc hl
    rw [exec, execStreamPush, h, h2, hc]
    simp only [Bool.false_eq_true, if_false, List.length_drop]
    rw [if_pos hl]; rfl

theorem streamPush_ok {s u : State} {c : Bytes} {now : List Packet} (h : exec (.streamPush c) s = .next u)
    (hr : u.responses = s.responses ++ [.ok (.packets now)]) : s.rfault = false ∧ u.rfault = false ∧ u.params = s.params ∧
      ∃ q, PacketChain (s.rbuf ++ c) now 0 q ∧ u.rbuf = (s.rbuf ++ c).drop q := by
  by_cases hf : s.rfault = false
  · obtain ⟨ks, q, h1, h2, h3⟩ := streamPush_eq hf c
    by_cases hb : Bound.holds s.params.bufCap ((s.rbuf ++ c).length - q)
    · have := (h2 hb).symm.trans h
      cases this
      simp at hr
      subst hr
      exact ⟨hf, hf, rfl, q, h1, rfl⟩
    · exfalso
      rcases hc : s.params.bufCap with cap | _
      · rw [hc] at hb
        have := (h3 cap hc (by simp only [Bound.holds] at hb; omega)).symm.trans h
        cases this
        simp at hr
      · rw [hc] at hb; exact hb trivial
  · exfalso
    have : exec (.streamPush c) s = .next (s.raise .faulted) := by rw [exec, execStreamPush, if_pos (by simpa using hf)]
    have := this.symm.trans h
    cases this
    simp at hr

theorem chain_fits {a r : Bytes} {cap P : Nat} : ∀ {ks1 ks p p1}, PacketChain (a ++ r) ks p P → PacketChain a ks1 p p1 → (∀ k ∈ ks, (Packet.wire k).length ≤ cap + 1) →
    (a ++ r).length - P ≤ cap → a.length - p1 ≤ cap
  | [], [], p, p1, ⟨h, _⟩, ⟨h', _⟩, _, hl => by subst h; subst h'; simp at hl; omega
  | [], k :: ks, p, p1, ⟨p', h, _⟩, ⟨h', n, he⟩, hw, hl => by
    subst h'
    have hk := hw k (by simp)
    have hx := readPacket_wire h
    rw [hx.1, span] at hk
    simp only [List.length_take, List.length_drop] at hk
    by_cases hq : p' ≤ a.length
    · have := readPacket_of_append h hq; rw [he] at this; cases this
    · omega
  | k1 :: ks1, [], p, p1, ⟨h, n, he⟩, ⟨p', h', _⟩, _, _ => by have := readPacket_append (b := r) h'; rw [he] at this; cases this
  | k1 :: ks1, k :: ks, p, p1, ⟨p', h, h2⟩, ⟨p'', h', h2'⟩, hw, hl => by
    have := readPacket_append (b := r) h'; rw [h] at this; cases this
    exact chain_fits h2 h2' (fun k hk => hw k (by simp [hk])) hl

/-- All that STREAM.PUSH can do. -/
theorem streamPush_cases (c : Bytes) (s : State) : Gives (.streamPush c) s (.err .faulted) ∧ s.rfault = true ∨
    s.rfault = false ∧ ((∃ ks q, PacketChain (s.rbuf ++ c) ks 0 q ∧ Bound.holds s.params.bufCap ((s.rbuf ++ c).length - q) ∧ exec (.streamPush c) s = .next { s with
          rbuf := (s.rbuf ++ c).drop q, responses := s.responses ++ [.ok (.packets ks)] }) ∨
      ∃ held cap, exec (.streamPush c) s = .next { s with rfault := true, responses := s.responses ++ [.err (.resource (.buffer held cap))] }) := by
  by_cases h : s.rfault = false
  · refine .inr ⟨h, ?_⟩
    obtain ⟨ks, q, h1, h2, h3⟩ := streamPush_eq h c
    by_cases hb : Bound.holds s.params.bufCap ((s.rbuf ++ c).length - q)
    · exact .inl ⟨ks, q, h1, hb, h2 hb⟩
    · rcases hc : s.params.bufCap with cap | _
      · rw [hc] at hb
        exact .inr ⟨_, _, (h3 cap hc (by simp only [Bound.holds] at hb; omega))⟩
      · rw [hc] at hb; exact (hb trivial).elim
  · have h : s.rfault = true := by simpa using h
    exact .inl ⟨by rw [Gives, exec, execStreamPush, if_pos h]; rfl, h⟩

end Sys2Proof.Machine
end

