-- ==== Sys2Proof/Laws/PerInstr.lean ====
section
/-! SUPPORT. The per-instruction family EncodedOpcode: the encoder gives every instruction the format and the opcode of its
row of spec/opcode_table.json. -/

namespace Sys2Proof.Laws

open Sys2Proof.Machine

/-- The raw form of an instruction has the format and the fixed bits of the instruction's table row. -/
def EncodedOpcode.Statement (i : Instr) : Prop :=
  (encode i).format = (Instr.row i).1 ∧ (encode i).opcode = (Instr.row i).2

theorem EncodedOpcode.zzEnc a : EncodedOpcode.Statement (.zzEnc a) := ⟨rfl, rfl⟩

theorem EncodedOpcode.zzDec a : EncodedOpcode.Statement (.zzDec a) := ⟨rfl, rfl⟩

theorem EncodedOpcode.varintWr a : EncodedOpcode.Statement (.varintWr a) := ⟨rfl, rfl⟩

theorem EncodedOpcode.varintRd a b : EncodedOpcode.Statement (.varintRd a b) := ⟨rfl, rfl⟩

theorem EncodedOpcode.numWr a b : EncodedOpcode.Statement (.numWr a b) := ⟨rfl, rfl⟩

theorem EncodedOpcode.rdU8 a b : EncodedOpcode.Statement (.rdU8 a b) := ⟨rfl, rfl⟩

theorem EncodedOpcode.rdU16 a b : EncodedOpcode.Statement (.rdU16 a b) := ⟨rfl, rfl⟩

theorem EncodedOpcode.rdU32 a b : EncodedOpcode.Statement (.rdU32 a b) := ⟨rfl, rfl⟩

theorem EncodedOpcode.rdF64 a b : EncodedOpcode.Statement (.rdF64 a b) := ⟨rfl, rfl⟩

theorem EncodedOpcode.strWr a : EncodedOpcode.Statement (.strWr a) := ⟨rfl, rfl⟩

theorem EncodedOpcode.strRd a b : EncodedOpcode.Statement (.strRd a b) := ⟨rfl, rfl⟩

theorem EncodedOpcode.blobWr a : EncodedOpcode.Statement (.blobWr a) := ⟨rfl, rfl⟩

theorem EncodedOpcode.blobRd a b : EncodedOpcode.Statement (.blobRd a b) := ⟨rfl, rfl⟩

theorem EncodedOpcode.tagPack a : EncodedOpcode.Statement (.tagPack a) := ⟨rfl, rfl⟩

theorem EncodedOpcode.tagUnpack a : EncodedOpcode.Statement (.tagUnpack a) := ⟨rfl, rfl⟩

theorem EncodedOpcode.tdfEnc a : EncodedOpcode.Statement (.tdfEnc a) := ⟨rfl, rfl⟩

theorem EncodedOpcode.tdfDec a b : EncodedOpcode.Statement (.tdfDec a b) := ⟨rfl, rfl⟩

theorem EncodedOpcode.contentDec a : EncodedOpcode.Statement (.contentDec a) := ⟨rfl, rfl⟩

theorem EncodedOpcode.contentEnc a : EncodedOpcode.Statement (.contentEnc a) := ⟨rfl, rfl⟩

theorem EncodedOpcode.pktEnc a b c d e f : EncodedOpcode.Statement (.pktEnc a b c d e f) := ⟨rfl, rfl⟩

theorem EncodedOpcode.pktHdr a b : EncodedOpcode.Statement (.pktHdr a b) := ⟨rfl, rfl⟩

theorem EncodedOpcode.pktDec a b : EncodedOpcode.Statement (.pktDec a b) := ⟨rfl, rfl⟩

theorem EncodedOpcode.streamPush a : EncodedOpcode.Statement (.streamPush a) := ⟨rfl, rfl⟩

theorem EncodedOpcode.cfgWr a : EncodedOpcode.Statement (.cfgWr a) := ⟨rfl, rfl⟩

theorem EncodedOpcode.cfgRd : EncodedOpcode.Statement .cfgRd := ⟨rfl, rfl⟩

theorem EncodedOpcode.statRd : EncodedOpcode.Statement .statRd := ⟨rfl, rfl⟩

theorem EncodedOpcode.blockReset : EncodedOpcode.Statement .blockReset := ⟨rfl, rfl⟩

theorem EncodedOpcode.tdfInt a b : EncodedOpcode.Statement (.tdfInt a b) := by cases b <;> exact ⟨rfl, by first | rfl | exact headerType_headerWord _ _⟩

theorem EncodedOpcode.tdfString a b : EncodedOpcode.Statement (.tdfString a b) := by cases b <;> exact ⟨rfl, by first | rfl | exact headerType_headerWord _ _⟩

theorem EncodedOpcode.tdfBlob a b : EncodedOpcode.Statement (.tdfBlob a b) := by cases b <;> exact ⟨rfl, by first | rfl | exact headerType_headerWord _ _⟩

theorem EncodedOpcode.tdfStruct a b : EncodedOpcode.Statement (.tdfStruct a b) := by cases b <;> exact ⟨rfl, by first | rfl | exact headerType_headerWord _ _⟩

theorem EncodedOpcode.tdfList a b : EncodedOpcode.Statement (.tdfList a b) := by cases b <;> exact ⟨rfl, by first | rfl | exact headerType_headerWord _ _⟩

theorem EncodedOpcode.tdfPairList a b : EncodedOpcode.Statement (.tdfPairList a b) := by cases b <;> exact ⟨rfl, by first | rfl | exact headerType_headerWord _ _⟩

theorem EncodedOpcode.tdfUnion a b : EncodedOpcode.Statement (.tdfUnion a b) := by cases b <;> exact ⟨rfl, by first | rfl | exact headerType_headerWord _ _⟩

theorem EncodedOpcode.tdfVarIntList a b : EncodedOpcode.Statement (.tdfVarIntList a b) := by cases b <;> exact ⟨rfl, by first | rfl | exact headerType_headerWord _ _⟩

theorem EncodedOpcode.tdfPair a b : EncodedOpcode.Statement (.tdfPair a b) := by cases b <;> exact ⟨rfl, by first | rfl | exact headerType_headerWord _ _⟩

theorem EncodedOpcode.tdfTriple a b : EncodedOpcode.Statement (.tdfTriple a b) := by cases b <;> exact ⟨rfl, by first | rfl | exact headerType_headerWord _ _⟩

theorem EncodedOpcode.tdfFloat a b : EncodedOpcode.Statement (.tdfFloat a b) := by cases b <;> exact ⟨rfl, by first | rfl | exact headerType_headerWord _ _⟩

theorem EncodedOpcode.unionEmpty a b : EncodedOpcode.Statement (.unionEmpty a b) := by cases b <;> exact ⟨rfl, rfl⟩

theorem EncodedOpcode.elemInt a : EncodedOpcode.Statement (.elemInt a) := by cases a <;> exact ⟨rfl, rfl⟩

theorem EncodedOpcode.elemString a : EncodedOpcode.Statement (.elemString a) := by cases a <;> exact ⟨rfl, rfl⟩

theorem EncodedOpcode.elemStruct a : EncodedOpcode.Statement (.elemStruct a) := by cases a <;> exact ⟨rfl, rfl⟩

theorem EncodedOpcode.elemTriple a : EncodedOpcode.Statement (.elemTriple a) := by cases a <;> exact ⟨rfl, rfl⟩

theorem EncodedOpcode.elemFloat a : EncodedOpcode.Statement (.elemFloat a) := by cases a <;> exact ⟨rfl, rfl⟩

end Sys2Proof.Laws
end

