-- ==== Sys2Proof/Laws/Varint.lean ====
section
/-! SUPPORT. What the varint operations compute: the zigzag mapping (40_byte_cursor.md rules R100, R101), the groups a
write emits (R102, R103), the loop of a read (R104). -/

namespace Sys2Proof.Machine

/-! ## Zigzag -/

theorem zigzag_getLsbD (v : I64) (i : Nat) (hi : i < 64) :
    (zigzag v).getLsbD i = ((decide (i ≠ 0) && v.getLsbD (i - 1)) ^^ v.getLsbD 63) := by
  have hm : v.getLsbD 63 = decide (v.toInt < 0) := by
    rw [← BitVec.msb_eq_getLsbD_last v, BitVec.msb_eq_toInt]
  rw [hm, zigzag]
  by_cases h : v.toInt < 0
  · rw [if_pos h, BitVec.getLsbD_not, BitVec.getLsbD_shiftLeft]
    rcases Nat.eq_zero_or_pos i with rfl | h0
    · simp [h]
    · have : ¬ i = 0 := by omega
      have h1 : ¬ i < 1 := by omega
      simp [h, hi, this, h1]
  · rw [if_neg h, BitVec.getLsbD_shiftLeft]
    rcases Nat.eq_zero_or_pos i with rfl | h0
    · simp [h]
    · have : ¬ i = 0 := by omega
      have h1 : ¬ i < 1 := by omega
      simp [h, hi, this, h1]

theorem unzigzag_getLsbD (u : U64) (i : Nat) (hi : i < 64) :
    (unzigzag u).getLsbD i = (u.getLsbD (i + 1) ^^ u.getLsbD 0) := by
  rw [unzigzag]
  by_cases h : u.getLsbD 0 = true
  · rw [if_pos h, BitVec.getLsbD_not, BitVec.getLsbD_ushiftRight, h, Nat.add_comm]
    simp [hi]
  · rw [if_neg h, BitVec.getLsbD_ushiftRight, Nat.add_comm]
    simp only [Bool.not_eq_true] at h
    rw [h, Bool.xor_false]

/-- R101: the two mappings undo each other. -/
@[simp] theorem unzigzag_zigzag (v : I64) : unzigzag (zigzag v) = v := by
  apply BitVec.eq_of_getLsbD_eq
  intro i hi
  rw [unzigzag_getLsbD _ _ hi, zigzag_getLsbD v 0 (by omega)]
  by_cases h : i + 1 < 64
  · rw [zigzag_getLsbD v (i + 1) h]
    simp
  · have : i = 63 := by omega
    subst this
    rw [BitVec.getLsbD_of_ge _ _ (by omega)]
    simp

@[simp] theorem zigzag_unzigzag (u : U64) : zigzag (unzigzag u) = u := by
  apply BitVec.eq_of_getLsbD_eq
  intro i hi
  rw [zigzag_getLsbD _ _ hi, unzigzag_getLsbD u 63 (by omega), BitVec.getLsbD_of_ge u (63 + 1) (by omega)]
  rcases Nat.eq_zero_or_pos i with rfl | h0
  · simp
  · rw [unzigzag_getLsbD u (i - 1) (by omega), Nat.sub_add_cancel h0]
    have : ¬ i = 0 := by omega
    simp [this]

theorem zigzag_injective {v w : I64} (h : zigzag v = zigzag w) : v = w := by
  rw [← unzigzag_zigzag v, h, unzigzag_zigzag]

/-- R100: the number of a zigzag code. -/
theorem zigzag_toNat (v : I64) : ((zigzag v).toNat : Int) = if v.toInt < 0 then -2 * v.toInt - 1 else 2 * v.toInt := by
  have hlt := v.isLt
  rw [zigzag]
  have hs : (v <<< 1).toNat = v.toNat * 2 % 2 ^ 64 := by
    rw [BitVec.toNat_shiftLeft, Nat.shiftLeft_eq]
  by_cases h : v.toInt < 0
  · rw [if_pos h, if_pos h, BitVec.toNat_not, hs]
    rw [BitVec.toInt_eq_toNat_cond] at h ⊢
    split at h
    · omega
    · rename_i h2
      rw [if_neg h2]
      omega
  · rw [if_neg h, if_neg h, hs]
    rw [BitVec.toInt_eq_toNat_cond] at h ⊢
    split at h
    · rename_i h2
      rw [if_pos h2]
      omega
    · omega

/-- A non-negative number is carried as its double (30_encoding.md rule R62). -/
theorem toInt_of_length {n : Nat} (h : n < 2 ^ 63) : (BitVec.ofNat 64 n).toInt = n := by
  rw [BitVec.toInt_eq_toNat_cond, BitVec.toNat_ofNat]
  omega

/-! ## Bytes and groups -/

theorem payload_toNat (b : Byte) : (b &&& 0x7F).toNat = b.toNat % 128 := by
  rw [BitVec.toNat_and]
  exact Nat.and_two_pow_sub_one_eq_mod b.toNat 7

theorem getLsbD_seven (b : Byte) : b.getLsbD 7 = decide (128 ≤ b.toNat) := by
  have := b.isLt
  rw [BitVec.getLsbD, Nat.testBit_eq_decide_div_mod_eq]
  congr 1
  rw [eq_iff_iff]
  omega

@[simp] theorem base128_nil : base128 [] = 0 := rfl

theorem base128_cons (x : Byte) (b : Bytes) : base128 (x :: b) = x.toNat % 128 + 128 * base128 b := by
  simp [base128, Nat.ofDigits_cons]

theorem base128_append (a b : Bytes) : base128 (a ++ b) = base128 a + 128 ^ a.length * base128 b := by
  simp [base128, Nat.ofDigits_append]

theorem base128_lt (b : Bytes) : base128 b < 128 ^ b.length := by
  induction b with
  | nil => simp
  | cons x b ih =>
    rw [base128_cons, List.length_cons, pow_succ]
    omega

theorem low_group (u : U64) : (u.setWidth 8 &&& (0x7F : Byte)).toNat = u.toNat % 128 := by
  rw [payload_toNat, BitVec.toNat_setWidth]
  omega

theorem continued_group (u : U64) :
    (u.setWidth 8 &&& 0x7F ||| 0x80 : Byte).toNat = 128 + u.toNat % 128 := by
  rw [← low_group]
  have h : (u.setWidth 8 &&& (0x7F : Byte)).toNat < 2 ^ 7 := by rw [low_group]; omega
  rw [BitVec.toNat_or, Nat.or_comm]
  exact (Nat.two_pow_add_eq_or_of_lt h 1).symm

theorem shift_seven (u : U64) : (u >>> 7).toNat = u.toNat / 128 := by
  rw [BitVec.toNat_ushiftRight, Nat.shiftRight_eq_div_pow]

theorem shift_seven_eq_zero (u : U64) : u >>> 7 = 0 ↔ u.toNat < 128 := by
  rw [← BitVec.toNat_inj, shift_seven, show (0 : U64).toNat = 0 from rfl]
  omega

/-- R102, R103: what `groups` emits: the shortest base-128 sequence, bit 7 set on all bytes but the last. -/
theorem groups_spec : ∀ (n : Nat) (u : U64), u.toNat < 128 ^ (n + 1) →
    base128 (groups (n + 1) u) = u.toNat ∧ 1 ≤ (groups (n + 1) u).length ∧ (groups (n + 1) u).length ≤ n + 1 ∧
    (∀ (i : Nat) (x : Byte), (groups (n + 1) u)[i]? = some x →
      x.getLsbD 7 = decide (i + 1 < (groups (n + 1) u).length)) ∧
    ∀ k, 1 ≤ k → u.toNat < 128 ^ k → (groups (n + 1) u).length ≤ k := by
  intro n
  induction n with
  | zero =>
    intro u hu
    have hz : u >>> 7 = 0 := (shift_seven_eq_zero u).2 (by simpa using hu)
    rw [groups]
    rw [if_pos hz]
    refine ⟨?_, by simp, by simp, ?_, ?_⟩
    · rw [base128_cons, low_group]; simp only [base128_nil]; omega
    · intro i x hx
      match i, hx with
      | 0, hx =>
        simp only [List.getElem?_cons_zero, Option.some.injEq] at hx
        subst hx
        rw [getLsbD_seven, low_group]
        simp only [List.length_cons, List.length_nil]
        congr 1
        rw [eq_iff_iff]
        omega
      | i + 1, hx => simp at hx
    · intro k hk _
      simpa using hk
  | succ n ih =>
    intro u hu
    rw [groups]
    by_cases hz : u >>> 7 = 0
    · rw [if_pos hz]
      have hlt := (shift_seven_eq_zero u).1 hz
      refine ⟨?_, by simp, by simp, ?_, ?_⟩
      · rw [base128_cons, low_group]; simp only [base128_nil]; omega
      · intro i x hx
        match i, hx with
        | 0, hx =>
          simp only [List.getElem?_cons_zero, Option.some.injEq] at hx
          subst hx
          rw [getLsbD_seven, low_group]
          simp only [List.length_cons, List.length_nil]
          congr 1
          rw [eq_iff_iff]
          omega
        | i + 1, hx => simp at hx
      · intro k hk _
        simpa using hk
    · rw [if_neg hz]
      have hge : 128 ≤ u.toNat := by
        rw [shift_seven_eq_zero] at hz; omega
      have hlt : (u >>> 7).toNat < 128 ^ (n + 1) := by
        rw [shift_seven, Nat.div_lt_iff_lt_mul (by norm_num)]
        rw [pow_succ] at hu
        exact hu
      obtain ⟨h1, h2, h3, h4, h5⟩ := ih (u >>> 7) hlt
      refine ⟨?_, by simp, by simpa using h3, ?_, ?_⟩
      · rw [base128_cons, continued_group, h1, shift_seven]; omega
      · intro i x hx
        match i, hx with
        | 0, hx =>
          simp only [List.getElem?_cons_zero, Option.some.injEq] at hx
          subst hx
          rw [getLsbD_seven, continued_group]
          simp only [List.length_cons]
          congr 1
          rw [eq_iff_iff]
          omega
        | i + 1, hx =>
          simp only [List.getElem?_cons_succ] at hx
          rw [h4 i x hx]
          simp only [List.length_cons, Nat.add_lt_add_iff_right]
      · intro k hk hlt
        match k, hk, hlt with
        | 1, _, hlt => omega
        | k + 2, _, hlt =>
          have := h5 (k + 1) (by omega) (by
            rw [shift_seven, Nat.div_lt_iff_lt_mul (by norm_num)]
            rw [pow_succ] at hlt
            exact hlt)
          simp only [List.length_cons]
          omega

/-- R102, R103: what VARINT.WR emits. -/
theorem varintBytes_spec (v : I64) :
    base128 (varintBytes v) = (zigzag v).toNat ∧ 1 ≤ (varintBytes v).length ∧ (varintBytes v).length ≤ 10 ∧
    (∀ (i : Nat) (x : Byte), (varintBytes v)[i]? = some x → x.getLsbD 7 = decide (i + 1 < (varintBytes v).length)) ∧
    ∀ k, 1 ≤ k → (zigzag v).toNat < 128 ^ k → (varintBytes v).length ≤ k :=
  groups_spec 9 (zigzag v) (lt_of_lt_of_le (zigzag v).isLt (by norm_num))

/-! ## The loop of VARINT.RD -/

/-- Adding a group to an accumulator that has only lower groups. -/
theorem add_group {m : Nat} {acc : U64} {b : Byte} {i : Nat} (hi : i ≤ 9) (ha : acc = BitVec.ofNat 64 m)
    (hm : m < 128 ^ i) (hb : i = 9 → b.toNat % 128 ≤ 1) :
    acc ||| ((b &&& 0x7F).setWidth 64 <<< (7 * i)) = BitVec.ofNat 64 (m + 128 ^ i * (b.toNat % 128)) := by
  have hpow : (128 : Nat) ^ i = 2 ^ (7 * i) := by
    rw [pow_mul]; rfl
  have hsum : m + 128 ^ i * (b.toNat % 128) < 2 ^ 64 := by
    by_cases h9 : i = 9
    · subst h9
      have := hb rfl
      norm_num at hm ⊢
      omega
    · have h8 : i ≤ 8 := by omega
      have h1 : (128 : Nat) ^ i ≤ 128 ^ 8 := Nat.pow_le_pow_right (by norm_num) h8
      have h2 : b.toNat % 128 ≤ 127 := by omega
      calc m + 128 ^ i * (b.toNat % 128) ≤ m + 128 ^ i * 127 := by gcongr
        _ < 128 ^ i * 128 := by omega
        _ ≤ 128 ^ 8 * 128 := by gcongr
        _ < 2 ^ 64 := by norm_num
  apply BitVec.eq_of_toNat_eq
  subst ha
  have hm64 : m < 2 ^ 64 := by omega
  have hs : 128 ^ i * (b.toNat % 128) < 2 ^ 64 := by omega
  rw [BitVec.toNat_or, BitVec.toNat_ofNat, BitVec.toNat_ofNat, BitVec.toNat_shiftLeft, BitVec.toNat_setWidth,
    payload_toNat, Nat.mod_eq_of_lt hm64, Nat.mod_eq_of_lt hsum, Nat.shiftLeft_eq,
    Nat.mod_eq_of_lt (a := b.toNat % 128) (by omega), ← hpow, Nat.mul_comm (b.toNat % 128), Nat.mod_eq_of_lt hs, hpow,
    Nat.or_comm, ← Nat.two_pow_add_eq_or_of_lt (by rw [← hpow]; exact hm), Nat.add_comm]

theorem take_succ_drop {inp : Bytes} {pos n : Nat} {b : Byte} (h : inp[pos + n]? = some b) :
    (inp.drop pos).take (n + 1) = (inp.drop pos).take n ++ [b] := by
  rw [List.take_add_one]
  simp [h]

/-- The groups that `n` continued bytes stand for have `n` bytes. -/
theorem Continued.le_length {inp : Bytes} {pos n : Nat} (h : Continued inp pos n) (hp : pos ≤ inp.length) :
    pos + n ≤ inp.length := by
  cases n with
  | zero => simpa using hp
  | succ n =>
    obtain ⟨b, hb, _⟩ := h n (by omega)
    have := (List.getElem?_eq_some_iff.1 hb).1
    omega

theorem Continued.mono {inp : Bytes} {pos n m : Nat} (h : Continued inp pos n) (hm : m ≤ n) : Continued inp pos m :=
  fun i hi => h i (by omega)

theorem continued_take_length {inp : Bytes} {pos n : Nat} (h : Continued inp pos n) :
    ((inp.drop pos).take n).length = n := by
  cases n with
  | zero => simp
  | succ n =>
    obtain ⟨b, hb, _⟩ := h n (by omega)
    have := (List.getElem?_eq_some_iff.1 hb).1
    simp only [List.length_take, List.length_drop]
    omega

/-- R104: after `n` continued bytes the loop stands at `pos + n` with their groups accumulated. -/
theorem varintLoop_continued (inp : Bytes) (pos : Nat) : ∀ n ≤ 9, Continued inp pos n →
    varintLoop inp 10 pos 0 =
      varintLoop inp (10 - n) (pos + n) (BitVec.ofNat 64 (base128 ((inp.drop pos).take n))) := by
  intro n
  induction n with
  | zero => intro _ _; simp
  | succ n ih =>
    intro hn hc
    have hc' := hc.mono (Nat.le_succ n)
    obtain ⟨b, hb, h7⟩ := hc n (by omega)
    rw [ih (by omega) hc', show 10 - n = (9 - n) + 1 by omega, varintLoop, hb]
    dsimp only
    have hlen := continued_take_length hc'
    have hlt := base128_lt ((inp.drop pos).take n)
    rw [hlen] at hlt
    rw [if_neg (by omega), if_pos h7, show 9 - (9 - n) = n by omega, add_group (i := n) (by omega) rfl hlt (by omega),
      take_succ_drop hb, base128_append, hlen, base128_cons, base128_nil, show 10 - (n + 1) = 9 - n by omega]
    simp only [Nat.mul_zero, Nat.add_zero, Nat.add_assoc]

/-- R104, the exit with OK: a last byte whose payload fits. -/
theorem varintLoop_ok {inp : Bytes} {pos n : Nat} {b : Byte} (hn : n ≤ 9) (hc : Continued inp pos n)
    (hb : inp[pos + n]? = some b) (h7 : b.getLsbD 7 = false) (h9 : n = 9 → b.toNat % 128 ≤ 1) :
    varintLoop inp 10 pos 0 =
      (BitVec.ofNat 64 (base128 ((inp.drop pos).take (n + 1))), .ok, pos + n + 1) := by
  have hlen := continued_take_length hc
  have hlt := base128_lt ((inp.drop pos).take n)
  rw [hlen] at hlt
  rw [varintLoop_continued inp pos n hn hc, show 10 - n = (9 - n) + 1 by omega, varintLoop, hb]
  dsimp only
  rw [if_neg (by rw [payload_toNat]; omega), if_neg (by rw [h7]; exact Bool.false_ne_true), show 9 - (9 - n) = n by omega,
    add_group (i := n) hn rfl hlt h9, take_succ_drop hb, base128_append, hlen, base128_cons, base128_nil]
  simp only [Nat.mul_zero, Nat.add_zero]

/-- R104, the exit with SHORT: the input ends. -/
theorem varintLoop_short {inp : Bytes} {pos n : Nat} (hn : n ≤ 9) (hc : Continued inp pos n)
    (he : pos + n = inp.length) :
    varintLoop inp 10 pos 0 = (BitVec.ofNat 64 (base128 (inp.drop pos)), .short, pos + n) := by
  rw [varintLoop_continued inp pos n hn hc, show 10 - n = (9 - n) + 1 by omega, varintLoop,
    List.getElem?_eq_none (by omega)]
  have : (inp.drop pos).take n = inp.drop pos := List.take_of_length_le (by simp; omega)
  rw [this]

/-- R104, the exit with GUARD before the tenth payload is added. -/
theorem varintLoop_guard_payload {inp : Bytes} {pos : Nat} {b : Byte} (hc : Continued inp pos 9)
    (hb : inp[pos + 9]? = some b) (h : 1 < b.toNat % 128) :
    varintLoop inp 10 pos 0 = (BitVec.ofNat 64 (base128 ((inp.drop pos).take 9)), .guard, pos + 10) := by
  rw [varintLoop_continued inp pos 9 (by omega) hc, show 10 - 9 = 0 + 1 by omega, varintLoop, hb]
  dsimp only
  rw [if_pos ⟨rfl, by rw [payload_toNat]; exact h⟩]

/-- R104, the exit with GUARD after the tenth payload is added: the continuation bit is still set. -/
theorem varintLoop_guard_continued {inp : Bytes} {pos : Nat} {b : Byte} (hc : Continued inp pos 9)
    (hb : inp[pos + 9]? = some b) (h : b.toNat % 128 ≤ 1) (h7 : b.getLsbD 7 = true) :
    varintLoop inp 10 pos 0 = (BitVec.ofNat 64 (base128 ((inp.drop pos).take 10)), .guard, pos + 10) := by
  have hlen := continued_take_length hc
  have hlt := base128_lt ((inp.drop pos).take 9)
  rw [hlen] at hlt
  rw [varintLoop_continued inp pos 9 (by omega) hc, show 10 - 9 = 0 + 1 by omega, varintLoop, hb]
  dsimp only
  rw [if_neg (by rw [payload_toNat]; omega), if_pos h7, varintLoop, show 9 - 0 = 9 by omega,
    add_group (i := 9) (by omega) rfl hlt (fun _ => h), take_succ_drop (n := 9) hb, base128_append, hlen,
    base128_cons, base128_nil]
  simp only [Nat.mul_zero, Nat.add_zero, Nat.add_assoc, Nat.reduceAdd]

/-! ## Writing and reading back -/

/-- R106, the round trip: a written varint reads back with status OK, in either mode and whatever follows. -/
theorem readVarint_varintBytes (strict : Bool) (pre : Bytes) (v : I64) (rest : Bytes) :
    readVarint strict (pre ++ (varintBytes v ++ rest)) pre.length =
      .ok (zigzag v, .ok, pre.length + (varintBytes v).length) := by
  obtain ⟨h1, h2, h3, h4, _⟩ := varintBytes_spec v
  have hget : ∀ i, i < (varintBytes v).length →
      (pre ++ (varintBytes v ++ rest))[pre.length + i]? = (varintBytes v)[i]? := by
    intro i hi
    rw [List.getElem?_append_right (by omega), Nat.add_sub_cancel_left, List.getElem?_append_left hi]
  have hc : Continued (pre ++ (varintBytes v ++ rest)) pre.length ((varintBytes v).length - 1) := by
    intro i hi
    have hlt : i < (varintBytes v).length := by omega
    refine ⟨(varintBytes v)[i], ?_, ?_⟩
    · rw [hget i hlt, List.getElem?_eq_getElem hlt]
    · rw [h4 i _ (List.getElem?_eq_getElem hlt)]
      simp; omega
  have hlast : (varintBytes v).length - 1 < (varintBytes v).length := by omega
  have hb : (pre ++ (varintBytes v ++ rest))[pre.length + ((varintBytes v).length - 1)]? =
      some ((varintBytes v)[(varintBytes v).length - 1]) := by
    rw [hget _ hlast, List.getElem?_eq_getElem hlast]
  have h7 : ((varintBytes v)[(varintBytes v).length - 1]).getLsbD 7 = false := by
    rw [h4 _ _ (List.getElem?_eq_getElem hlast)]
    simp; omega
  have htake : ((pre ++ (varintBytes v ++ rest)).drop pre.length).take ((varintBytes v).length - 1 + 1) =
      varintBytes v := by
    rw [Nat.sub_add_cancel h2]
    simp
  have h9 : (varintBytes v).length - 1 = 9 → ((varintBytes v)[(varintBytes v).length - 1]).toNat % 128 ≤ 1 := by
    intro h
    generalize ((varintBytes v)[(varintBytes v).length - 1]) = b at hb
    have hsplit := htake
    rw [take_succ_drop hb] at hsplit
    have hu : base128 (varintBytes v) < 2 ^ 64 := h1 ▸ (zigzag v).isLt
    rw [← hsplit, base128_append, base128_cons, base128_nil, continued_take_length hc, h,
      show (128 : Nat) ^ 9 = 2 ^ 63 by norm_num] at hu
    omega
  rw [readVarint]
  rw [varintLoop_ok (by omega) hc hb h7 h9, htake, h1]
  have he : pre.length + ((varintBytes v).length - 1) + 1 = pre.length + (varintBytes v).length := by omega
  rw [he]
  cases strict <;> simp

end Sys2Proof.Machine
end

