-- ==== Sys2Proof/Laws/Reads.lean ====
section
/-! SUPPORT. Reading back what was written: each read of 40_byte_cursor.md on the bytes of the write it undoes. -/

namespace Sys2Proof.Machine

/-- The reader finds `a` in the bytes `w`, wherever they stand and whatever follows, and stops right after them. -/
def ReadsBack {α : Type} (read : Bytes → Nat → Except Error (α × Nat)) (w : Bytes) (a : α) : Prop :=
  ∀ pre rest, read (pre ++ (w ++ rest)) pre.length = .ok (a, pre.length + w.length)

/-- Two reads in a row read back two writes in a row. -/
theorem ReadsBack.bind {α β γ : Type} {r : Bytes → Nat → Except Error (α × Nat)}
    {f : Bytes → Nat → Except Error (β × Nat)} {g : α → β → γ} {w v : Bytes} {a : α} {b : β}
    (h : ReadsBack r w a) (h' : ReadsBack f v b) :
    ReadsBack (fun inp p => do
      let (a, p) ← r inp p
      let (b, p) ← f inp p
      return (g a b, p)) (w ++ v) (g a b) := by
  intro pre rest
  have h1 := h pre (v ++ rest)
  have h2 := h' (pre ++ w) rest
  simp only [List.append_assoc, List.length_append] at h1 h2 ⊢
  rw [h1, bind_ok]
  dsimp only
  rw [h2, bind_ok]
  simp only [pure_eq_ok, Nat.add_assoc]

/-- A read whose result is repackaged. -/
theorem ReadsBack.map {α β : Type} {r : Bytes → Nat → Except Error (α × Nat)} {w : Bytes} {a : α} (g : α → β)
    (h : ReadsBack r w a) :
    ReadsBack (fun inp p => do
      let (a, p) ← r inp p
      return (g a, p)) w (g a) := by
  intro pre rest
  dsimp only
  rw [h pre rest]
  rfl

theorem span_at (pre w rest : Bytes) : span (pre ++ (w ++ rest)) pre.length w.length = w := by simp [span]

theorem readFixed_back (w : Bytes) : ReadsBack (fun inp p => readFixed inp p w.length) w (beValue w) := by
  intro pre rest
  dsimp only
  rw [readFixed, if_neg (by simp only [List.length_append]; omega), span_at]

theorem readU8_back (b : Byte) : ReadsBack readU8 [b] b := by
  have h := (readFixed_back [b]).map (fun x => BitVec.ofNat 8 x)
  rw [show BitVec.ofNat 8 (beValue [b]) = b by simp [beValue]] at h
  exact h

theorem readU32_back (w : U32) : ReadsBack readU32 (beBytes 4 w.toNat) w := by
  have h := (readFixed_back (beBytes 4 w.toNat)).map (fun x => BitVec.ofNat 32 x)
  rw [beValue_beBytes, Nat.mod_eq_of_lt (by have := w.isLt; omega), BitVec.ofNat_toNat, BitVec.setWidth_eq] at h
  simp only [beBytes_length] at h
  exact h

theorem readF64_back (w : U64) : ReadsBack readF64 (beBytes 8 w.toNat) w := by
  have h := (readFixed_back (beBytes 8 w.toNat)).map (fun x => BitVec.ofNat 64 x)
  rw [beValue_beBytes, Nat.mod_eq_of_lt (by have := w.isLt; omega), BitVec.ofNat_toNat, BitVec.setWidth_eq] at h
  simp only [beBytes_length] at h
  exact h

theorem readInt_back (strict : Bool) (v : I64) : ReadsBack (readInt strict) (varintBytes v) v := by
  intro pre rest
  rw [readInt, readVarint_varintBytes, bind_ok]
  simp only [unzigzag_zigzag, pure_eq_ok]

theorem lengthBytes_of_lt {n : Nat} (h : n < 2 ^ 63) : lengthBytes n = varintBytes (BitVec.ofNat 64 n) := if_pos h

theorem readLen_back (strict : Bool) {n : Nat} (h : n < 2 ^ 63) : ReadsBack (readLen strict) (lengthBytes n) n := by
  intro pre rest
  rw [lengthBytes_of_lt h, readLen, readInt_back strict _ pre rest, bind_ok]
  dsimp only
  rw [toInt_of_length h, if_neg (by omega)]
  rfl

theorem readBlob_back (strict : Bool) {b : Bytes} (h : b.length < 2 ^ 63) :
    ReadsBack (readBlob strict) (blobBytes b) b := by
  intro pre rest
  have h1 := readLen_back strict h pre (b ++ rest)
  have h2 := span_at (pre ++ lengthBytes b.length) b rest
  simp only [blobBytes, List.append_assoc, List.length_append] at h1 h2 ⊢
  rw [readBlob, h1, bind_ok]
  dsimp only
  rw [if_neg (by simp only [List.length_append]; omega), h2]
  simp only [pure_eq_ok, Nat.add_assoc]

theorem stringBytes_eq (b : Bytes) : stringBytes b = blobBytes (stringBody b) := rfl

theorem stringBody_length_le (b : Bytes) : (stringBody b).length ≤ b.length + 1 := by
  unfold stringBody; split <;> simp

/-- R115: the body of a written string reads as the string without the one trailing NUL it may have had. -/
theorem bodyString_stringBody (b : Bytes) : bodyString (stringBody b) = bodyString b := by
  by_cases h : b.getLast? = some 0
  · simp only [stringBody, bodyString, if_pos h]
  · simp only [stringBody, bodyString, if_neg h]
    simp

theorem readString_back (strict : Bool) {b : Bytes} (h : b.length + 1 < 2 ^ 63) :
    ReadsBack (readString strict) (stringBytes b) (bodyString b) := by
  rw [← bodyString_stringBody, stringBytes_eq]
  exact (readBlob_back strict (lt_of_le_of_lt (stringBody_length_le b) h)).map bodyString

end Sys2Proof.Machine
end

