-- ==== Sys2Proof/Laws/TdfRecursion.lean ====
section
/-! SUPPORT. The decoder of 42_tdf_value.md without its fuel: every reader goes forward, the fuel never matters when it is
at least the bytes left, and `readTdf` obeys the recursion of rule R169 (notes/assumptions/10.md; rule R192). -/

namespace Sys2Proof.Machine

/-- A recursive step that goes forward and stays within the input. -/
def StepAdvances (inp : Bytes) (rec : TdfReader) : Prop := ∀ q d, Advances inp q 0 (rec q d)

/-- Two recursive steps that agree from `p` on. -/
def AgreeFrom (p : Nat) (rec rec' : TdfReader) : Prop := ∀ q d, p ≤ q → rec q d = rec' q d

theorem AgreeFrom.mono {p p' : Nat} {rec rec' : TdfReader} (h : AgreeFrom p rec rec') (hp : p ≤ p') :
    AgreeFrom p' rec rec' := fun q d hq => h q d (by omega)

/-! ## Going forward -/

theorem readChildren_advances {inp : Bytes} {rec : TdfReader} (h : StepAdvances inp rec) (d : Nat) :
    ∀ fuel p, Advances inp p 1 (readChildren inp rec d fuel p) := by
  intro fuel
  induction fuel with
  | zero => intro p a q hq; cases hq
  | succ fuel ih =>
    intro p a q hq
    rw [readChildren] at hq
    split at hq
    · cases hq
    · rename_i b hb
      have hlt : p < inp.length := (List.getElem?_eq_some_iff.1 hb).1
      split at hq
      · simp only [Except.ok.injEq, Prod.mk.injEq] at hq; omega
      · obtain ⟨⟨c, p'⟩, hc, hq⟩ := bind_eq_ok.1 hq
        obtain ⟨⟨cs, q'⟩, hcs, hq⟩ := bind_eq_ok.1 hq
        simp only [pure_eq_ok, Except.ok.injEq, Prod.mk.injEq] at hq
        have h1 := h p d _ _ hc
        have h2 := ih p' _ _ hcs
        omega

theorem readBody_advances {env : DecEnv} {rec : TdfReader} (h : StepAdvances env.inp rec) (p d : Nat)
    {f : Bool} {cs : Tdfs} {q : Nat} (hq : readBody env rec p d = .ok (f, cs, q)) :
    p + 1 ≤ q ∧ (p ≤ env.inp.length → q ≤ env.inp.length) := by
  obtain ⟨u, _, hq⟩ := bind_eq_ok.1 hq
  dsimp only at hq
  obtain ⟨⟨cs', q'⟩, hcs, hq⟩ := bind_eq_ok.1 hq
  simp only [pure_eq_ok, Except.ok.injEq, Prod.mk.injEq] at hq
  have h1 := readChildren_advances h _ _ _ _ _ hcs
  split at h1
  · rename_i hm
    have hm' : env.inp[p]? = some startMarker := by simpa using hm
    have := (List.getElem?_eq_some_iff.1 hm').1
    omega
  · omega

theorem readThree_advances (env : DecEnv) (p : Nat) {a b c : I64} {q : Nat}
    (hq : readThree env p = .ok (a, b, c, q)) : p ≤ q ∧ (p ≤ env.inp.length → q ≤ env.inp.length) := by
  obtain ⟨⟨a', p1⟩, h1, hq⟩ := bind_eq_ok.1 hq
  obtain ⟨⟨b', p2⟩, h2, hq⟩ := bind_eq_ok.1 hq
  obtain ⟨⟨c', p3⟩, h3, hq⟩ := bind_eq_ok.1 hq
  simp only [pure_eq_ok, Except.ok.injEq, Prod.mk.injEq] at hq
  have h1 := readInt_advances _ _ _ _ _ h1
  have h2 := readInt_advances _ _ _ _ _ h2
  have h3 := readInt_advances _ _ _ _ _ h3
  omega

theorem readElem_advances {env : DecEnv} {rec : TdfReader} (h : StepAdvances env.inp rec) (k : Kind) (p d : Nat) :
    Advances env.inp p 0 (readElem env rec k p d) := by
  intro e q hq
  cases k with
  | int =>
    obtain ⟨⟨v, p1⟩, h1, hq⟩ := bind_eq_ok.1 hq
    simp only [pure_eq_ok, Except.ok.injEq, Prod.mk.injEq] at hq
    have := readInt_advances _ _ _ _ _ h1
    omega
  | string =>
    obtain ⟨⟨v, p1⟩, h1, hq⟩ := bind_eq_ok.1 hq
    simp only [pure_eq_ok, Except.ok.injEq, Prod.mk.injEq] at hq
    have := readString_advances _ _ _ _ _ h1
    omega
  | struct =>
    obtain ⟨⟨f, cs, p1⟩, h1, hq⟩ := bind_eq_ok.1 hq
    simp only [pure_eq_ok, Except.ok.injEq, Prod.mk.injEq] at hq
    have := readBody_advances h _ _ h1
    omega
  | triple =>
    obtain ⟨⟨a, b, c, p1⟩, h1, hq⟩ := bind_eq_ok.1 hq
    simp only [pure_eq_ok, Except.ok.injEq, Prod.mk.injEq] at hq
    have := readThree_advances _ _ h1
    omega
  | float =>
    obtain ⟨⟨v, p1⟩, h1, hq⟩ := bind_eq_ok.1 hq
    simp only [pure_eq_ok, Except.ok.injEq, Prod.mk.injEq] at hq
    have := readF64_advances _ _ _ _ h1
    omega

theorem readElems_advances {inp : Bytes} {one : Nat → Except Error (Elem × Nat)} (h : ∀ q, Advances inp q 0 (one q)) :
    ∀ n p, Advances inp p 0 (readElems one n p) := by
  intro n
  induction n with
  | zero => intro p a q hq; simp only [readElems, Except.ok.injEq, Prod.mk.injEq] at hq; omega
  | succ n ih =>
    intro p a q hq
    obtain ⟨⟨e, p1⟩, h1, hq⟩ := bind_eq_ok.1 hq
    obtain ⟨⟨es, p2⟩, h2, hq⟩ := bind_eq_ok.1 hq
    simp only [pure_eq_ok, Except.ok.injEq, Prod.mk.injEq] at hq
    have h1 := h _ _ _ h1
    have h2 := ih _ _ _ h2
    omega

theorem readPairs_advances {inp : Bytes} {oneA oneB : Nat → Except Error (Elem × Nat)}
    (hA : ∀ q, Advances inp q 0 (oneA q)) (hB : ∀ q, Advances inp q 0 (oneB q)) :
    ∀ n p {as bs : Elems} {q : Nat}, readPairs oneA oneB n p = .ok (as, bs, q) →
      p ≤ q ∧ (p ≤ inp.length → q ≤ inp.length) := by
  intro n
  induction n with
  | zero => intro p as bs q hq; simp only [readPairs, Except.ok.injEq, Prod.mk.injEq] at hq; omega
  | succ n ih =>
    intro p as bs q hq
    obtain ⟨⟨a, p1⟩, h1, hq⟩ := bind_eq_ok.1 hq
    obtain ⟨⟨b, p2⟩, h2, hq⟩ := bind_eq_ok.1 hq
    obtain ⟨⟨as', bs', p3⟩, h3, hq⟩ := bind_eq_ok.1 hq
    simp only [pure_eq_ok, Except.ok.injEq, Prod.mk.injEq] at hq
    have h1 := hA _ _ _ h1
    have h2 := hB _ _ _ h2
    have h3 := ih _ h3
    omega

theorem readInts_advances (env : DecEnv) : ∀ n p, Advances env.inp p 0 (readInts env n p) := by
  intro n
  induction n with
  | zero => intro p a q hq; simp only [readInts, Except.ok.injEq, Prod.mk.injEq] at hq; omega
  | succ n ih =>
    intro p a q hq
    obtain ⟨⟨e, p1⟩, h1, hq⟩ := bind_eq_ok.1 hq
    obtain ⟨⟨es, p2⟩, h2, hq⟩ := bind_eq_ok.1 hq
    simp only [pure_eq_ok, Except.ok.injEq, Prod.mk.injEq] at hq
    have h1 := readInt_advances _ _ _ _ _ h1
    have h2 := ih _ _ _ h2
    omega

theorem readCount_advances (env : DecEnv) (p : Nat) : Advances env.inp p 0 (readCount env p) := by
  intro a q hq
  obtain ⟨⟨n, p1⟩, h1, hq⟩ := bind_eq_ok.1 hq
  obtain ⟨u, _, hq⟩ := bind_eq_ok.1 hq
  simp only [pure_eq_ok, Except.ok.injEq, Prod.mk.injEq] at hq
  have := readLen_advances _ _ _ _ _ h1
  omega

/-- A subtype byte is read exactly when it is there and names a kind. -/
theorem readKind_eq_ok {env : DecEnv} {p q : Nat} {k : Kind} (h : readKind env p = .ok (k, q)) :
    ∃ b, readU8 env.inp p = .ok (b, q) ∧ Kind.ofByte b = some k := by
  obtain ⟨⟨b, p1⟩, h1, hq⟩ := bind_eq_ok.1 h
  dsimp only at hq
  split at hq
  · cases hq
  · rename_i k' hk
    simp only [pure_eq_ok, Except.ok.injEq, Prod.mk.injEq] at hq
    obtain ⟨rfl, rfl⟩ := hq
    exact ⟨b, h1, hk⟩

theorem readKind_advances (env : DecEnv) (p : Nat) : Advances env.inp p 1 (readKind env p) := by
  intro k q hq
  obtain ⟨b, h1, _⟩ := readKind_eq_ok hq
  exact readU8_advances _ _ _ _ h1

theorem readPayload_advances {env : DecEnv} {rec : TdfReader} (h : StepAdvances env.inp rec) (tag : U24) (p d : Nat)
    (ty : TdfType) : Advances env.inp p 0 (readPayload env rec tag p d ty) := by
  intro x q hq
  cases ty with
  | int =>
    obtain ⟨⟨v, p1⟩, h1, hq⟩ := bind_eq_ok.1 hq
    simp only [pure_eq_ok, Except.ok.injEq, Prod.mk.injEq] at hq
    have := readInt_advances _ _ _ _ _ h1
    omega
  | string =>
    obtain ⟨⟨v, p1⟩, h1, hq⟩ := bind_eq_ok.1 hq
    simp only [pure_eq_ok, Except.ok.injEq, Prod.mk.injEq] at hq
    have := readString_advances _ _ _ _ _ h1
    omega
  | blob =>
    obtain ⟨⟨v, p1⟩, h1, hq⟩ := bind_eq_ok.1 hq
    simp only [pure_eq_ok, Except.ok.injEq, Prod.mk.injEq] at hq
    have := readBlob_advances _ _ _ _ _ h1
    omega
  | struct =>
    obtain ⟨⟨f, cs, p1⟩, h1, hq⟩ := bind_eq_ok.1 hq
    simp only [pure_eq_ok, Except.ok.injEq, Prod.mk.injEq] at hq
    have := readBody_advances h _ _ h1
    omega
  | list =>
    obtain ⟨⟨k, p1⟩, h1, hq⟩ := bind_eq_ok.1 hq
    obtain ⟨⟨n, p2⟩, h2, hq⟩ := bind_eq_ok.1 hq
    obtain ⟨⟨es, p3⟩, h3, hq⟩ := bind_eq_ok.1 hq
    simp only [pure_eq_ok, Except.ok.injEq, Prod.mk.injEq] at hq
    have h1 := readKind_advances _ _ _ _ h1
    have h2 := readCount_advances _ _ _ _ h2
    have h3 := readElems_advances (fun q => readElem_advances h k q d) _ _ _ _ h3
    omega
  | pairList =>
    obtain ⟨⟨ka, p1⟩, h1, hq⟩ := bind_eq_ok.1 hq
    obtain ⟨⟨kb, p2⟩, h2, hq⟩ := bind_eq_ok.1 hq
    obtain ⟨⟨n, p3⟩, h3, hq⟩ := bind_eq_ok.1 hq
    obtain ⟨⟨as, bs, p4⟩, h4, hq⟩ := bind_eq_ok.1 hq
    simp only [pure_eq_ok, Except.ok.injEq, Prod.mk.injEq] at hq
    have h1 := readKind_advances _ _ _ _ h1
    have h2 := readKind_advances _ _ _ _ h2
    have h3 := readCount_advances _ _ _ _ h3
    have h4 := readPairs_advances (fun q => readElem_advances h ka q d) (fun q => readElem_advances h kb q d) _ _ h4
    omega
  | union =>
    obtain ⟨⟨c, p1⟩, h1, hq⟩ := bind_eq_ok.1 hq
    have h1 := readU8_advances _ _ _ _ h1
    dsimp only at hq
    split at hq
    · simp only [pure_eq_ok, Except.ok.injEq, Prod.mk.injEq] at hq; omega
    · obtain ⟨⟨x', p2⟩, h2, hq⟩ := bind_eq_ok.1 hq
      simp only [pure_eq_ok, Except.ok.injEq, Prod.mk.injEq] at hq
      have h2 := h _ _ _ _ h2
      omega
  | varIntList =>
    obtain ⟨⟨n, p1⟩, h1, hq⟩ := bind_eq_ok.1 hq
    obtain ⟨⟨vs, p2⟩, h2, hq⟩ := bind_eq_ok.1 hq
    simp only [pure_eq_ok, Except.ok.injEq, Prod.mk.injEq] at hq
    have h1 := readCount_advances _ _ _ _ h1
    have h2 := readInts_advances _ _ _ _ _ h2
    omega
  | pair =>
    obtain ⟨⟨a, p1⟩, h1, hq⟩ := bind_eq_ok.1 hq
    obtain ⟨⟨b, p2⟩, h2, hq⟩ := bind_eq_ok.1 hq
    simp only [pure_eq_ok, Except.ok.injEq, Prod.mk.injEq] at hq
    have h1 := readInt_advances _ _ _ _ _ h1
    have h2 := readInt_advances _ _ _ _ _ h2
    omega
  | triple =>
    obtain ⟨⟨a, b, c, p1⟩, h1, hq⟩ := bind_eq_ok.1 hq
    simp only [pure_eq_ok, Except.ok.injEq, Prod.mk.injEq] at hq
    have := readThree_advances _ _ h1
    omega
  | float =>
    obtain ⟨⟨v, p1⟩, h1, hq⟩ := bind_eq_ok.1 hq
    simp only [pure_eq_ok, Except.ok.injEq, Prod.mk.injEq] at hq
    have := readF64_advances _ _ _ _ h1
    omega

/-- What a value read in one step was: a depth within the bound, a header of a known type, a payload after it. -/
theorem readValue_eq_ok {env : DecEnv} {rec : TdfReader} {pos d p : Nat} {x : Tdf}
    (h : readValue env rec pos d = .ok (x, p)) :
    Bound.holds env.params.maxDepth d ∧ ∃ w ty, readU32 env.inp pos = .ok (w, pos + 4) ∧
      TdfType.ofByte (headerType w) = some ty ∧ readPayload env rec (headerTag w) (pos + 4) d ty = .ok (x, p) := by
  obtain ⟨u, h0, h⟩ := bind_eq_ok.1 h
  obtain ⟨⟨w, p1⟩, h1, h⟩ := bind_eq_ok.1 h
  obtain ⟨_, rfl⟩ := readU32_eq_ok h1
  dsimp only at h
  split at h
  · cases h
  · rename_i ty hty
    exact ⟨checkDepth_eq_ok_iff.1 h0, w, ty, h1, hty, h⟩

theorem readValue_advances {env : DecEnv} {rec : TdfReader} (h : StepAdvances env.inp rec) (pos d : Nat) :
    Advances env.inp pos 4 (readValue env rec pos d) := by
  intro x p hx
  obtain ⟨_, w, ty, h1, _, h2⟩ := readValue_eq_ok hx
  have h1 := readU32_advances _ _ _ _ h1
  have h2 := readPayload_advances h _ _ _ _ _ _ h2
  omega

/-- Every value read takes at least its four header bytes. -/
theorem readTdfFuel_advances (env : DecEnv) : ∀ fuel pos d, Advances env.inp pos 4 (readTdfFuel env fuel pos d) := by
  intro fuel
  induction fuel with
  | zero =>
    intro pos d x p h
    obtain ⟨_, _, h⟩ := bind_eq_ok.1 h
    cases h
  | succ fuel ih =>
    intro pos d
    exact readValue_advances (fun q d' => (ih q d').weaken (by omega)) pos d

/-! ## The fuel does not matter -/

theorem readChildren_congr {inp : Bytes} {rec rec' : TdfReader} {d : Nat} (h : StepAdvances inp rec) :
    ∀ fuel p, AgreeFrom p rec rec' → readChildren inp rec d fuel p = readChildren inp rec' d fuel p := by
  intro fuel
  induction fuel with
  | zero => intro p _; rfl
  | succ fuel ih =>
    intro p hag
    rw [readChildren, readChildren]
    split
    · rfl
    · split
      · rfl
      · rw [← hag p d (by omega)]
        cases hr : rec p d with
        | error e => rfl
        | ok r =>
          have := (h p d r.1 r.2 hr).1
          simp only [bind_ok]
          rw [ih r.2 (hag.mono (by omega))]

theorem readBody_congr {env : DecEnv} {rec rec' : TdfReader} (h : StepAdvances env.inp rec) {p d : Nat}
    (hag : AgreeFrom p rec rec') : readBody env rec p d = readBody env rec' p d := by
  unfold readBody
  dsimp only
  rw [readChildren_congr h _ _ (hag.mono (by split <;> omega))]

theorem readElem_congr {env : DecEnv} {rec rec' : TdfReader} (h : StepAdvances env.inp rec) {k : Kind} {p d : Nat}
    (hag : AgreeFrom p rec rec') : readElem env rec k p d = readElem env rec' k p d := by
  cases k <;> simp only [readElem]
  rw [readBody_congr h hag]

theorem readElems_congr {inp : Bytes} {one one' : Nat → Except Error (Elem × Nat)} (h : ∀ q, Advances inp q 0 (one q)) :
    ∀ n p, (∀ q, p ≤ q → one q = one' q) → readElems one n p = readElems one' n p := by
  intro n
  induction n with
  | zero => intro p _; rfl
  | succ n ih =>
    intro p hag
    rw [readElems, readElems, ← hag p (by omega)]
    cases hr : one p with
    | error e => rfl
    | ok r =>
      have := (h p r.1 r.2 hr).1
      simp only [bind_ok]
      rw [ih r.2 (fun q hq => hag q (by omega))]

theorem readPairs_congr {inp : Bytes} {a a' b b' : Nat → Except Error (Elem × Nat)}
    (hA : ∀ q, Advances inp q 0 (a q)) (hB : ∀ q, Advances inp q 0 (b q)) :
    ∀ n p, (∀ q, p ≤ q → a q = a' q) → (∀ q, p ≤ q → b q = b' q) → readPairs a b n p = readPairs a' b' n p := by
  intro n
  induction n with
  | zero => intro p _ _; rfl
  | succ n ih =>
    intro p ha hb
    rw [readPairs, readPairs, ← ha p (by omega)]
    cases hr : a p with
    | error e => rfl
    | ok r =>
      have h1 := (hA p r.1 r.2 hr).1
      simp only [bind_ok]
      rw [← hb r.2 (by omega)]
      cases hr' : b r.2 with
      | error e => rfl
      | ok r' =>
        have h2 := (hB _ r'.1 r'.2 hr').1
        simp only [bind_ok]
        rw [ih r'.2 (fun q hq => ha q (by omega)) (fun q hq => hb q (by omega))]

theorem readPayload_congr {env : DecEnv} {rec rec' : TdfReader} (h : StepAdvances env.inp rec) {tag : U24} {p d : Nat}
    {ty : TdfType} (hag : AgreeFrom p rec rec') :
    readPayload env rec tag p d ty = readPayload env rec' tag p d ty := by
  cases ty <;> simp only [readPayload]
  case struct => unfold readStructPayload; rw [readBody_congr h hag]
  case list =>
    unfold readListPayload
    cases h1 : readKind env p with
    | error e => rfl
    | ok r1 =>
      have a1 := (readKind_advances env p _ _ h1).1
      simp only [bind_ok]
      cases h2 : readCount env r1.2 with
      | error e => rfl
      | ok r2 =>
        have a2 := (readCount_advances env _ _ _ h2).1
        simp only [bind_ok]
        rw [readElems_congr (fun q => readElem_advances h _ q d) _ _
          (fun q hq => readElem_congr h (hag.mono (by omega)))]
  case pairList =>
    unfold readPairListPayload
    cases h1 : readKind env p with
    | error e => rfl
    | ok r1 =>
      have a1 := (readKind_advances env p _ _ h1).1
      simp only [bind_ok]
      cases h2 : readKind env r1.2 with
      | error e => rfl
      | ok r2 =>
        have a2 := (readKind_advances env _ _ _ h2).1
        simp only [bind_ok]
        cases h3 : readCount env r2.2 with
        | error e => rfl
        | ok r3 =>
          have a3 := (readCount_advances env _ _ _ h3).1
          simp only [bind_ok]
          rw [readPairs_congr (fun q => readElem_advances h _ q d) (fun q => readElem_advances h _ q d) _ _
            (fun q hq => readElem_congr h (hag.mono (by omega))) (fun q hq => readElem_congr h (hag.mono (by omega)))]
  case union =>
    unfold readUnionPayload
    cases h1 : readU8 env.inp p with
    | error e => rfl
    | ok r1 =>
      have a1 := (readU8_advances env.inp p _ _ h1).1
      simp only [bind_ok]
      rw [hag r1.2 (d + 1) (by omega)]

theorem readTdfFuel_stepAdvances (env : DecEnv) (fuel : Nat) : StepAdvances env.inp (readTdfFuel env fuel) :=
  fun q d => (readTdfFuel_advances env fuel q d).weaken (by omega)

/-- No header word is left to read where fewer than four bytes are left. -/
theorem readValue_short {env : DecEnv} {rec : TdfReader} {pos d : Nat} (h : env.inp.length - pos < 4) :
    readValue env rec pos d = (do checkDepth env.params d pos; .error (.truncated pos)) := by
  have h4 : readU32 env.inp pos = .error (.truncated pos) := by
    unfold readU32
    rw [(readFixed_eq_error (e := .truncated pos)).2 ⟨h, rfl⟩]
    rfl
  unfold readValue
  rw [h4]
  rfl

/-- The header read comes first: the rest of a value is read only from four bytes further on. -/
theorem readValue_congr {env : DecEnv} {rec rec' : TdfReader} (h : StepAdvances env.inp rec) {pos d : Nat}
    (hag : AgreeFrom (pos + 4) rec rec') : readValue env rec pos d = readValue env rec' pos d := by
  unfold readValue
  cases h1 : readU32 env.inp pos with
  | error e => rfl
  | ok r =>
    obtain ⟨w, p⟩ := r
    obtain ⟨_, rfl⟩ := readU32_eq_ok h1
    simp only [bind_ok]
    cases TdfType.ofByte (headerType w) with
    | none => rfl
    | some ty => simp only; rw [readPayload_congr h hag]

/-- Fuel at least the bytes left gives one and the same answer. -/
theorem readTdfFuel_eq (env : DecEnv) : ∀ f g pos d, env.inp.length - pos ≤ f → env.inp.length - pos ≤ g →
    readTdfFuel env f pos d = readTdfFuel env g pos d := by
  intro f
  induction f with
  | zero =>
    intro g pos d hf hg
    cases g with
    | zero => rfl
    | succ g => rw [readTdfFuel, readTdfFuel, readValue_short (by omega)]
  | succ f ih =>
    intro g pos d hf hg
    cases g with
    | zero => rw [readTdfFuel, readTdfFuel, readValue_short (by omega)]
    | succ g =>
      rw [readTdfFuel, readTdfFuel]
      by_cases hshort : env.inp.length - pos < 4
      · rw [readValue_short hshort, readValue_short hshort]
      · exact readValue_congr (readTdfFuel_stepAdvances env f) (fun q d' hq => ih g q d' (by omega) (by omega))

theorem readTdf_advances (env : DecEnv) (pos d : Nat) : Advances env.inp pos 4 (readTdf env pos d) :=
  readTdfFuel_advances env _ pos d

theorem readTdf_stepAdvances (env : DecEnv) : StepAdvances env.inp (readTdf env) :=
  fun q d => (readTdf_advances env q d).weaken (by omega)

/-- R169 as the spec writes it: `dec` calls itself. -/
theorem readTdf_eq (env : DecEnv) (pos d : Nat) : readTdf env pos d = readValue env (readTdf env) pos d := by
  have h1 : readTdf env pos d = readTdfFuel env (env.inp.length - pos + 1) pos d :=
    readTdfFuel_eq env _ _ pos d (by omega) (by omega)
  rw [h1, readTdfFuel]
  exact readValue_congr (readTdfFuel_stepAdvances env _) (fun q d' hq => readTdfFuel_eq env _ _ q d' (by omega) (by omega))

/-- The child loop with more fuel than bytes left gives one and the same answer. -/
theorem readChildren_fuel (env : DecEnv) (d : Nat) : ∀ f g p, env.inp.length - p ≤ f → env.inp.length - p ≤ g →
    readChildren env.inp (readTdf env) d f p = readChildren env.inp (readTdf env) d g p := by
  intro f
  induction f with
  | zero =>
    intro g p hf hg
    cases g with
    | zero => rfl
    | succ g =>
      have : env.inp[p]? = none := List.getElem?_eq_none (by omega)
      rw [readChildren, readChildren, this]
  | succ f ih =>
    intro g p hf hg
    cases g with
    | zero =>
      have : env.inp[p]? = none := List.getElem?_eq_none (by omega)
      rw [readChildren, readChildren, this]
    | succ g =>
      rw [readChildren, readChildren]
      split
      · rfl
      · split
        · rfl
        · cases hr : readTdf env p d with
          | error e => rfl
          | ok r =>
            have := (readTdf_advances env p d r.1 r.2 hr).1
            simp only [bind_ok]
            rw [ih g r.2 (by omega) (by omega)]

end Sys2Proof.Machine
end

