-- ==== Sys2Proof/Laws/RowReads.lean ====
section
/-! SUPPORT. All that the parts of a decode can answer, value or error (42_tdf_value.md R164, R165, R175 to R180; R274):
runs of varints, counts, Struct bodies, elements, pairs, subtype bytes. -/

namespace Sys2Proof.Machine

theorem responseOf_map_ok {α : Type} {r : Except Error α} {f : α → Result} {x : Result} :
    Response.ok x = responseOf (r.map f) ↔ ∃ a, r = .ok a ∧ f a = x := by
  cases r with
  | error e => simp [Except.map]
  | ok a => simp [Except.map]; exact eq_comm

theorem responseOf_map_error {α : Type} {r : Except Error α} {f : α → Result} {e : Error} :
    Response.err e = responseOf (r.map f) ↔ r = .error e := by
  cases r with
  | error e' => simp [Except.map]; exact eq_comm
  | ok a => simp [Except.map]

/-! ## Varints, counts -/

theorem gives_elemInt {s : State} {inp : Bytes} {p d : Nat} {v : I64} {q : Nat} :
    Gives (.elemInt (.read inp p d)) s (.ok (.elemAt (.int v) q)) ↔ readInt s.strictVarint inp p = .ok (v, q) := by
  rw [gives_of_done (o := (readElem (s.decEnv inp) (readTdf (s.decEnv inp)) .int p d).map fun r => .elemAt r.1 r.2) rfl]
  simp only [readElem, State.decEnv]
  cases readInt s.strictVarint inp p with
  | error e => simp [Except.map]
  | ok r => simp [Except.map]; constructor <;> (rintro ⟨rfl, rfl⟩; simp)

theorem gives_elemInt_error {s : State} {inp : Bytes} {p d : Nat} {e : Error} :
    Gives (.elemInt (.read inp p d)) s (.err e) ↔ readInt s.strictVarint inp p = .error e := by
  rw [gives_of_done (o := (readElem (s.decEnv inp) (readTdf (s.decEnv inp)) .int p d).map fun r => .elemAt r.1 r.2) rfl,
    responseOf_map_error]
  simp only [readElem, State.decEnv]
  cases readInt s.strictVarint inp p <;> simp

theorem intsAt_cons {s : State} {inp : Bytes} {v : I64} {vs : List I64} {p q : Nat} : IntsAt s inp (v :: vs) p q ↔
    ∃ p', readInt s.strictVarint inp p = .ok (v, p') ∧ IntsAt s inp vs p' q := by
  simp only [IntsAt, gives_elemInt]

theorem intsFail_zero {s : State} {inp : Bytes} {p : Nat} {e : Error} : ¬ IntsFail s inp 0 p e := by
  rintro ⟨vs, p', h, -⟩
  exact Nat.not_lt_zero _ h

/-- The first of several varints fails, or it is read and one of the others fails. -/
theorem intsFail_succ {s : State} {inp : Bytes} {n p : Nat} {e : Error} : IntsFail s inp (n + 1) p e ↔
    readInt s.strictVarint inp p = .error e ∨
      ∃ v p', readInt s.strictVarint inp p = .ok (v, p') ∧ IntsFail s inp n p' e := by
  simp only [IntsFail, gives_elemInt_error]
  constructor
  · rintro ⟨vs, p', hl, h, he⟩
    cases vs with
    | nil => cases h; exact .inl he
    | cons v vs =>
      obtain ⟨p1, h1, h2⟩ := intsAt_cons.1 h
      exact .inr ⟨v, p1, h1, vs, p', by simpa using hl, h2, he⟩
  · rintro (he | ⟨v, p1, h1, vs, p', hl, h2, he⟩)
    · exact ⟨[], p, by simp, rfl, he⟩
    · exact ⟨v :: vs, p', by simpa using hl, intsAt_cons.2 ⟨p1, h1, h2⟩, he⟩

/-- All that a run of varints can read. -/
theorem readInts_iff {s : State} {inp : Bytes} : ∀ (vs : List I64) (n p q : Nat),
    readInts (s.decEnv inp) n p = .ok (vs, q) ↔ vs.length = n ∧ IntsAt s inp vs p q
  | [], 0, p, q => by simp [readInts, IntsAt]; exact eq_comm
  | [], n + 1, p, q => by
    simp only [readInts, bind_eq_ok]
    simp
  | v :: vs, 0, p, q => by simp [readInts]
  | v :: vs, n + 1, p, q => by
    simp only [readInts, bind_eq_ok, intsAt_cons]
    constructor
    · rintro ⟨⟨v', p1⟩, h1, ⟨vs', p2⟩, h2, h3⟩
      simp at h3
      obtain ⟨⟨rfl, rfl⟩, rfl⟩ := h3
      have := (readInts_iff vs' n p1 p2).1 h2
      exact ⟨by simp [this.1], p1, h1, this.2⟩
    · rintro ⟨hl, p1, h1, h2⟩
      exact ⟨_, h1, _, (readInts_iff vs n p1 q).2 ⟨by simpa using hl, h2⟩, rfl⟩

/-- All that a run of varints can fail with. -/
theorem readInts_error_iff {s : State} {inp : Bytes} {e : Error} : ∀ (n p : Nat),
    readInts (s.decEnv inp) n p = .error e ↔ IntsFail s inp n p e
  | 0, p => by simp [readInts, intsFail_zero]
  | n + 1, p => by
    simp only [readInts, bind_eq_error, intsFail_succ]
    constructor
    · rintro (h | ⟨⟨v, p1⟩, h1, h⟩)
      · exact .inl h
      · rcases h with h | ⟨_, _, h⟩
        · exact .inr ⟨v, p1, h1, (readInts_error_iff n p1).1 h⟩
        · cases h
    · rintro (h | ⟨v, p1, h1, h⟩)
      · exact .inl h
      · exact .inr ⟨_, h1, .inl ((readInts_error_iff n p1).2 h)⟩

theorem readLen_iff {b : Bool} {inp : Bytes} {p n q : Nat} : readLen b inp p = .ok (n, q) ↔
    ∃ v : I64, v.toInt = n ∧ readInt b inp p = .ok (v, q) := by
  simp only [readLen, bind_eq_ok]
  constructor
  · rintro ⟨⟨v, p1⟩, h1, h2⟩
    dsimp only at h2
    split at h2
    · cases h2
    · simp at h2
      obtain ⟨h2, rfl⟩ := h2
      exact ⟨v, by omega, h1⟩
  · rintro ⟨v, hv, h⟩
    exact ⟨_, h, by dsimp only; rw [if_neg (by omega), hv]; rfl⟩

theorem readCount_iff {s : State} {inp : Bytes} {n p q : Nat} : readCount (s.decEnv inp) p = .ok (n, q) ↔ CountAt s inp n p q := by
  simp only [readCount, bind_eq_ok, CountAt, intsAt_cons]
  constructor
  · rintro ⟨⟨n', q'⟩, h1, u, h2, h3⟩
    simp at h3
    obtain ⟨rfl, rfl⟩ := h3
    obtain ⟨v, hv, h⟩ := readLen_iff.1 h1
    exact ⟨checkCount_eq_ok_iff.1 h2, v, hv, q', h, rfl⟩
  · rintro ⟨hb, v, hv, p', h, hq⟩
    simp only [IntsAt] at hq
    subst hq
    exact ⟨_, readLen_iff.2 ⟨v, hv, h⟩, (), checkCount_eq_ok_iff.2 hb, rfl⟩

/-- All that a count can fail with. -/
theorem readCount_error_iff {s : State} {inp : Bytes} {p : Nat} {e : Error} :
    readCount (s.decEnv inp) p = .error e ↔ CountFails s inp p e := by
  simp only [CountFails, intsFail_succ, intsFail_zero, and_false, exists_false, or_false, IntsAt,
    gives_elemInt]
  cases hr : readInt s.strictVarint inp p with
  | error e' =>
    rw [readCount, readLen]
    simp only [State.decEnv, hr, bind_error]
    simp
  | ok r =>
    obtain ⟨v, q⟩ := r
    rw [readCount, readLen]
    simp only [State.decEnv, hr, bind_ok]
    by_cases hv : v.toInt < 0
    · simp only [if_pos hv, bind_error]
      constructor
      · intro h; cases h
        exact .inr ⟨v, q, ⟨q, rfl, rfl⟩, by rw [if_pos hv]⟩
      · rintro (h | ⟨w, q', ⟨_, h, rfl⟩, he⟩)
        · cases h
        · cases h; rw [if_pos hv] at he; rw [he]
    · simp only [if_neg hv, pure_eq_ok, bind_ok]
      by_cases hb : Bound.holds s.params.maxElems v.toInt.toNat
      · rw [checkCount_ok hb]
        simp only [bind_ok]
        constructor
        · intro h; cases h
        · rintro (h | ⟨w, q', ⟨_, h, rfl⟩, he⟩)
          · cases h
          · cases h; rw [if_neg hv] at he; exact absurd hb he.1
      · rw [checkCount_error hb]
        simp only [bind_error]
        constructor
        · intro h; cases h
          exact .inr ⟨v, q, ⟨q, rfl, rfl⟩, by rw [if_neg hv]; exact ⟨hb, rfl⟩⟩
        · rintro (h | ⟨w, q', ⟨_, h, rfl⟩, he⟩)
          · cases h
          · cases h; rw [if_neg hv] at he; rw [he.2]

theorem readThree_iff {s : State} {inp : Bytes} {p q : Nat} {a b c : I64} : readThree (s.decEnv inp) p = .ok (a, b, c, q) ↔ IntsAt s inp [a, b, c] p q := by
  simp only [readThree, bind_eq_ok, intsAt_cons]
  constructor
  · rintro ⟨⟨a', p1⟩, h1, ⟨b', p2⟩, h2, ⟨c', p3⟩, h3, h4⟩
    simp at h4
    obtain ⟨rfl, rfl, rfl, rfl⟩ := h4
    exact ⟨_, h1, _, h2, _, h3, rfl⟩
  · rintro ⟨p1, h1, p2, h2, p3, h3, rfl⟩
    exact ⟨_, h1, _, h2, _, h3, rfl⟩

theorem readThree_error_iff {s : State} {inp : Bytes} {p : Nat} {e : Error} :
    readThree (s.decEnv inp) p = .error e ↔ IntsFail s inp 3 p e := by
  simp only [readThree, bind_eq_error, intsFail_succ, intsFail_zero]
  constructor
  · rintro (h | ⟨⟨a, p1⟩, h1, h | ⟨⟨b, p2⟩, h2, h | ⟨⟨c, p3⟩, h3, h⟩⟩⟩)
    · exact .inl h
    · exact .inr ⟨_, _, h1, .inl h⟩
    · exact .inr ⟨_, _, h1, .inr ⟨_, _, h2, .inl h⟩⟩
    · cases h
  · rintro (h | ⟨a, p1, h1, h | ⟨b, p2, h2, h | ⟨_, _, _, h⟩⟩⟩)
    · exact .inl h
    · exact .inr ⟨_, h1, .inl h⟩
    · exact .inr ⟨_, h1, .inr ⟨_, h2, .inl h⟩⟩
    · exact h.elim

/-! ## Struct bodies -/

theorem decGives_ok {s : State} {inp : Bytes} {p d q : Nat} {x : Tdf} :
    DecGives s inp p d (.ok (.tdfAt x q)) ↔ readTdf (s.decEnv inp) p d = .ok (x, q) := by
  rw [DecGives, eq_comm, responseOf_map_ok]
  constructor
  · rintro ⟨⟨y, p'⟩, h, hx⟩
    cases hx
    exact h
  · intro h; exact ⟨_, h, rfl⟩

theorem decGives_err {s : State} {inp : Bytes} {p d : Nat} {e : Error} :
    DecGives s inp p d (.err e) ↔ readTdf (s.decEnv inp) p d = .error e := by
  rw [DecGives, eq_comm, responseOf_map_error]

/-- All that the child loop can read: children up to a terminator. -/
theorem readChildren_iff (s : State) (inp : Bytes) (d : Nat) : ∀ (cs : Tdfs) (fuel p q : Nat), inp.length - p ≤ fuel →
    (readChildren inp (readTdf (s.decEnv inp)) d fuel p = .ok (cs, q) ↔
      ∃ p', ChildrenAt s inp d cs p p' ∧ inp[p']? = some 0x00#8 ∧ q = p' + 1)
  | cs, 0, p, q, hf => by
    have hn : inp[p]? = none := List.getElem?_eq_none (by omega)
    cases cs <;> simp [readChildren, ChildrenAt, hn]
  | cs, fuel + 1, p, q, hf => by
    rw [readChildren]
    cases hb : inp[p]? with
    | none => cases cs <;> simp [ChildrenAt, hb]
    | some b =>
      dsimp only
      by_cases h0 : b = terminator
      · rw [if_pos h0]
        have h0' : b = 0x00#8 := h0
        cases cs with
        | nil => simp [ChildrenAt, hb, h0']; exact eq_comm
        | cons x xs => simp [ChildrenAt, hb, h0']
      · rw [if_neg h0]
        have h0' : ¬ b = 0x00#8 := h0
        cases cs with
        | nil =>
          simp only [bind_eq_ok, ChildrenAt]
          simp [hb, h0']
        | cons x xs =>
          simp only [bind_eq_ok, ChildrenAt, hb, decGives_ok]
          have hlt := (List.getElem?_eq_some_iff.1 hb).1
          constructor
          · rintro ⟨⟨x', p1⟩, h1, ⟨xs', p2⟩, h2, h3⟩
            simp at h3
            obtain ⟨⟨rfl, rfl⟩, rfl⟩ := h3
            have := (readTdf_advances _ p d _ _ h1).1
            obtain ⟨p', h4, h5⟩ := (readChildren_iff s inp d xs' fuel p1 p2 (by omega)).1 h2
            exact ⟨p', ⟨⟨b, rfl, h0'⟩, p1, h1, h4⟩, h5⟩
          · rintro ⟨p', ⟨_, p1, h1, h2⟩, h5⟩
            have := (readTdf_advances _ p d _ _ h1).1
            exact ⟨_, h1, _, (readChildren_iff s inp d xs fuel p1 q (by omega)).2 ⟨p', h2, h5⟩, rfl⟩

/-- How the child loop ends with an error after some children: the input ends, or the next child fails. -/
def ChildrenFail (s : State) (inp : Bytes) (d p : Nat) (e : Error) : Prop :=
  ∃ cs p', ChildrenAt s inp d cs p p' ∧ ((inp[p']? = none ∧ e = .truncated p') ∨
    (∃ b, inp[p']? = some b ∧ b ≠ 0x00#8) ∧ DecGives s inp p' d (.err e))

/-- All that the child loop can fail with. -/
theorem readChildren_error_iff (s : State) (inp : Bytes) (d : Nat) (e : Error) : ∀ (fuel p : Nat), inp.length - p ≤ fuel →
    (readChildren inp (readTdf (s.decEnv inp)) d fuel p = .error e ↔ ChildrenFail s inp d p e)
  | 0, p, hf => by
    have hn : inp[p]? = none := List.getElem?_eq_none (by omega)
    rw [readChildren]
    constructor
    · intro h; cases h
      exact ⟨.nil, p, rfl, .inl ⟨hn, rfl⟩⟩
    · rintro ⟨cs, p', hc, h⟩
      cases cs with
      | nil =>
        cases hc
        rcases h with ⟨_, rfl⟩ | ⟨⟨b, hb, _⟩, _⟩
        · rfl
        · rw [hn] at hb; cases hb
      | cons x xs => obtain ⟨⟨b, hb, _⟩, _⟩ := hc; rw [hn] at hb; cases hb
  | fuel + 1, p, hf => by
    rw [readChildren]
    cases hb : inp[p]? with
    | none =>
      dsimp only
      constructor
      · intro h; cases h
        exact ⟨.nil, p, rfl, .inl ⟨hb, rfl⟩⟩
      · rintro ⟨cs, p', hc, h⟩
        cases cs with
        | nil =>
          cases hc
          rcases h with ⟨_, rfl⟩ | ⟨⟨b, hb', _⟩, _⟩
          · rfl
          · rw [hb] at hb'; cases hb'
        | cons x xs => obtain ⟨⟨b, hb', _⟩, _⟩ := hc; rw [hb] at hb'; cases hb'
    | some b =>
      dsimp only
      have hlt := (List.getElem?_eq_some_iff.1 hb).1
      by_cases h0 : b = terminator
      · rw [if_pos h0]
        have h0' : b = 0x00#8 := h0
        constructor
        · intro h; cases h
        · rintro ⟨cs, p', hc, h⟩
          cases cs with
          | nil =>
            cases hc
            rcases h with ⟨hn, _⟩ | ⟨⟨b', hb', hne⟩, _⟩
            · rw [hb] at hn; cases hn
            · rw [hb] at hb'; cases hb'; exact absurd h0' hne
          | cons x xs =>
            obtain ⟨⟨b', hb', hne⟩, _⟩ := hc
            rw [hb] at hb'; cases hb'; exact absurd h0' hne
      · rw [if_neg h0, bind_eq_error]
        have h0' : ¬ b = 0x00#8 := h0
        constructor
        · rintro (h | ⟨⟨x, p1⟩, h1, h⟩)
          · exact ⟨.nil, p, rfl, .inr ⟨⟨b, hb, h0'⟩, decGives_err.2 h⟩⟩
          · rcases bind_eq_error.1 h with h | ⟨_, _, h⟩
            · have := (readTdf_advances _ p d _ _ h1).1
              obtain ⟨cs, p', hc, h⟩ := (readChildren_error_iff s inp d e fuel p1 (by omega)).1 h
              exact ⟨.cons x cs, p', ⟨⟨b, hb, h0'⟩, p1, decGives_ok.2 h1, hc⟩, h⟩
            · cases h
        · rintro ⟨cs, p', hc, h⟩
          cases cs with
          | nil =>
            cases hc
            rcases h with ⟨hn, _⟩ | ⟨_, h⟩
            · rw [hb] at hn; cases hn
            · exact .inl (decGives_err.1 h)
          | cons x xs =>
            obtain ⟨_, p1, h1, hc⟩ := hc
            rw [decGives_ok] at h1
            have := (readTdf_advances _ p d _ _ h1).1
            exact .inr ⟨_, h1, bind_eq_error.2 (.inl ((readChildren_error_iff s inp d e fuel p1 (by omega)).2 ⟨xs, p', hc, h⟩))⟩

theorem marker_iff {inp : Bytes} {p : Nat} {start2 : Bool} :
    decide (inp[p]? = some startMarker) = start2 ↔ (start2 = true ↔ inp[p]? = some 0x02#8) := by
  rw [Bool.eq_iff_iff, decide_eq_true_iff]
  exact Iff.comm

/-- All that a Struct body can read. -/
theorem readBody_iff {s : State} {inp : Bytes} {d p q : Nat} {start2 : Bool} {cs : Tdfs} :
    readBody (s.decEnv inp) (readTdf (s.decEnv inp)) p d = .ok (start2, cs, q) ↔ BodyAt s inp d start2 cs p q := by
  simp only [readBody, bind_eq_ok, BodyAt, ← marker_iff]
  constructor
  · rintro ⟨u, h1, ⟨cs', q'⟩, h2, h3⟩
    simp only [pure_eq_ok, Except.ok.injEq, Prod.mk.injEq] at h3
    obtain ⟨rfl, rfl, rfl⟩ := h3
    exact ⟨checkDepth_eq_ok_iff.1 h1, rfl, (readChildren_iff s inp (d + 1) _ _ _ _ (Nat.le_refl _)).1 h2⟩
  · rintro ⟨h1, rfl, h3⟩
    exact ⟨(), checkDepth_eq_ok_iff.2 h1, (cs, q), (readChildren_iff s inp (d + 1) _ _ _ _ (Nat.le_refl _)).2 h3, rfl⟩

/-- All that a Struct body can fail with. -/
theorem readBody_error_iff {s : State} {inp : Bytes} {d p : Nat} {e : Error} :
    readBody (s.decEnv inp) (readTdf (s.decEnv inp)) p d = .error e ↔ BodyFails s inp d p e := by
  by_cases hd : Bound.holds s.params.maxDepth d
  · rw [readBody, checkDepth_ok (p := (s.decEnv inp).params) hd, bind_ok]
    dsimp only
    rw [bind_eq_error]
    simp only [BodyFails, hd, not_true, false_and, false_or, true_and, ← marker_iff]
    constructor
    · rintro (h | ⟨_, _, h⟩)
      · obtain ⟨cs, p', h⟩ := (readChildren_error_iff s inp (d + 1) e _ _ (Nat.le_refl _)).1 h
        exact ⟨_, cs, p', rfl, h⟩
      · cases h
    · rintro ⟨_, cs, p', rfl, h⟩
      exact .inl ((readChildren_error_iff s inp (d + 1) e _ _ (Nat.le_refl _)).2 ⟨cs, p', h⟩)
  · rw [readBody, checkDepth_error (p := (s.decEnv inp).params) hd, bind_error]
    simp only [BodyFails, hd, not_false_iff, true_and, false_and, or_false, Except.error.injEq]
    exact eq_comm

/-! ## Elements -/

theorem gives_rowOfKind {s : State} {inp : Bytes} {p d : Nat} {k : Kind} {r : Response} :
    Gives (rowOfKind inp p d k) s r ↔
      r = responseOf ((readElem (s.decEnv inp) (readTdf (s.decEnv inp)) k p d).map fun x => .elemAt x.1 x.2) := by
  cases k <;> exact gives_of_done rfl _

theorem gives_rowOfKind_ok {s : State} {inp : Bytes} {p d q : Nat} {k : Kind} {e : Elem} :
    Gives (rowOfKind inp p d k) s (.ok (.elemAt e q)) ↔
      readElem (s.decEnv inp) (readTdf (s.decEnv inp)) k p d = .ok (e, q) := by
  rw [gives_rowOfKind, responseOf_map_ok]
  constructor
  · rintro ⟨⟨y, p'⟩, h, hx⟩
    cases hx
    exact h
  · intro h; exact ⟨_, h, rfl⟩

theorem gives_rowOfKind_err {s : State} {inp : Bytes} {p d : Nat} {k : Kind} {e : Error} :
    Gives (rowOfKind inp p d k) s (.err e) ↔ readElem (s.decEnv inp) (readTdf (s.decEnv inp)) k p d = .error e := by
  rw [gives_rowOfKind, responseOf_map_error]

/-- All that the elements of a List can read. -/
theorem readElems_iff (s : State) (inp : Bytes) (k : Kind) (d : Nat) : ∀ (es : Elems) (n p q : Nat),
    readElems (fun q => readElem (s.decEnv inp) (readTdf (s.decEnv inp)) k q d) n p = .ok (es, q) ↔
      (Elems.toList es).length = n ∧ ElemsAt s inp k d es p q
  | .nil, 0, p, q => by simp [readElems, ElemsAt, Elems.toList]; exact eq_comm
  | .nil, n + 1, p, q => by simp only [readElems, bind_eq_ok]; simp [Elems.toList]
  | .cons e es, 0, p, q => by simp [readElems, Elems.toList]
  | .cons e es, n + 1, p, q => by
    simp only [readElems, bind_eq_ok, ElemsAt, gives_rowOfKind_ok]
    constructor
    · rintro ⟨⟨v', p1⟩, h1, ⟨vs', p2⟩, h2, h3⟩
      simp at h3
      obtain ⟨⟨rfl, rfl⟩, rfl⟩ := h3
      have := (readElems_iff s inp k d vs' n p1 p2).1 h2
      exact ⟨by simp [this.1, Elems.toList], p1, h1, this.2⟩
    · rintro ⟨hl, p1, h1, h2⟩
      exact ⟨_, h1, _, (readElems_iff s inp k d es n p1 q).2 ⟨by simpa [Elems.toList] using hl, h2⟩, rfl⟩

/-- All that the elements of a List can fail with. -/
theorem readElems_error_iff (s : State) (inp : Bytes) (k : Kind) (d : Nat) (e : Error) : ∀ (n p : Nat),
    readElems (fun q => readElem (s.decEnv inp) (readTdf (s.decEnv inp)) k q d) n p = .error e ↔
      ElemsFail s inp k d n p e
  | 0, p => by simp [readElems, ElemsFail]
  | n + 1, p => by
    have ih := readElems_error_iff s inp k d e n
    simp only [ElemsFail, gives_rowOfKind_err] at ih ⊢
    rw [readElems, bind_eq_error]
    constructor
    · rintro (h | ⟨⟨x, p1⟩, h1, h⟩)
      · exact ⟨.nil, p, by simp [Elems.toList], rfl, h⟩
      · rcases bind_eq_error.1 h with h | ⟨_, _, h⟩
        · obtain ⟨es, p', hl, ha, h⟩ := (ih p1).1 h
          exact ⟨.cons x es, p', by simpa [Elems.toList] using hl, ⟨p1, gives_rowOfKind_ok.2 h1, ha⟩, h⟩
        · cases h
    · rintro ⟨es, p', hl, ha, h⟩
      cases es with
      | nil => cases ha; exact .inl h
      | cons x es =>
        obtain ⟨p1, h1, ha⟩ := ha
        exact .inr ⟨_, gives_rowOfKind_ok.1 h1, bind_eq_error.2 (.inl ((ih p1).2 ⟨es, p', by simpa [Elems.toList] using hl, ha, h⟩))⟩

/-- All that the pairs of a PairList can read. -/
theorem readPairs_iff (s : State) (inp : Bytes) (ka kb : Kind) (d : Nat) : ∀ (as bs : Elems) (n p q : Nat),
    readPairs (fun q => readElem (s.decEnv inp) (readTdf (s.decEnv inp)) ka q d)
      (fun q => readElem (s.decEnv inp) (readTdf (s.decEnv inp)) kb q d) n p = .ok (as, bs, q) ↔
      (Elems.toList as).length = n ∧ PairsAt s inp ka kb d as bs p q
  | .nil, .nil, 0, p, q => by simp [readPairs, PairsAt, Elems.toList]; exact eq_comm
  | .nil, .nil, n + 1, p, q => by simp only [readPairs, bind_eq_ok]; simp [Elems.toList]
  | .cons e es, _, 0, p, q => by simp [readPairs, Elems.toList]
  | .nil, .cons _ _, n, p, q => by cases n <;> simp only [readPairs, bind_eq_ok] <;> simp [PairsAt]
  | .cons _ _, .nil, n + 1, p, q => by simp only [readPairs, bind_eq_ok]; simp [PairsAt]
  | .cons a as, .cons b bs, n + 1, p, q => by
    simp only [readPairs, bind_eq_ok, PairsAt, gives_rowOfKind_ok]
    constructor
    · rintro ⟨⟨v', p1⟩, h1, ⟨w', p2⟩, h2, ⟨as', bs', p3⟩, h3, h4⟩
      simp at h4
      obtain ⟨⟨rfl, rfl⟩, ⟨rfl, rfl⟩, rfl⟩ := h4
      have := (readPairs_iff s inp ka kb d as' bs' n p2 p3).1 h3
      exact ⟨by simp [this.1, Elems.toList], p1, p2, h1, h2, this.2⟩
    · rintro ⟨hl, p1, p2, h1, h2, h3⟩
      exact ⟨_, h1, _, h2, _, (readPairs_iff s inp ka kb d as bs n p2 q).2 ⟨by simpa [Elems.toList] using hl, h3⟩, rfl⟩

/-- All that the pairs of a PairList can fail with. -/
theorem readPairs_error_iff (s : State) (inp : Bytes) (ka kb : Kind) (d : Nat) (e : Error) : ∀ (n p : Nat),
    readPairs (fun q => readElem (s.decEnv inp) (readTdf (s.decEnv inp)) ka q d)
      (fun q => readElem (s.decEnv inp) (readTdf (s.decEnv inp)) kb q d) n p = .error e ↔
      PairsFail s inp ka kb d n p e
  | 0, p => by simp [readPairs, PairsFail]
  | n + 1, p => by
    have ih := readPairs_error_iff s inp ka kb d e n
    simp only [PairsFail, gives_rowOfKind_err] at ih ⊢
    rw [readPairs, bind_eq_error]
    constructor
    · rintro (h | ⟨⟨x, p1⟩, h1, h⟩)
      · exact ⟨.nil, .nil, p, by simp [Elems.toList], rfl, .inl h⟩
      · rcases bind_eq_error.1 h with h | ⟨⟨y, p2⟩, h2, h⟩
        · exact ⟨.nil, .nil, p, by simp [Elems.toList], rfl, .inr ⟨x, p1, gives_rowOfKind_ok.2 h1, h⟩⟩
        · rcases bind_eq_error.1 h with h | ⟨_, _, h⟩
          · obtain ⟨as, bs, p', hl, ha, h⟩ := (ih p2).1 h
            exact ⟨.cons x as, .cons y bs, p', by simpa [Elems.toList] using hl,
              ⟨p1, p2, gives_rowOfKind_ok.2 h1, gives_rowOfKind_ok.2 h2, ha⟩, h⟩
          · cases h
    · rintro ⟨as, bs, p', hl, ha, h⟩
      cases as with
      | nil =>
        cases bs with
        | nil =>
          cases ha
          rcases h with h | ⟨x, p1, h1, h⟩
          · exact .inl h
          · exact .inr ⟨_, gives_rowOfKind_ok.1 h1, bind_eq_error.2 (.inl h)⟩
        | cons => exact ha.elim
      | cons x as =>
        cases bs with
        | nil => exact ha.elim
        | cons y bs =>
          obtain ⟨p1, p2, h1, h2, ha⟩ := ha
          exact .inr ⟨_, gives_rowOfKind_ok.1 h1, bind_eq_error.2 (.inr ⟨_, gives_rowOfKind_ok.1 h2,
            bind_eq_error.2 (.inl ((ih p2).2 ⟨as, bs, p', by simpa [Elems.toList] using hl, ha, h⟩))⟩)⟩

/-! ## Subtype bytes -/

theorem readU8_iff {inp : Bytes} {p q : Nat} {b : Byte} : readU8 inp p = .ok (b, q) ↔ inp[p]? = some b ∧ q = p + 1 := by
  simp only [readU8, bind_eq_ok]
  constructor
  · rintro ⟨⟨x, p1⟩, h1, h2⟩
    obtain ⟨h3, rfl, rfl⟩ := readFixed_eq_ok.1 h1
    simp at h2
    obtain ⟨rfl, rfl⟩ := h2
    have hlt : p < inp.length := by omega
    refine ⟨?_, rfl⟩
    rw [List.getElem?_eq_getElem hlt, span, List.drop_eq_getElem_cons hlt, List.take_succ_cons]
    simp [beValue]
  · rintro ⟨h, rfl⟩
    obtain ⟨hlt, rfl⟩ := List.getElem?_eq_some_iff.1 h
    refine ⟨_, readFixed_eq_ok.2 ⟨by omega, rfl, rfl⟩, ?_⟩
    rw [span, List.drop_eq_getElem_cons hlt, List.take_succ_cons]
    simp [beValue]

theorem kind_code_iff {b : Byte} {k : Kind} : Kind.ofByte b = some k ↔ b = k.code := by
  constructor
  · intro h
    revert h
    revert b
    cases k <;> decide
  · rintro rfl; cases k <;> rfl

theorem readKind_iff {env : DecEnv} {p q : Nat} {k : Kind} : readKind env p = .ok (k, q) ↔ env.inp[p]? = some k.code ∧ q = p + 1 := by
  constructor
  · intro h
    obtain ⟨b, h1, h2⟩ := readKind_eq_ok h
    rw [kind_code_iff] at h2
    subst h2
    exact readU8_iff.1 h1
  · intro h
    rw [readKind, readU8_iff.2 h, bind_ok]
    dsimp only
    rw [kind_code_iff.2 rfl]; rfl

theorem readU8_error_iff {inp : Bytes} {p : Nat} {e : Error} :
    readU8 inp p = .error e ↔ inp[p]? = none ∧ e = .truncated p := by
  rw [readU8, bind_eq_error]
  constructor
  · rintro (h | ⟨_, _, h⟩)
    · rw [readFixed_eq_error] at h
      exact ⟨List.getElem?_eq_none (by omega), h.2⟩
    · cases h
  · rintro ⟨h, rfl⟩
    have := List.getElem?_eq_none_iff.1 h
    exact .inl (readFixed_eq_error.2 ⟨by omega, rfl⟩)

theorem kind_ofByte_eq_none {b : Byte} : Kind.ofByte b = none ↔ b.toNat ∉ [0x00, 0x01, 0x03, 0x09, 0x0A] := by
  revert b; decide

/-- All that a subtype byte can fail with. -/
theorem readKind_error_iff {env : DecEnv} {p : Nat} {e : Error} : readKind env p = .error e ↔ SubtypeFails env.inp p e := by
  rw [readKind, bind_eq_error, SubtypeFails, readU8_error_iff]
  refine or_congr Iff.rfl ?_
  constructor
  · rintro ⟨⟨b, q⟩, h1, h⟩
    obtain ⟨g1, rfl⟩ := readU8_iff.1 h1
    dsimp only at h
    split at h
    · rename_i hk
      cases h
      exact ⟨b, g1, kind_ofByte_eq_none.1 hk, rfl⟩
    · cases h
  · rintro ⟨b, h1, hb, rfl⟩
    refine ⟨_, readU8_iff.2 ⟨h1, rfl⟩, ?_⟩
    dsimp only
    rw [kind_ofByte_eq_none.2 hb]

end Sys2Proof.Machine
end

