-- ==== Sys2Proof/Laws/Step.lean ====
section
/-! SUPPORT. What one instruction and one step can do. -/

namespace Sys2Proof.Machine

/-- An instruction that writes no state of R20 gives one response. -/
theorem gives_of_not_writesState (i : Instr) (s : State) (h : Instr.writesState i = false) : ∃ r, Gives i s r := by
  cases i <;> first | (simp [Instr.writesState] at h; done) | exact ⟨_, rfl⟩ | exact ⟨_, done_eq _ _⟩ | (rename_i o; cases o <;> exact ⟨_, done_eq _ _⟩)

theorem gives_same_of_not_writesState (i : Instr) (s s' : State) (h : Instr.writesState i = false) (hs : s.strictVarint = s'.strictVarint) (hp : s.params = s'.params) 
   (h2 : i ≠ .statRd) : ∃ r, Gives i s r ∧ Gives i s' r := by
  obtain ⟨b, f, st, p, q, rs⟩ := s
  obtain ⟨b', f', st', p', q', rs'⟩ := s'
  dsimp only at hs hp; subst hs hp
  cases i <;> first | (simp [Instr.writesState] at h; done) | exact absurd rfl h2 | exact ⟨_, rfl, rfl⟩ | exact ⟨_, done_eq _ _, done_eq _ _⟩ | (rename_i o; cases o <;> exact ⟨_, done_eq _ _, done_eq _ _⟩)

/-- All that a step can do. -/
theorem step_cases (s : State) : (s.port = [] ∧ step s = .next s) ∨ ∃ r rest, s.port = r :: rest ∧
    ((∃ e, (∀ h c, e ≠ .resource (.buffer h c)) ∧ fetchDecode s.params r = .error e ∧ step s = .next { s with port := rest, responses := s.responses ++ [.err e] }) ∨
     ∃ i, fetchDecode s.params r = .ok i ∧ step s = exec i { s with port := rest }) := by
  unfold step
  split
  · rename_i h; exact .inl ⟨h, rfl⟩
  · rename_i r rest h
    refine .inr ⟨r, rest, h, ?_⟩
    have ht : s.take = { s with port := rest } := by rw [State.take, h]; rfl
    cases hf : fetchDecode s.params r with
    | ok i => exact .inr ⟨i, rfl, by rw [ht]⟩
    | error e =>
      refine .inl ⟨e, ?_, rfl, by rw [ht]; rfl⟩
      rintro a b rfl
      rcases bind_eq_error.1 hf with h | ⟨raw, -, h⟩
      · cases r <;> simp only [fetch] at h
        · cases h
        · rcases bind_eq_error.1 h with h | ⟨_, _, h⟩
          · rw [checkDepth] at h; split at h <;> cases h
          · rcases bind_eq_error.1 h with h | ⟨_, _, h⟩
            · rcases bind_eq_error.1 h with h | ⟨_, _, h⟩
              · rw [readFixed_eq_error] at h; cases h.2
              · cases h
            · cases h
        · split at h
          · rcases bind_eq_error.1 h with h | ⟨_, _, h⟩
            · rw [checkDepth] at h; split at h <;> cases h
            · cases h
          · cases h
        · rcases bind_eq_error.1 h with h | ⟨_, _, h⟩
          · rcases bind_eq_error.1 h with h | ⟨_, _, h⟩
            · rw [readFixed_eq_error] at h; cases h.2
            · cases h
          · cases h
        · cases h
        · rcases bind_eq_error.1 h with h | ⟨_, _, h⟩
          · rcases bind_eq_error.1 h with h | ⟨_, _, h⟩
            · rw [readFixed_eq_error] at h; cases h.2
            · cases h
          · cases h
        · cases h
      · split at h
        · cases h
        · rename_i e _
          cases e <;> cases r <;> cases h

/-- All that running an instruction can be. -/
theorem exec_cases (i : Instr) (s : State) : (∃ r, Gives i s r ∧ Instr.writesState i = false) ∨ (∃ v, i = .cfgWr v) ∨ i = .blockReset ∨ ∃ c, i = .streamPush c := by
  by_cases h : Instr.writesState i = false
  · obtain ⟨r, hr⟩ := gives_of_not_writesState i s h; exact .inl ⟨r, hr, h⟩
  · cases i <;> first | exact absurd rfl h | simp

end Sys2Proof.Machine
end

