-- ==== Sys2Proof/Tests/Slice0.lean ====
section
/-! SUPPORT. The model's own tests. Expected values are those of spec/95_test_vectors.md (the section stands in each heading)
or are worked out by hand from the rule named; no value was taken from the model. -/

namespace Sys2Proof.Tests

open Sys2Proof.Machine

/-- The last response an instruction leaves. -/
def lastResp (i : Instr) (s : State) : Option Response :=
  match exec i s with
  | .next t => t.responses.getLast?
  | .fault _ => none
  | .refused _ => none

/-- The state after an instruction, for the tests of the three that write state. -/
def after (i : Instr) (s : State) : Option State :=
  match exec i s with
  | .next t => some t
  | .fault _ => none
  | .refused _ => none

/-- The state after one step. -/
def stepped (s : State) : Option State :=
  match step s with
  | .next t => some t
  | .fault _ => none
  | .refused _ => none

/-- A fresh instance with the given bounds. -/
def inst (depth elems cap : Bound) : State := State.create ⟨depth, elems, cap⟩

/-- Reset, in strict mode. -/
def strict : State := { State.reset with strictVarint := true }

/-- `Int("VAL", -5)` and the packet `P1` of section 2.12. -/
def valInt : Tdf := .int 0xDA1B00 (-5)
def p1 : Bytes := [0x00, 0x03, 0x00, 0x01, 0x00, 0x28, 0x00, 0x00, 0x00, 0x00, 0x00, 0x01, 0xAA, 0xBB, 0xCC]

/-! ## WellFormed refuses ill-formed terms -/

theorem test_wf_cursor_beyond_input : Instr.wellFormed (.rdU8 [0x00] 2) = false := by decide
theorem test_wf_dispatch_cursor_beyond_input : Instr.wellFormed (.tdfInt 0 (.read [] 1 1)) = false := by decide
theorem test_wf_read_depth_zero : Instr.wellFormed (.tdfList 0 (.read [0x00] 0 0)) = false := by decide
theorem test_wf_write_depth_zero : Instr.wellFormed (.elemInt (.write 5 0 0)) = false := by decide
theorem test_wf_empty_without_discriminant : Instr.wellFormed (.unionEmpty 0 (.read [0x7F] 0 1)) = false := by decide
theorem test_wf_at_end_of_input : Instr.wellFormed (.rdU8 [0x00] 1) = true := by decide

/-! ## Every constructor decodes from a word of 30_encoding.md: command codes and operands (R80), header words (R65, R66),
the sentinel (R73) and subtype bytes (R70) -/

theorem test_decode_zzEnc : decode (.cmd 0x01 [.int (-5)]) = .ok (.zzEnc (-5)) := by decide
theorem test_decode_zzDec : decode (.cmd 0x02 [.int 9]) = .ok (.zzDec 9) := by decide
theorem test_decode_varintWr : decode (.cmd 0x03 [.int 300]) = .ok (.varintWr 300) := by decide
theorem test_decode_varintRd : decode (.cmd 0x04 [.bytes [0x09], .int 0]) = .ok (.varintRd [0x09] 0) := by decide
theorem test_decode_numWr : decode (.cmd 0x05 [.int 2, .int 0x12345]) = .ok (.numWr 2 0x12345) := by decide
theorem test_decode_rdU8 : decode (.cmd 0x06 [.bytes [0x7F], .int 1]) = .ok (.rdU8 [0x7F] 1) := by decide
theorem test_decode_rdU16 : decode (.cmd 0x07 [.bytes [0x12, 0x34, 0x56], .int 1]) = .ok (.rdU16 [0x12, 0x34, 0x56] 1) := by decide
theorem test_decode_rdU32 : decode (.cmd 0x08 [.bytes [], .int 0]) = .ok (.rdU32 [] 0) := by decide
theorem test_decode_rdF64 : decode (.cmd 0x09 [.bytes [0x3F], .int 0]) = .ok (.rdF64 [0x3F] 0) := by decide
theorem test_decode_strWr : decode (.cmd 0x0A [.bytes [0x61]]) = .ok (.strWr [0x61]) := by decide
theorem test_decode_strRd : decode (.cmd 0x0B [.bytes [0x00], .int 0]) = .ok (.strRd [0x00] 0) := by decide
theorem test_decode_blobWr : decode (.cmd 0x0C [.bytes [0xDE, 0xAD]]) = .ok (.blobWr [0xDE, 0xAD]) := by decide
theorem test_decode_blobRd : decode (.cmd 0x0D [.bytes [0x00], .int 0]) = .ok (.blobRd [0x00] 0) := by decide
theorem test_decode_tagPack : decode (.cmd 0x10 [.bytes [0x50]]) = .ok (.tagPack [0x50]) := by decide
theorem test_decode_tagUnpack : decode (.cmd 0x11 [.int 0xC29BA7]) = .ok (.tagUnpack 0xC29BA7) := by decide
theorem test_decode_tdfEnc : decode (.cmd 0x20 [.tdf valInt]) = .ok (.tdfEnc valInt) := by decide
theorem test_decode_tdfDec : decode (.cmd 0x21 [.bytes [0xDA], .int 0]) = .ok (.tdfDec [0xDA] 0) := by decide
theorem test_decode_contentDec : decode (.cmd 0x22 [.bytes [0xDA]]) = .ok (.contentDec [0xDA]) := by decide
theorem test_decode_contentEnc : decode (.cmd 0x23 [.tdfs [valInt]]) = .ok (.contentEnc [valInt]) := by decide
theorem test_decode_pktEnc : decode (.cmd 0x30 [.int 1, .int 0x28, .int 2, .int 3, .int 4, .bytes [0xAA]]) = .ok (.pktEnc 1 0x28 2 3 4 [0xAA]) := by decide
theorem test_decode_pktHdr : decode (.cmd 0x31 [.bytes [0x00], .int 1]) = .ok (.pktHdr [0x00] 1) := by decide
theorem test_decode_pktDec : decode (.cmd 0x32 [.bytes [0x00], .int 0]) = .ok (.pktDec [0x00] 0) := by decide
theorem test_decode_streamPush : decode (.cmd 0x40 [.bytes [0x00]]) = .ok (.streamPush [0x00]) := by decide
theorem test_decode_cfgWr : decode (.cmd 0x41 [.int 255]) = .ok (.cfgWr 255) := by decide
theorem test_decode_cfgRd : decode (.cmd 0x42 []) = .ok .cfgRd := by decide
theorem test_decode_statRd : decode (.cmd 0x43 []) = .ok .statRd := by decide
theorem test_decode_blockReset : decode (.cmd 0x4F []) = .ok .blockReset := by decide
theorem test_decode_tdfInt : decode (.header 0xDA1B0000 [0x00] 0 1) = .ok (.tdfInt 0xDA1B00 (.read [0x00] 0 1)) := by decide
theorem test_decode_tdfString : decode (.header 0xBA1B6501 [0x00] 0 1) = .ok (.tdfString 0xBA1B65 (.read [0x00] 0 1)) := by decide
theorem test_decode_tdfBlob : decode (.header 0x921D2102 [0x00] 0 1) = .ok (.tdfBlob 0x921D21 (.read [0x00] 0 1)) := by decide
theorem test_decode_tdfStruct : decode (.header 0xCAFBF403 [0x00] 0 1) = .ok (.tdfStruct 0xCAFBF4 (.read [0x00] 0 1)) := by decide
theorem test_decode_tdfList : decode (.header 0xB33D0004 [0x00] 0 1) = .ok (.tdfList 0xB33D00 (.read [0x00] 0 1)) := by decide
theorem test_decode_tdfPairList : decode (.header 0xB61C0005 [0x00] 0 1) = .ok (.tdfPairList 0xB61C00 (.read [0x00] 0 1)) := by decide
theorem test_decode_tdfUnion : decode (.header 0xD4000006 [0x00] 0 1) = .ok (.tdfUnion 0xD40000 (.read [0x00] 0 1)) := by decide
theorem test_decode_tdfVarIntList : decode (.header 0xDAC00007 [0x00] 0 1) = .ok (.tdfVarIntList 0xDAC000 (.read [0x00] 0 1)) := by decide
theorem test_decode_tdfPair : decode (.header 0xC3200008 [0x00] 0 1) = .ok (.tdfPair 0xC32000 (.read [0x00] 0 1)) := by decide
theorem test_decode_tdfTriple : decode (.header 0xD3200009 [0x00] 0 1) = .ok (.tdfTriple 0xD32000 (.read [0x00] 0 1)) := by decide
theorem test_decode_tdfFloat : decode (.header 0x9800000A [0x00] 0 1) = .ok (.tdfFloat 0x980000 (.read [0x00] 0 1)) := by decide
theorem test_decode_unionEmpty : decode (.disc 0x7F 0xD40000 [0x7F] 0 1) = .ok (.unionEmpty 0xD40000 (.read [0x7F] 1 1)) := by decide
theorem test_decode_elemInt : decode (.subtype 0x00 [0x00] 0 1) = .ok (.elemInt (.read [0x00] 0 1)) := by decide
theorem test_decode_elemString : decode (.subtype 0x01 [0x00] 0 1) = .ok (.elemString (.read [0x00] 0 1)) := by decide
theorem test_decode_elemStruct : decode (.subtype 0x03 [0x00] 0 1) = .ok (.elemStruct (.read [0x00] 0 1)) := by decide
theorem test_decode_elemTriple : decode (.subtype 0x09 [0x00] 0 1) = .ok (.elemTriple (.read [0x00] 0 1)) := by decide
theorem test_decode_elemFloat : decode (.subtype 0x0A [0x00] 0 1) = .ok (.elemFloat (.read [0x00] 0 1)) := by decide
theorem test_decode_value_by_its_variant : decode (.value valInt 4 1) = .ok (.tdfInt 0xDA1B00 (.write (-5) 4 1)) := by decide
theorem test_decode_disc_other_than_empty : decode (.disc 0x03 0 [0x03] 0 1) = .ok (.tdfUnion 0 (.read [0x03] 0 1)) := by decide
theorem test_decode_reserved_code : decode (.cmd 0x0E []) = .error (.reservedCode 0x0E) := by decide
theorem test_decode_tag_operand_too_large : decode (.cmd 0x11 [.int 0x1000000]) = .error (.badOperand 0x11) := by decide
theorem test_decode_type_beyond_float : decode (.header 0x0000000B [] 0 1) = .error (.unknownType 0x0B) := by decide
theorem test_decode_blob_is_no_subtype : decode (.subtype 0x02 [] 0 1) = .error (.unknownSubtype 0x02) := by decide

/-! ## Byte Cursor unit (sections 2.1 to 2.5) -/

theorem test_zzEnc_negative : lastResp (.zzEnc (-150)) State.reset = some (.ok (.u64 299)) := by decide
theorem test_zzEnc_least : lastResp (.zzEnc 0x8000000000000000) State.reset = some (.ok (.u64 0xFFFFFFFFFFFFFFFF)) := by decide
theorem test_zzDec_odd : lastResp (.zzDec 9) State.reset = some (.ok (.i64 (-5))) := by decide
theorem test_zzDec_even : lastResp (.zzDec 0xFFFFFFFFFFFFFFFE) State.reset = some (.ok (.i64 0x7FFFFFFFFFFFFFFF)) := by decide
theorem test_varintWr_two_groups : lastResp (.varintWr 150) State.reset = some (.ok (.bytes [0xAC, 0x02])) := by decide
theorem test_varintWr_greatest : lastResp (.varintWr 0x7FFFFFFFFFFFFFFF) State.reset = some (.ok (.bytes [0xFE, 0xFF, 0xFF, 0xFF, 0xFF, 0xFF, 0xFF, 0xFF, 0xFF, 0x01])) := by decide
theorem test_varintRd_tripped_guard : lastResp (.varintRd [0xFF, 0xFF, 0xFF, 0xFF, 0xFF, 0xFF, 0xFF, 0xFF, 0xFF, 0x02] 0) State.reset = some (.ok (.varint 0x7FFFFFFFFFFFFFFF .guard 10)) := by decide
theorem test_varintRd_strict_short : lastResp (.varintRd [0x80] 0) strict = some (.err (.truncated 0)) := by decide
theorem test_numWr_cuts : lastResp (.numWr 2 0x12345) State.reset = some (.ok (.bytes [0x23, 0x45])) := by decide
theorem test_numWr_bad_width : lastResp (.numWr 3 5) State.reset = some (.err (.precondition (.operand 3))) := by decide
theorem test_rdU8 : lastResp (.rdU8 [0x7F] 0) State.reset = some (.ok (.u8At 0x7F 1)) := by decide
theorem test_rdU8_at_end : lastResp (.rdU8 [] 0) State.reset = some (.err (.truncated 0)) := by decide
theorem test_rdU16_big_endian : lastResp (.rdU16 [0x12, 0x34, 0x56] 1) State.reset = some (.ok (.u16At 0x3456 3)) := by decide
theorem test_rdU16_short : lastResp (.rdU16 [0x00] 0) State.reset = some (.err (.truncated 0)) := by decide
theorem test_rdU32 : lastResp (.rdU32 [0xDA, 0x1B, 0x00, 0x00] 0) State.reset = some (.ok (.u32At 0xDA1B0000 4)) := by decide
theorem test_rdU32_short : lastResp (.rdU32 [0xDA, 0x1B, 0x00] 0) State.reset = some (.err (.truncated 0)) := by decide
theorem test_rdF64_negative_zero : lastResp (.rdF64 [0x80, 0x00, 0x00, 0x00, 0x00, 0x00, 0x00, 0x00] 0) State.reset = some (.ok (.f64At 0x8000000000000000 8)) := by decide
theorem test_strWr_terminates : lastResp (.strWr [0x61, 0x62, 0x63]) State.reset = some (.ok (.bytes [0x08, 0x61, 0x62, 0x63, 0x00])) := by decide
theorem test_strWr_one_terminator : lastResp (.strWr [0x61, 0x62, 0x00]) State.reset = some (.ok (.bytes [0x06, 0x61, 0x62, 0x00])) := by decide
theorem test_strRd_strips_last_nul : lastResp (.strRd [0x06, 0x61, 0x00, 0x00] 0) State.reset = some (.ok (.bytesAt [0x61, 0x00] 4)) := by decide
theorem test_strRd_negative_length : lastResp (.strRd [0x01] 0) State.reset = some (.err (.malformedLength 0 (-1))) := by decide
theorem test_blobWr : lastResp (.blobWr [0xDE, 0xAD]) State.reset = some (.ok (.bytes [0x04, 0xDE, 0xAD])) := by decide
theorem test_blobRd : lastResp (.blobRd [0x04, 0xDE, 0xAD] 0) State.reset = some (.ok (.bytesAt [0xDE, 0xAD] 3)) := by decide
theorem test_blobRd_short : lastResp (.blobRd [0x06, 0x01, 0x02] 0) State.reset = some (.err (.truncated 1)) := by decide

/-! ## Tag Codec unit (section 2.6) -/

theorem test_tagPack_ping : lastResp (.tagPack [0x50, 0x49, 0x4E, 0x47]) State.reset = some (.ok (.tag 0xC29BA7)) := by decide
theorem test_tagPack_drops_bit_5 : lastResp (.tagPack [0x30]) State.reset = some (.ok (.tag 0x400000)) := by decide
theorem test_tagUnpack_pads : lastResp (.tagUnpack 0xDA1B00) State.reset = some (.ok (.bytes [0x56, 0x41, 0x4C, 0x20])) := by decide
theorem test_tagUnpack_control : lastResp (.tagUnpack 0x400000) State.reset = some (.ok (.bytes [0x10, 0x20, 0x20, 0x20])) := by decide

/-! ## TDF Value unit (sections 2.7 to 2.10) -/

theorem test_tdfEnc_struct : lastResp (.tdfEnc (.struct 0xCAFBF4 true (.cons valInt .nil))) State.reset = some (.ok (.bytes [0xCA, 0xFB, 0xF4, 0x03, 0x02, 0xDA, 0x1B, 0x00, 0x00, 0x09, 0x00])) := by decide
theorem test_tdfEnc_path : lastResp (.tdfEnc (.struct 0xCAFBF4 false (.cons (.int 0xDA1B00 1) (.cons (.union 0xD40000 0x00 .none) .nil)))) State.reset = some (.err (.precondition (.node [1] .c))) := by decide
theorem test_tdfDec_marker_and_blob : lastResp (.tdfDec [0xCA, 0xFB, 0xF4, 0x03, 0x02, 0x10, 0x00, 0x00, 0x02, 0x00] 0) State.reset = some (.err (.truncated 10)) := by decide
theorem test_tdfDec_depth : lastResp (.tdfDec [0xD4, 0x00, 0x00, 0x06, 0x00, 0xD4, 0x00, 0x00, 0x06, 0x00, 0xDA, 0x1B, 0x00, 0x00, 0x02] 0) (inst (.fin 2) .inf .inf) = some (.err (.resource (.depth 10))) := by decide
theorem test_contentDec : lastResp (.contentDec [0xDA, 0x1B, 0x00, 0x00, 0x09, 0xD4, 0x00, 0x00, 0x06, 0x7F]) State.reset = some (.ok (.tdfs [valInt, .union 0xD40000 0x7F .none])) := by decide
theorem test_contentDec_second_short : lastResp (.contentDec [0xDA, 0x1B, 0x00, 0x00, 0x09, 0xDA]) State.reset = some (.err (.truncated 5)) := by decide
theorem test_contentEnc : lastResp (.contentEnc [valInt, .string 0xBA1B65 [0x61]]) State.reset = some (.ok (.bytes [0xDA, 0x1B, 0x00, 0x00, 0x09, 0xBA, 0x1B, 0x65, 0x01, 0x04, 0x61, 0x00])) := by decide
theorem test_contentEnc_path : lastResp (.contentEnc [.int 0xDA1B00 1, .union 0xD40000 0x00 (.some (.union 0xD40000 0x7F (.some (.int 0xDA1B00 2))))]) State.reset = some (.err (.precondition (.node [1, 0] .c))) := by decide

/-! ### Dispatch rows: the payload bytes of section 2.7, after the header word -/

theorem test_tdfInt_read : lastResp (.tdfInt 0xDA1B00 (.read [0x09] 0 1)) State.reset = some (.ok (.tdfAt valInt 1)) := by decide
theorem test_tdfInt_write : lastResp (.tdfInt 0xDA1B00 (.write (-5) 4 1)) State.reset = some (.ok (.bytes [0x09])) := by decide
theorem test_tdfString_read : lastResp (.tdfString 0xBA1B65 (.read [0x08, 0x61, 0x62, 0x63, 0x00] 0 1)) State.reset = some (.ok (.tdfAt (.string 0xBA1B65 [0x61, 0x62, 0x63]) 5)) := by decide
theorem test_tdfString_write : lastResp (.tdfString 0xBA1B65 (.write [0x61, 0x62, 0x63] 4 1)) State.reset = some (.ok (.bytes [0x08, 0x61, 0x62, 0x63, 0x00])) := by decide
theorem test_tdfBlob_read : lastResp (.tdfBlob 0x921D21 (.read [0x04, 0xDE, 0xAD] 0 1)) State.reset = some (.ok (.tdfAt (.blob 0x921D21 [0xDE, 0xAD]) 3)) := by decide
theorem test_tdfBlob_write : lastResp (.tdfBlob 0x921D21 (.write [0xDE, 0xAD] 4 1)) State.reset = some (.ok (.bytes [0x04, 0xDE, 0xAD])) := by decide
theorem test_tdfStruct_read : lastResp (.tdfStruct 0xCAFBF4 (.read [0xDA, 0x1B, 0x00, 0x00, 0x09, 0x00] 0 1)) State.reset = some (.ok (.tdfAt (.struct 0xCAFBF4 false (.cons valInt .nil)) 6)) := by decide
theorem test_tdfStruct_write_marker : lastResp (.tdfStruct 0xCAFBF4 (.write (true, .nil) 4 1)) State.reset = some (.ok (.bytes [0x02, 0x00])) := by decide
theorem test_tdfList_read : lastResp (.tdfList 0xB33D00 (.read [0x00, 0x06, 0x02, 0x01, 0xD8, 0x04] 0 1)) State.reset = some (.ok (.tdfAt (.list 0xB33D00 .int (.cons (.int 1) (.cons (.int (-1)) (.cons (.int 300) .nil)))) 6)) := by decide
theorem test_tdfList_write : lastResp (.tdfList 0xB34000 (.write (.triple, .cons (.triple 1 2 3) .nil) 4 1)) State.reset = some (.ok (.bytes [0x09, 0x02, 0x02, 0x04, 0x06])) := by decide
theorem test_tdfPairList_read : lastResp (.tdfPairList 0xB61C00 (.read [0x00, 0x01, 0x04, 0x02, 0x04, 0x78, 0x00, 0x04, 0x04, 0x79, 0x00] 0 1)) State.reset = some (.ok (.tdfAt (.pairList 0xB61C00 .int .string (.cons (.int 1) (.cons (.int 2) .nil)) (.cons (.string [0x78]) (.cons (.string [0x79]) .nil))) 11)) := by decide
theorem test_tdfPairList_write : lastResp (.tdfPairList 0xB61C00 (.write (.int, .string, .cons (.int 1) (.cons (.int 2) .nil), .cons (.string [0x78]) (.cons (.string [0x79]) .nil)) 4 1)) State.reset = some (.ok (.bytes [0x00, 0x01, 0x04, 0x02, 0x04, 0x78, 0x00, 0x04, 0x04, 0x79, 0x00])) := by decide
theorem test_tdfUnion_read_any_disc : lastResp (.tdfUnion 0xD40000 (.read [0x03, 0xDA, 0x1B, 0x00, 0x00, 0x0E] 0 1)) State.reset = some (.ok (.tdfAt (.union 0xD40000 0x03 (.some (.int 0xDA1B00 7))) 6)) := by decide
theorem test_tdfUnion_write : lastResp (.tdfUnion 0xD40000 (.write (0x00, .some (.int 0xDA1B00 7)) 4 1)) State.reset = some (.ok (.bytes [0x00, 0xDA, 0x1B, 0x00, 0x00, 0x0E])) := by decide
theorem test_tdfVarIntList_read : lastResp (.tdfVarIntList 0xDAC000 (.read [0x06, 0x00, 0x01, 0x80, 0x01] 0 1)) State.reset = some (.ok (.tdfAt (.varIntList 0xDAC000 [0, -1, 64]) 5)) := by decide
theorem test_tdfVarIntList_negative : lastResp (.tdfVarIntList 0xDAC000 (.read [0x01] 0 1)) State.reset = some (.err (.malformedLength 0 (-1))) := by decide
theorem test_tdfPair_read : lastResp (.tdfPair 0xC32000 (.read [0x02, 0x01] 0 1)) State.reset = some (.ok (.tdfAt (.pair 0xC32000 1 (-1)) 2)) := by decide
theorem test_tdfPair_write : lastResp (.tdfPair 0xC32000 (.write (1, -1) 4 1)) State.reset = some (.ok (.bytes [0x02, 0x01])) := by decide
theorem test_tdfTriple_read : lastResp (.tdfTriple 0xD32000 (.read [0x00, 0xC8, 0x01, 0xC7, 0x01] 0 1)) State.reset = some (.ok (.tdfAt (.triple 0xD32000 0 100 (-100)) 5)) := by decide
theorem test_tdfTriple_write : lastResp (.tdfTriple 0xD32000 (.write (0, 100, -100) 4 1)) State.reset = some (.ok (.bytes [0x00, 0xC8, 0x01, 0xC7, 0x01])) := by decide
theorem test_tdfFloat_read : lastResp (.tdfFloat 0x980000 (.read [0x3F, 0xF8, 0x00, 0x00, 0x00, 0x00, 0x00, 0x00] 0 1)) State.reset = some (.ok (.tdfAt (.float 0x980000 0x3FF8000000000000) 8)) := by decide
theorem test_tdfFloat_write : lastResp (.tdfFloat 0x980000 (.write 0x3FF8000000000000 4 1)) State.reset = some (.ok (.bytes [0x3F, 0xF8, 0x00, 0x00, 0x00, 0x00, 0x00, 0x00])) := by decide
theorem test_unionEmpty_read : lastResp (.unionEmpty 0xD40000 (.read [0x7F] 1 1)) State.reset = some (.ok (.tdfAt (.union 0xD40000 0x7F .none) 1)) := by decide
theorem test_unionEmpty_write : lastResp (.unionEmpty 0xD40000 (.write () 5 1)) State.reset = some (.ok (.bytes [])) := by decide
theorem test_elemInt_read : lastResp (.elemInt (.read [0xD8, 0x04] 0 1)) State.reset = some (.ok (.elemAt (.int 300) 2)) := by decide
theorem test_elemInt_write : lastResp (.elemInt (.write 300 6 1)) State.reset = some (.ok (.bytes [0xD8, 0x04])) := by decide
theorem test_elemString_read : lastResp (.elemString (.read [0x06, 0x68, 0x69, 0x00] 0 1)) State.reset = some (.ok (.elemAt (.string [0x68, 0x69]) 4)) := by decide
theorem test_elemString_write : lastResp (.elemString (.write [] 6 1)) State.reset = some (.ok (.bytes [0x02, 0x00])) := by decide
theorem test_elemStruct_read : lastResp (.elemStruct (.read [0xDA, 0x1B, 0x00, 0x00, 0x09, 0x00] 0 1)) State.reset = some (.ok (.elemAt (.struct false (.cons valInt .nil)) 6)) := by decide
theorem test_elemStruct_write_too_deep : lastResp (.elemStruct (.write (false, .cons valInt .nil) 6 1)) (inst (.fin 2) .inf .inf) = some (.err (.resource (.depth 6))) := by decide
theorem test_elemTriple_read : lastResp (.elemTriple (.read [0x02, 0x04, 0x06] 0 1)) State.reset = some (.ok (.elemAt (.triple 1 2 3) 3)) := by decide
theorem test_elemTriple_write : lastResp (.elemTriple (.write (1, 2, 3) 6 1)) State.reset = some (.ok (.bytes [0x02, 0x04, 0x06])) := by decide
theorem test_elemFloat_read : lastResp (.elemFloat (.read [0x80, 0x00, 0x00, 0x00, 0x00, 0x00, 0x00, 0x00] 0 1)) State.reset = some (.ok (.elemAt (.float 0x8000000000000000) 8)) := by decide
theorem test_elemFloat_write : lastResp (.elemFloat (.write 0x8000000000000000 6 1)) State.reset = some (.ok (.bytes [0x80, 0x00, 0x00, 0x00, 0x00, 0x00, 0x00, 0x00])) := by decide

/-! ## Packet Framing and Stream Reassembler units (sections 2.11, 2.12) -/

theorem test_pktEnc : lastResp (.pktEnc 1 0x28 0 0 1 [0xAA, 0xBB, 0xCC]) State.reset = some (.ok (.bytes p1)) := by decide
theorem test_pktEnc_clears_bit_12 : lastResp (.pktEnc 1 2 3 0x1234 5 [0x09]) State.reset = some (.ok (.bytes [0x00, 0x01, 0x00, 0x01, 0x00, 0x02, 0x00, 0x03, 0x02, 0x34, 0x00, 0x05, 0x09])) := by decide
theorem test_pktHdr_extended : lastResp (.pktHdr [0x00, 0x05, 0x00, 0x00, 0x00, 0x00, 0x00, 0x00, 0x10, 0x00, 0x00, 0x00, 0x00, 0x00] 0) State.reset = some (.ok (.header ⟨5, 0, 0, 0, 0x1000, 0, 0⟩ 14 5)) := by decide
theorem test_pktHdr_ext_missing : lastResp (.pktHdr [0x00, 0x00, 0x00, 0x00, 0x00, 0x00, 0x00, 0x00, 0x10, 0x00, 0x00, 0x00] 0) State.reset = some (.err (.incomplete 2)) := by decide
theorem test_pktDec : lastResp (.pktDec p1 0) State.reset = some (.ok (.packetAt ⟨1, 0x28, 0, 0, 1, [0xAA, 0xBB, 0xCC]⟩ 15)) := by decide
theorem test_pktDec_one_byte_short : lastResp (.pktDec (p1.take 14) 0) State.reset = some (.err (.incomplete 1)) := by decide
/-- The rows of section 2.12 with BUF_CAP = 14: the packet P8 cut after 14 bytes, then one more byte. -/
theorem test_streamPush_overflow : after (.streamPush [0x03]) { inst .inf .inf (.fin 14) with rbuf := [0x00, 0x08, 0x00, 0x07, 0x00, 0x00, 0x00, 0x00, 0x00, 0x00, 0x00, 0x09, 0x01, 0x02] } =
    some { inst .inf .inf (.fin 14) with rbuf := [0x00, 0x08, 0x00, 0x07, 0x00, 0x00, 0x00, 0x00, 0x00, 0x00, 0x00, 0x09, 0x01, 0x02], rfault := true, responses := [.err (.resource (.buffer 15 14))] } := by decide
theorem test_streamPush_rest_kept : after (.streamPush [0xCC, 0x00, 0x00]) { State.reset with rbuf := p1.take 14 } =
    some { State.reset with rbuf := [0x00, 0x00], responses := [.ok (.packets [⟨1, 0x28, 0, 0, 1, [0xAA, 0xBB, 0xCC]⟩])] } := by decide

/-! ## Registers, reset and the command interface (section 2.13) -/

theorem test_cfgWr_bit_0_only : (after (.cfgWr 0x02) strict).map (·.strictVarint) = some false := by decide
theorem test_cfgWr_sets : (after (.cfgWr 0x03) State.reset).map (·.strictVarint) = some true := by decide
theorem test_cfgRd : lastResp (.cfgRd) strict = some (.ok (.u8 0x01)) := by decide
theorem test_statRd_both : lastResp (.statRd) { State.reset with rbuf := [0x00], rfault := true } = some (.ok (.u8 0x03)) := by decide
theorem test_blockReset : after .blockReset { strict with rbuf := [0x00], rfault := true } = some { State.reset with responses := [.ok .unit] } := by decide
theorem test_step_reserved_code : stepped (State.reset.issue (.cmd 0x50 [])) = some { State.reset with responses := [.err (.badCommand 0x50)] } := by decide
theorem test_step_cfgWr_operand_too_large : stepped (strict.issue (.cmd 0x41 [.int 0x100])) = some { strict with responses := [.err (.badCommand 0x41)] } := by decide
theorem test_step_idle : stepped strict = some strict := by decide
theorem test_step_unknown_header_type : stepped (State.reset.issue (.tdfRead [0x00, 0x00, 0x00, 0x7F] 0 1)) = some { State.reset with responses := [.err (.unknownTdfType 3 0x7F)] } := by decide
theorem test_step_table_word : (stepped (State.reset.withFetchWord 32 0xDA1B0000)).map (·.responses) = some [.ok (.tdfAt (.int 0xDA1B00 0) 5)] := by decide

/-- R276's order of the two errors, kept for a write row alone (notes/assumptions/2.md). -/
theorem test_step_ill_formed_before_depth :
    (stepped ((inst (.fin 1) .inf .inf).issue (.tdfWrite (.union 0 0x00 .none) 0 2))).map (·.responses) =
      some [.err (.precondition (.node [] .c))] := by decide

/-- The model's choice: a header that cannot be fetched is answered before the depth 0 is refused
(notes/assumptions/2.md). -/
theorem test_step_short_header_before_operands :
    (stepped (State.reset.issue (.tdfRead [0x00] 0 0))).map (·.responses) = some [.err (.truncated 0)] := by decide

/-! ## Witnesses: for every statement with hypotheses, concrete values that meet them, clause by clause -/

/-- An answer read off `lastResp`, for an instruction that writes no state. -/
theorem gives_of_lastResp {i : Instr} {s : State} {r : Response} (h : Instr.writesState i = false)
    (hr : lastResp i s = some r) : Gives i s r := by
  obtain ⟨r', h'⟩ := gives_of_not_writesState i s h
  have : lastResp i s = some r' := by rw [lastResp, h']; simp
  rw [hr] at this
  cases this
  exact h'

theorem continued_nine (b : Bytes) : Continued (List.replicate 9 0xFF#8 ++ b) 0 9 := by
  intro i hi
  refine ⟨0xFF, ?_, by decide⟩
  interval_cases i <;> rfl

theorem test_witness_ZzDecInvertsZzEnc : Gives (.zzEnc (-5)) State.reset (.ok (.u64 9)) :=
  gives_of_lastResp rfl (by decide)

theorem test_witness_VarintWrEmitsShortestGroups :
    Gives (.varintWr (-64)) State.reset (.ok (.bytes [0x7F])) ∧ Gives (.zzEnc (-64)) State.reset (.ok (.u64 127)) ∧
      [0x7F#8][0]? = some 0x7F#8 ∧ (1 : Nat) ≤ 1 ∧ (127 : U64).toNat < 2 ^ (7 * 1) :=
  ⟨gives_of_lastResp rfl (by decide), gives_of_lastResp rfl (by decide), by decide⟩

theorem test_witness_VarintLengthBySignedRange :
    Gives (.varintWr 64) State.reset (.ok (.bytes [0x80, 0x01])) ∧ (1 : Nat) ≤ 9 ∧ (9 : Nat) ≤ 9 ∧
      (63 : I64).toInt.natAbs < (64 : I64).toInt.natAbs :=
  ⟨gives_of_lastResp rfl (by decide), by decide⟩

/-- The first clause at its shortest and its longest, then the three others, where they meet. -/
theorem test_witness_VarintRdLenientOutcome :
    (Continued [0x09#8] 0 0 ∧ [0x09#8][0 + 0]? = some 0x09#8 ∧ (0x09#8).getLsbD 7 = false) ∧
    (Continued (List.replicate 9 0xFF#8 ++ [0x01]) 0 9 ∧ (List.replicate 9 0xFF#8 ++ [0x01])[0 + 9]? = some 0x01#8 ∧
      (0x01#8).getLsbD 7 = false ∧ (0x01#8).toNat % 128 ≤ 1) ∧
    (Continued [] 0 0 ∧ 0 + 0 = ([] : Bytes).length) ∧
    (Continued (List.replicate 9 0xFF#8 ++ []) 0 9 ∧ 0 + 9 = (List.replicate 9 0xFF#8 ++ []).length) ∧
    (Continued (List.replicate 9 0xFF#8 ++ [0x02]) 0 9 ∧ (List.replicate 9 0xFF#8 ++ [0x02])[0 + 9]? = some 0x02#8 ∧
      1 < (0x02#8).toNat % 128) ∧
    (Continued (List.replicate 9 0xFF#8 ++ [0x81]) 0 9 ∧ (List.replicate 9 0xFF#8 ++ [0x81])[0 + 9]? = some 0x81#8 ∧
      (0x81#8).toNat % 128 ≤ 1 ∧ (0x81#8).getLsbD 7 = true) ∧
    State.reset.strictVarint = false :=
  ⟨⟨fun _ h => absurd h (by omega), by decide⟩, ⟨continued_nine _, by decide⟩,
    ⟨fun _ h => absurd h (by omega), rfl⟩, ⟨continued_nine _, rfl⟩, ⟨continued_nine _, by decide⟩,
    ⟨continued_nine _, by decide⟩, rfl⟩

theorem test_witness_VarintRdStrictOutcome : strict.strictVarint = true := rfl

theorem test_witness_NumWrBigEndian :
    ((1 : Int) = 1 ∨ (1 : Int) = 2 ∨ (1 : Int) = 4 ∨ (1 : Int) = 8) ∧
      ((8 : Int) = 1 ∨ (8 : Int) = 2 ∨ (8 : Int) = 4 ∨ (8 : Int) = 8) ∧
      ¬ ((0 : Int) = 1 ∨ (0 : Int) = 2 ∨ (0 : Int) = 4 ∨ (0 : Int) = 8) ∧
      ¬ ((9 : Int) = 1 ∨ (9 : Int) = 2 ∨ (9 : Int) = 4 ∨ (9 : Int) = 8) := by decide

/-- The cursor at the end of its input: of an empty one and of one byte. -/
theorem test_witness_FixedWidthReads : 0 ≤ ([] : Bytes).length ∧ 1 ≤ [0x00#8].length := by decide

theorem test_witness_StringAndBlobWrites :
    ([] : Bytes).length + 1 < 2 ^ 63 ∧ [0x00#8].length + 1 < 2 ^ 63 ∧ ([] : Bytes).length < 2 ^ 63 := by decide

theorem test_witness_StringAndBlobReads : 0 ≤ ([] : Bytes).length ∧ 1 ≤ [0x00#8].length := by decide

theorem test_witness_StringAndBlobRoundTrip : [0x61#8, 0x00].length + 1 < 2 ^ 63 := by decide

theorem test_witness_TagPackGroups : 0 < 4 ∧ 3 < 4 ∧ 0 < 6 ∧ 4 < 5 ∧ 5 < 6 := by decide

theorem test_witness_TagUnpackGroups : 0 < 4 ∧ 3 < 4 ∧ (0x1B : Nat) = (0xDA1B00 : U24).toNat / 2 ^ (18 - 6 * 3) % 64 + 27 := by
  decide

theorem test_witness_TagCodecLaws :
    Gives (.tagUnpack 0xDA1B00) State.reset (.ok (.bytes [0x56, 0x41, 0x4C, 0x20])) ∧ [0x56#8, 0x41, 0x4C, 0x20].length ≤ 4 ∧
      (∀ c ∈ [0x56#8, 0x41, 0x4C, 0x20], c = 0x20#8 ∨ (c ≠ 0x00#8 ∧ c.getLsbD 7 = false ∧ c.getLsbD 5 = false)) ∧
      ∀ i < 4, ∀ j < 7, j ≠ 5 → (([0x61#8] : Bytes).getD i 0).getLsbD j = (([0x41#8, 0x20] : Bytes).getD i 0).getLsbD j :=
  ⟨gives_of_lastResp rfl (by decide), by decide, by decide, by decide⟩

theorem test_witness_FlatRowsWrite : [0, -1, (64 : I64)].length < 2 ^ 63 := by decide

theorem test_witness_FlatRowsRead : 0 ≤ ([] : Bytes).length ∧ 1 ≤ [0x00#8].length := by decide

/-- Two varints that stand; in strict mode a second one cut short, and a count cut short. -/
theorem test_witness_VarintRowsRead : 1 ≤ [0x00#8].length ∧ State.reset.strictVarint = false ∧
    IntsAt State.reset [0x02, 0x01] [1, -1] 0 2 ∧ IntsFail strict [0x02, 0x80] 2 0 (.truncated 1) ∧
    Gives (.tdfPair 0 (.read [0x02, 0x80] 0 1)) strict (.err (.truncated 1)) ∧ CountFails strict [0x80] 0 (.truncated 0) ∧
    Gives (.tdfVarIntList 0 (.read [0x04, 0x02] 0 1)) strict (.err (.truncated 2)) :=
  ⟨by decide, rfl, ⟨1, gives_of_lastResp rfl (by decide), 2, gives_of_lastResp rfl (by decide), rfl⟩,
    ⟨[1], 1, by decide, ⟨1, gives_of_lastResp rfl (by decide), rfl⟩, gives_of_lastResp rfl (by decide)⟩,
    gives_of_lastResp rfl (by decide), .inl ⟨[], 0, by decide, rfl, gives_of_lastResp rfl (by decide)⟩,
    gives_of_lastResp rfl (by decide)⟩

/-- A marker and no child; an EStruct; no terminator; a child's error; an EStruct one level beyond MAX_DEPTH. -/
theorem test_witness_StructRowsRead :
    Gives (.tdfStruct 0xCAFBF4 (.read [0x02, 0x00] 0 1)) State.reset (.ok (.tdfAt (.struct 0xCAFBF4 true .nil) 2)) ∧
      Gives (.elemStruct (.read [0x00] 0 1)) State.reset (.ok (.elemAt (.struct false .nil) 1)) ∧
      Gives (.tdfStruct 0 (.read [0x02] 0 1)) State.reset (.err (.truncated 1)) ∧
      Gives (.tdfStruct 0 (.read [0xDA, 0x1B, 0x00, 0x0B] 0 1)) State.reset (.err (.unknownTdfType 3 0x0B)) ∧
      Gives (.elemStruct (.read [0x00] 0 1)) (inst (.fin 1) .inf .inf) (.err (.resource (.depth 0))) :=
  ⟨gives_of_lastResp rfl (by decide), gives_of_lastResp rfl (by decide), gives_of_lastResp rfl (by decide),
    gives_of_lastResp rfl (by decide), gives_of_lastResp rfl (by decide)⟩

/-- Empty containers; then an element cut short, the second element of a pair cut short, an inner value too deep. -/
theorem test_witness_ContainerRowsRead :
    Gives (.tdfList 0 (.read [0x00, 0x00] 0 1)) State.reset (.ok (.tdfAt (.list 0 .int .nil) 2)) ∧
      Gives (.tdfPairList 0 (.read [0x00, 0x01, 0x00] 0 1)) State.reset
        (.ok (.tdfAt (.pairList 0 .int .string .nil .nil) 3)) ∧
      Gives (.tdfUnion 0 (.read [0x7F] 0 1)) State.reset (.ok (.tdfAt (.union 0 0x7F .none) 1)) ∧
      Gives (.tdfList 0 (.read [0x0A, 0x02, 0x00] 0 1)) State.reset (.err (.truncated 2)) ∧
      Gives (.tdfPairList 0 (.read [0x00, 0x01, 0x02, 0x02, 0x04, 0x41] 0 1)) State.reset (.err (.truncated 5)) ∧
      Gives (.tdfUnion 0 (.read [0x00, 0xDA, 0x1B, 0x00, 0x00, 0x09] 0 1)) (inst (.fin 1) .inf .inf)
        (.err (.resource (.depth 1))) :=
  ⟨gives_of_lastResp rfl (by decide), gives_of_lastResp rfl (by decide), gives_of_lastResp rfl (by decide),
    gives_of_lastResp rfl (by decide), gives_of_lastResp rfl (by decide), gives_of_lastResp rfl (by decide)⟩

/-- Each writer with MAX_DEPTH exactly at the depth its value reaches. -/
theorem test_witness_ContainerRowsWrite :
    (Tdfs.WF (.cons valInt .nil) ∧ Bound.holds (.fin 2) (Tdf.reach (.struct 0 true (.cons valInt .nil)) 1)) ∧
    Bound.holds (.fin 3) (Elem.reach (.struct true (.cons valInt .nil)) 1) ∧
    (Tdf.WF (.list 0 .int (.cons (.int 1) .nil)) ∧ Bound.holds (.fin 1) (Tdf.reach (.list 0 .int (.cons (.int 1) .nil)) 1)) ∧
    (Tdf.WF (.pairList 0 .int .float (.cons (.int 1) .nil) (.cons (.float 0) .nil)) ∧
      Bound.holds (.fin 1) (Tdf.reach (.pairList 0 .int .float (.cons (.int 1) .nil) (.cons (.float 0) .nil)) 1)) ∧
    ((0x00#8 ≠ 0x7F#8) ∧ Tdf.WF valInt ∧ Bound.holds (.fin 2) (Tdf.reach valInt 2)) := by
  simp [Tdfs.WF, Tdf.WF, Elems.WF, Elem.WF, valInt, Bound.holds, Tdf.reach, Tdfs.reach, Elem.reach, Elems.reach, Elems.toList, Elem.kind]

theorem test_witness_TdfEncIsHeaderThenRow : Bound.holds (inst (.fin 1) .inf .inf).params.maxDepth 1 := Nat.le_refl 1

theorem test_witness_TdfEncSucceedsWithinBounds :
    Tdf.WF (.struct 0 false (.cons valInt .nil)) ∧ Bound.holds (.fin 2) (Tdf.reach (.struct 0 false (.cons valInt .nil)) 1) ∧
      ¬ Bound.holds (.fin 1) (Tdf.reach (.struct 0 false (.cons valInt .nil)) 1) ∧ ¬ Tdf.WF (.union 0 0x00 .none) := by
  simp [Tdfs.WF, Tdf.WF, Inner.WF, valInt, Bound.holds, Tdf.reach, Tdfs.reach]

/-- 95_test_vectors.md, a List of one EStruct with one child under MAX_DEPTH 2: the child is too deep, after 6 bytes. -/
theorem test_tdfEnc_resource_offset :
    Extent.FirstTooDeep (.fin 2) (Tdf.extent (.list 0xB33000 .struct (.cons (.struct false (.cons valInt .nil)) .nil)) 1) 6 ∧
      Gives (.tdfEnc (.list 0xB33000 .struct (.cons (.struct false (.cons valInt .nil)) .nil))) (inst (.fin 2) .inf .inf)
        (.err (.resource (.depth 6))) :=
  ⟨⟨[(0, 1), (6, 2)], 3, [], by decide, by simp [Bound.holds], by simp [Bound.holds]⟩, gives_of_lastResp rfl (by decide)⟩

/-- An empty Union whose discriminant is not 0x7F, the ill-formed value of the clauses about a part. -/
def bad : Tdf := .union 0xD40000 0x00 .none

theorem bad_gives : Gives (.tdfEnc bad) State.reset (.err (.precondition (.node [] .c))) :=
  gives_of_lastResp rfl (by decide)

theorem bad_struct_gives :
    Gives (.tdfEnc (.struct 0 false (.cons bad .nil))) State.reset (.err (.precondition (.node [0] .c))) :=
  gives_of_lastResp rfl (by decide)

theorem test_witness_PreconditionNamesFirstBadNode :
    (∃ e ∈ Elems.toList (.cons (.string []) .nil), Elem.kind e ≠ Kind.int) ∧
    ((Elems.toList (.cons (.int 1) .nil)).length ≠ (Elems.toList .nil).length) ∧ (0x00#8 ≠ 0x7F#8) ∧
    Gives (.tdfEnc bad) State.reset (.err (.precondition (.node [] .c))) ∧
    ((Tdfs.toList (.cons valInt (.cons bad .nil)))[1]? = some bad ∧
      ∀ y ∈ (Tdfs.toList (.cons valInt (.cons bad .nil))).take 1, Tdf.WF y) ∧
    ((∀ e ∈ Elems.toList (.cons (.struct false .nil) (.cons (.struct false (.cons bad .nil)) .nil)), Elem.kind e = .struct) ∧
      (Elems.toList (.cons (.struct false .nil) (.cons (.struct false (.cons bad .nil)) .nil)))[1]? =
        some (.struct false (.cons bad .nil)) ∧
      ∀ e ∈ (Elems.toList (.cons (.struct false .nil) (.cons (.struct false (.cons bad .nil)) .nil))).take 1, Elem.WF e) ∧
    Gives (.tdfEnc (.struct 0 false (.cons bad .nil))) State.reset (.err (.precondition (.node [0] .c))) ∧
    ([valInt, bad][1]? = some bad ∧ ∀ y ∈ [valInt, bad].take 1, Tdf.WF y) := by
  refine ⟨⟨_, List.mem_cons_self, by decide⟩, by decide, by decide, bad_gives, ?_, ?_, bad_struct_gives, ?_⟩ <;>
    simp [Elems.toList, Tdfs.toList, Elem.kind, Elem.WF, Tdfs.WF, Tdf.WF, valInt]

/-- The PairList clause of the same statement: a bad body in `bs[0]`, beside a well-formed `as[0]`. -/
theorem test_witness_PreconditionNamesFirstBadNode_pairs :
    (∀ e ∈ Elems.toList (.cons (.int 1) .nil), Elem.kind e = .int) ∧
    (∀ e ∈ Elems.toList (.cons (.struct false (.cons bad .nil)) .nil), Elem.kind e = .struct) ∧
    (Elems.toList (.cons (.int 1) .nil)).length = (Elems.toList (.cons (.struct false (.cons bad .nil)) .nil)).length ∧
    (∃ e, (Elems.toList (.cons (.int 1) .nil))[0]? = some e ∧ Elem.WF e) ∧
    (Elems.toList (.cons (.struct false (.cons bad .nil)) .nil))[0]? = some (.struct false (.cons bad .nil)) := by
  simp [Elems.toList, Elem.kind, Elem.WF]

/-- Depth refused and allowed; three bytes of a header; type bytes on both sides of the last one. -/
theorem test_witness_TdfDecDispatchesOnType :
    ¬ Bound.holds (inst (.fin 0) .inf .inf).params.maxDepth 1 ∧ Bound.holds (inst (.fin 1) .inf .inf).params.maxDepth 1 ∧
      [0x00#8, 0x00, 0x00].length - 0 < 4 ∧ [0x00#8, 0x00, 0x00, 0x0B][0 + 3]? = some 0x0B#8 ∧ 0x0A < (0x0B#8).toNat ∧
      TdfType.code .float = 0x0A#8 ∧ [0x00#8, 0x00, 0x00, 0x0A].length = 4 := by
  simp [inst, State.create, Bound.holds, TdfType.code]

theorem test_witness_BadSubtypesRefused :
    [0x04#8][1]? = none ∧ 1 ≤ [0x04#8].length ∧ (0x02#8).toNat ∉ [0x00, 0x01, 0x03, 0x09, 0x0A] ∧
      (0x0B#8).toNat ∉ [0x00, 0x01, 0x03, 0x09, 0x0A] ∧ (0x0A#8).toNat ∈ [0x00, 0x01, 0x03, 0x09, 0x0A] ∧
      [0x0A#8][0]? = some 0x0A#8 ∧ [0x0A#8][0 + 1]? = none ∧ [0x0A#8, 0x0B][0 + 1]? = some 0x0B#8 := by decide

/-- A count of -1, and of 3 where MAX_ELEMS is 2, after one and after two subtype bytes. -/
theorem test_witness_CountLimits :
    Gives (.elemInt (.read [0x00, 0x01] 1 1)) State.reset (.ok (.elemAt (.int (-1)) 2)) ∧ (-1 : I64).toInt < 0 ∧
      Gives (.elemInt (.read [0x00, 0x00, 0x06] 2 1)) (inst .inf (.fin 2) .inf) (.ok (.elemAt (.int 3) 3)) ∧
      0 ≤ (3 : I64).toInt ∧ ¬ Bound.holds (inst .inf (.fin 2) .inf).params.maxElems (3 : I64).toInt.toNat ∧
      [0x00#8, 0x01][0]? = some (Kind.code .int) ∧ [0x00#8, 0x00, 0x06][0 + 1]? = some (Kind.code .int) :=
  ⟨gives_of_lastResp rfl (by decide), by decide, gives_of_lastResp rfl (by decide), by decide,
    by simp [inst, State.create, Bound.holds], by decide, by decide⟩

/-- A Struct with a marker, a child, and MAX_DEPTH exactly what it needs. -/
def nested : Tdf := .struct 0xCAFBF4 false (.cons valInt .nil)

theorem nested_fits : Tdf.WF nested ∧ Bound.holds (inst (.fin 2) (.fin 0) .inf).params.maxDepth (Tdf.reach nested 1) ∧
    Tdf.Plain (inst (.fin 2) (.fin 0) .inf).params nested := by
  refine ⟨by simp [nested, valInt, Tdf.WF, Tdfs.WF], by simp [nested, valInt, Tdf.reach, Tdfs.reach, inst, State.create, Bound.holds], ?_⟩
  simp only [nested, valInt, Tdf.Plain, Tdfs.Plain, BodyOk, Tdfs.toList, List.mem_singleton, forall_eq, and_true, Tdf.tagOf]
  refine ⟨by decide, ?_⟩
  intro _ x hx
  cases hx
  decide

theorem test_witness_TdfRoundTrip :
    Tdf.WF nested ∧ Bound.holds (inst (.fin 2) (.fin 0) .inf).params.maxDepth (Tdf.reach nested 1) ∧
      Tdf.Plain (inst (.fin 2) (.fin 0) .inf).params nested := nested_fits

theorem test_witness_DecodedValuesAreWellFormed :
    Gives (.tdfDec [0xDA, 0x1B, 0x00, 0x00, 0x09] 0) State.reset (.ok (.tdfAt valInt 5)) :=
  gives_of_lastResp rfl (by decide)

theorem test_witness_ContentDecReadsToTheEnd :
    ValuesAt State.reset [0xDA, 0x1B, 0x00, 0x00, 0x09, 0xDA] [valInt] 0 5 ∧
      5 < [0xDA#8, 0x1B, 0x00, 0x00, 0x09, 0xDA].length ∧
      Gives (.tdfDec [0xDA, 0x1B, 0x00, 0x00, 0x09, 0xDA] 5) State.reset (.err (.truncated 5)) :=
  ⟨⟨5, gives_of_lastResp rfl (by decide), rfl⟩, by decide, gives_of_lastResp rfl (by decide)⟩

/-- One value that is written; and a second value that goes beyond MAX_DEPTH, after the 5 bytes of the first. -/
theorem test_witness_ContentEncConcatenates :
    List.Forall₂ (fun x b => Gives (.tdfEnc x) State.reset (.ok (.bytes b))) [valInt] [[0xDA, 0x1B, 0x00, 0x00, 0x09]] ∧
      (∀ x ∈ [valInt, nested], Tdf.WF x) ∧
      (∃ x ∈ [valInt, nested], ¬ Bound.holds (inst (.fin 1) .inf .inf).params.maxDepth (Tdf.reach x 1)) ∧
      Gives (.contentEnc [valInt, nested]) (inst (.fin 1) .inf .inf) (.err (.resource (.depth 9))) :=
  ⟨.cons (gives_of_lastResp rfl (by decide)) .nil, by simp [nested, valInt, Tdf.WF, Tdfs.WF],
    ⟨nested, by simp, by simp [nested, valInt, Tdf.reach, Tdfs.reach, inst, State.create, Bound.holds]⟩,
    gives_of_lastResp rfl (by decide)⟩

theorem test_witness_ContentRoundTrip :
    ∀ x ∈ [nested, nested], Tdf.WF x ∧ Bound.holds (inst (.fin 2) (.fin 0) .inf).params.maxDepth (Tdf.reach x 1) ∧
      Tdf.Plain (inst (.fin 2) (.fin 0) .inf).params x := by
  simpa using nested_fits

theorem test_witness_CursorStaysInInput :
    Instr.cursor (.rdU8 [0x7F] 0) = some ([0x7F], 0) ∧ Gives (.rdU8 [0x7F] 0) State.reset (.ok (.u8At 0x7F 1)) ∧
      Result.cursor (.u8At 0x7F 1) = some 1 ∧ 0 ≤ [0x7F#8].length :=
  ⟨rfl, gives_of_lastResp rfl (by decide), rfl, by decide⟩

theorem test_witness_LenientDecodeErrorCodes :
    State.reset.strictVarint = false ∧ State.reset.params = Params.unbounded ∧
      Instr.decodes (.tdfDec [] 0) = true ∧ Instr.decodes (.contentDec []) = true := by decide

theorem test_witness_PktEncLayout :
    0xFFFFFFFF < (List.replicate 0x100000000 0x00#8).length ∧ (List.replicate 0xFFFF 0x00#8).length ≤ 0xFFFF ∧
      0xFFFF < (List.replicate 0x10000 0x00#8).length ∧ (List.replicate 0xFFFFFFFF 0x00#8).length ≤ 0xFFFFFFFF := by
  simp only [List.length_replicate]; decide

theorem test_witness_PktHdrFields :
    (List.replicate 11 0x00#8).length - 0 < 12 ∧ 12 ≤ (List.replicate 12 0x00#8).length - 0 ∧
      (fieldAt (List.replicate 12 0x00#8) (0 + 8)).getLsbD 12 = false ∧
      (fieldAt (List.replicate 8 0x00#8 ++ [0x10, 0x00, 0x00, 0x00, 0x00]) (0 + 8)).getLsbD 12 = true ∧
      (List.replicate 8 0x00#8 ++ [0x10, 0x00, 0x00, 0x00, 0x00]).length - 0 < 14 ∧
      14 ≤ (List.replicate 8 0x00#8 ++ [0x10, 0x00, 0x00, 0x00, 0x00, 0x00]).length - 0 := by decide

theorem test_witness_PktDecByItsHeader : 0 ≤ ([] : Bytes).length ∧ 15 ≤ p1.length := by decide

theorem test_witness_PacketRoundTrip : (List.replicate 0xFFFFFFFF 0x00#8).length ≤ 0xFFFFFFFF := by
  simp only [List.length_replicate]; decide

/-- BUF_CAP at 14: 14 bytes left and 15 bytes left; and the fault set. -/
theorem test_witness_StreamPushOutcome :
    (inst .inf .inf (.fin 14)).rfault = false ∧
      Bound.holds (inst .inf .inf (.fin 14)).params.bufCap (((inst .inf .inf (.fin 14)).rbuf ++ p1.take 14).length - 0) ∧
      14 < ((p1.take 14) ++ [0x00#8]).length - 0 ∧ { State.reset with rfault := true }.rfault = true := by
  refine ⟨rfl, ?_, by decide, rfl⟩
  show (p1.take 14).length ≤ 14
  decide

/-- Both limits met exactly: a packet of 15 = BUF_CAP + 1 bytes, pushed in two chunks. -/
theorem test_witness_ChunkingDoesNotMatter :
    (inst .inf .inf (.fin 14)).rbuf = [] ∧ (inst .inf .inf (.fin 14)).rfault = false ∧
      State.reset.params.bufCap = .inf ∧ (inst .inf .inf (.fin 14)).params.bufCap = .fin 14 ∧
      Gives (.pktDec [p1.take 14, [0xCC]].flatten 0) (inst .inf .inf (.fin 14))
        (.ok (.packetAt ⟨1, 0x28, 0, 0, 1, [0xAA, 0xBB, 0xCC]⟩ 15)) ∧
      (∀ k ∈ [(⟨1, 0x28, 0, 0, 1, [0xAA, 0xBB, 0xCC]⟩ : Packet)], (Packet.wire k).length ≤ 14 + 1) ∧
      [p1.take 14, [0xCC]].flatten.length - 15 ≤ 14 :=
  ⟨rfl, rfl, rfl, rfl, gives_of_lastResp rfl (by decide), by decide, by decide⟩

theorem test_witness_NoStreamByteLost :
    Pushes [[0x00]] State.reset [] { State.reset with rbuf := [0x00], responses := [.ok (.packets [])] } :=
  ⟨_, [], [], rfl, rfl, ⟨rfl, rfl⟩, rfl⟩

/-- The second clause: an instruction that writes no state. -/
theorem test_witness_NoStreamByteLost_other :
    exec (.cfgWr 0x01) State.reset = .next { strict with responses := [.ok .unit] } ∧
      (.cfgWr 0x01 : Instr) ≠ .blockReset := ⟨rfl, by decide⟩

theorem test_witness_ResetValues :
    State.reset = State.reset ∧ inst (.fin 1) .inf (.fin 14) = State.create ⟨.fin 1, .inf, .fin 14⟩ := ⟨rfl, rfl⟩

theorem test_witness_StepKeepsStateInv :
    State.reset.Inv ∧ step State.reset = .next State.reset := ⟨⟨rfl, trivial, 12, rfl⟩, rfl⟩

/-- The least legal parameters. -/
theorem test_witness_ResetMeetsStateInv : Params.legal ⟨.fin 1, .fin 0, .fin 14⟩ = true := by decide

/-- The bit cleared by a BLOCK.RESET, and set by a STREAM.PUSH. -/
theorem test_witness_RfaultIsSticky :
    (stepped { State.reset with rfault := true, port := [.cmd 0x4F []] }).map (·.rfault) = some false ∧
      (stepped { inst .inf .inf (.fin 14) with port := [.cmd 0x40 [.bytes (p1 ++ List.replicate 15 0x01)]] }).map
        (·.rfault) = some true := by decide

theorem test_witness_ErrorsKeepPersistentState :
    stepped (State.reset.issue (.cmd 0x50 [])) = some { State.reset with responses := [.err (.badCommand 0x50)] } := by
  decide

theorem test_witness_ErrorsByOperation :
    (after (.rdU8 [] 0) State.reset).map (·.responses) = some (State.reset.responses ++ [.err (.truncated 0)]) := by decide

theorem test_witness_OtherInstructionsKeepState :
    Instr.writesState (.zzEnc 0) = false ∧ strict.strictVarint = { strict with rbuf := [0x00] }.strictVarint ∧
      strict.params = { strict with rbuf := [0x00] }.params := by decide

theorem test_witness_OnlyTheNamedCommandsWrite :
    (stepped { State.reset with port := [.cmd 0x40 [.bytes [0x00]]] }).map (·.rbuf) = some [0x00] ∧
      (stepped { State.reset with port := [.cmd 0x41 [.int 1]] }).map (·.strictVarint) = some true := by decide

theorem test_witness_StepRunsDecodedInstruction :
    (State.reset.issue (.cmd 0x42 [])).port = [.cmd 0x42 []] ∧
      fetch (State.reset.issue (.cmd 0x42 [])).params (.cmd 0x42 []) = .ok (.cmd 0x42 []) ∧
      decode (.cmd 0x42 []) = .ok .cfgRd := by decide

theorem test_witness_EveryRequestGetsOneResponse :
    State.reset.port = [] ∧ (State.reset.issue (.cmd 0x50 [])).port = [.cmd 0x50 []] := by decide

/-- Reserved codes at the edges of the table: 0x00, 0x0E, 0x44 and 0xFF. -/
theorem test_witness_ReservedCodesRefused :
    ∀ c ∈ [0x00#8, 0x0E, 0x44, 0x50, 0xFF],
      (State.reset.issue (.cmd c [])).port = .cmd c [] :: [] ∧
        c.toNat ∉ [0x01, 0x02, 0x03, 0x04, 0x05, 0x06, 0x07, 0x08, 0x09, 0x0A, 0x0B, 0x0C, 0x0D, 0x10, 0x11, 0x20, 0x21,
          0x22, 0x23, 0x30, 0x31, 0x32, 0x40, 0x41, 0x42, 0x43, 0x4F] := by decide

/-- One past each range: 2^63, -2^63 - 1, 2^24, -1, 2^64, 2^16 and a cursor one past its input; an operand too many and
one of the wrong kind. -/
theorem test_witness_OutOfTypeOperandsRefused :
    (State.reset.issue (.cmd 0x03 [.int (2 ^ 63)])).port = [.cmd 0x03 [.int (2 ^ 63)]] ∧
      ¬ (-(2 ^ 63) ≤ (2 ^ 63 : Int) ∧ (2 ^ 63 : Int) < 2 ^ 63) ∧
      ¬ (-(2 ^ 63) ≤ (-(2 ^ 63) - 1 : Int) ∧ (-(2 ^ 63) - 1 : Int) < 2 ^ 63) ∧
      ¬ (0 ≤ (2 ^ 24 : Int) ∧ (2 ^ 24 : Int) < 2 ^ 24) ∧ ¬ (0 ≤ (-1 : Int) ∧ (-1 : Int) < 2 ^ 24) ∧
      ¬ (0 ≤ (2 ^ 64 : Int) ∧ (2 ^ 64 : Int) < 2 ^ 64) ∧
      [Operand.int 0, .int 0, .int 0, .int 0, .int (2 ^ 16), .bytes []] =
        [0, 0, 0, 0, 2 ^ 16].map Operand.int ++ [.bytes []] ∧
      ¬ (0 ≤ (2 ^ 16 : Int) ∧ (2 ^ 16 : Int) < 2 ^ 16) ∧ ¬ (0 ≤ (2 : Int) ∧ (2 : Int) ≤ [0x00#8].length) ∧
      ((0x42#8, []) ∈ commandShapes ∧ [Operand.int 0].map Operand.kind ≠ []) ∧
      (0x03#8, [.number]) ∈ commandShapes ∧ [Operand.bytes []].map Operand.kind ≠ [.number] := by decide

theorem test_witness_InstancesAreIndependent :
    System.stepAt [State.reset, strict] 0 = some [State.reset, strict] ∧ (1 : Nat) ≠ 0 := ⟨rfl, by decide⟩

theorem test_witness_DecodeEncode : Instr.wellFormed (.rdU8 [0x00] 1) = true ∧ Instr.wellFormed (.tdfInt 0 (.read [] 0 1)) = true := by
  decide

theorem test_witness_CommandsEncodeBack : decode (.cmd 0x05 [.int 3, .int 5]) = .ok (.numWr 3 5) := by decide

end Sys2Proof.Tests
end

/-! PROOFS. The statements about the state: the registers, reset, who writes what, the invariant, several
blocks side by side (10_state.md). -/

namespace Sys2Proof.Machine

/-! ## Reads stay within their input (R26) -/

/-- R26: what an operation reading at `pos` answers: the cursor of its result, where it has one, is not before `pos` and,
`pos` being within the input, not past the end. -/
def ReadsWithin (inp : Bytes) (pos : Nat) (o : Except Error Result) : Prop :=
  ∀ r q, o = .ok r → Result.cursor r = some q → pos ≤ q ∧ (pos ≤ inp.length → q ≤ inp.length)

theorem readsWithin_map {α : Type} {inp : Bytes} {pos : Nat} {x : Except Error α} {f : α → Result}
    (h : ∀ a q, x = .ok a → Result.cursor (f a) = some q → pos ≤ q ∧ (pos ≤ inp.length → q ≤ inp.length)) :
    ReadsWithin inp pos (x.map f) := by
  intro r q hr hq
  cases x with
  | error e => cases hr
  | ok a => cases hr; exact h a q rfl hq

/-- A reader that advances, answered with its value and its new offset. -/
theorem Advances.readsWithin {α : Type} {inp : Bytes} {pos k : Nat} {x : Except Error (α × Nat)}
    {mk : α → Nat → Result} (h : Advances inp pos k x) (hmk : ∀ a p, Result.cursor (mk a p) = some p) :
    ReadsWithin inp pos (x.map fun r => mk r.1 r.2) := by
  refine readsWithin_map fun ⟨a, p⟩ q hx hq => ?_
  obtain rfl : p = q := Option.some.inj ((hmk a p).symm.trans hq)
  have := h a p hx
  omega

theorem advances_ok {α : Type} (inp : Bytes) (pos : Nat) (a : α) : Advances inp pos 0 (.ok (a, pos)) := by
  rintro _ _ ⟨⟩
  exact ⟨Nat.le_refl _, id⟩

theorem readPacket_advances (inp : Bytes) (pos : Nat) : Advances inp pos 12 (readPacket inp pos) := by
  intro k q h
  obtain ⟨-, hge, hle⟩ := readPacket_wire h
  exact ⟨hge, fun _ => hle⟩

/-- R26: instruction `i` changes no state of R20 and what it answers reads within its input. -/
def AnswersWithin (s : State) (inp : Bytes) (pos : Nat) (i : Instr) : Prop :=
  ∃ out, exec i s = done s out ∧ ReadsWithin inp pos out

/-- A dispatch row that takes a cursor is that row reading from it, at some depth. -/
theorem answersWithin_row {α : Type} {row : Dispatch α → Instr} {o : Dispatch α} {s : State} {inp : Bytes} {pos : Nat}
    (ho : Dispatch.cursor o = some (inp, pos)) (h : ∀ d, AnswersWithin s inp pos (row (.read inp pos d))) :
    AnswersWithin s inp pos (row o) := by
  cases o with
  | read inp' pos' d => cases ho; exact h d
  | write x off d => cases ho

theorem readPayload_readsWithin (env : DecEnv) (tag : U24) (pos d : Nat) (ty : TdfType) :
    ReadsWithin env.inp pos ((readPayload env (readTdf env) tag pos d ty).map fun r => .tdfAt r.1 r.2) :=
  (readPayload_advances (readTdf_stepAdvances env) tag pos d ty).readsWithin fun _ _ => rfl

theorem readElem_readsWithin (env : DecEnv) (k : Kind) (pos d : Nat) :
    ReadsWithin env.inp pos ((readElem env (readTdf env) k pos d).map fun r => .elemAt r.1 r.2) :=
  (readElem_advances (readTdf_stepAdvances env) k pos d).readsWithin fun _ _ => rfl

/-- R26 for every command and row: the reads of Laws/Cursor.lean and the payloads and elements of Laws/TdfRecursion.lean
go forward; PKT.HDR answers no cursor. -/
theorem answersWithin_of_cursor {i : Instr} {inp : Bytes} {pos : Nat} (h : Instr.cursor i = some (inp, pos))
    (s : State) : AnswersWithin s inp pos i := by
  have payload (tag : U24) (d : Nat) := readPayload_readsWithin (s.decEnv inp) tag pos d
  have element (k : Kind) (d : Nat) := readElem_readsWithin (s.decEnv inp) k pos d
  cases i with
  | varintRd =>
    cases h
    refine ⟨_, rfl, readsWithin_map fun ⟨u, v, p⟩ q hx hq => ?_⟩
    cases hq
    exact readVarint_advances _ _ _ hx
  | rdU8 => cases h; exact ⟨_, rfl, (readU8_advances inp pos).readsWithin fun _ _ => rfl⟩
  | rdU16 => cases h; exact ⟨_, rfl, (readU16_advances inp pos).readsWithin fun _ _ => rfl⟩
  | rdU32 => cases h; exact ⟨_, rfl, (readU32_advances inp pos).readsWithin fun _ _ => rfl⟩
  | rdF64 => cases h; exact ⟨_, rfl, (readF64_advances inp pos).readsWithin fun _ _ => rfl⟩
  | strRd => cases h; exact ⟨_, rfl, (readString_advances _ inp pos).readsWithin fun _ _ => rfl⟩
  | blobRd => cases h; exact ⟨_, rfl, (readBlob_advances _ inp pos).readsWithin fun _ _ => rfl⟩
  | tdfDec => cases h; exact ⟨_, rfl, (readTdf_advances (s.decEnv inp) pos 1).readsWithin fun _ _ => rfl⟩
  | pktHdr => cases h; exact ⟨_, rfl, readsWithin_map fun _ _ _ hq => nomatch hq⟩
  | pktDec => cases h; exact ⟨_, rfl, (readPacket_advances inp pos).readsWithin fun _ _ => rfl⟩
  | tdfInt tag => exact answersWithin_row h fun d => ⟨_, rfl, payload tag d .int⟩
  | tdfString tag => exact answersWithin_row h fun d => ⟨_, rfl, payload tag d .string⟩
  | tdfBlob tag => exact answersWithin_row h fun d => ⟨_, rfl, payload tag d .blob⟩
  | tdfStruct tag => exact answersWithin_row h fun d => ⟨_, rfl, payload tag d .struct⟩
  | tdfList tag => exact answersWithin_row h fun d => ⟨_, rfl, payload tag d .list⟩
  | tdfPairList tag => exact answersWithin_row h fun d => ⟨_, rfl, payload tag d .pairList⟩
  | tdfUnion tag => exact answersWithin_row h fun d => ⟨_, rfl, payload tag d .union⟩
  | tdfVarIntList tag => exact answersWithin_row h fun d => ⟨_, rfl, payload tag d .varIntList⟩
  | tdfPair tag => exact answersWithin_row h fun d => ⟨_, rfl, payload tag d .pair⟩
  | tdfTriple tag => exact answersWithin_row h fun d => ⟨_, rfl, payload tag d .triple⟩
  | tdfFloat tag => exact answersWithin_row h fun d => ⟨_, rfl, payload tag d .float⟩
  | unionEmpty => exact answersWithin_row h fun _ => ⟨_, rfl, (advances_ok inp pos _).readsWithin fun _ _ => rfl⟩
  | elemInt => exact answersWithin_row h fun d => ⟨_, rfl, element .int d⟩
  | elemString => exact answersWithin_row h fun d => ⟨_, rfl, element .string d⟩
  | elemStruct => exact answersWithin_row h fun d => ⟨_, rfl, element .struct d⟩
  | elemTriple => exact answersWithin_row h fun d => ⟨_, rfl, element .triple d⟩
  | elemFloat => exact answersWithin_row h fun d => ⟨_, rfl, element .float d⟩
  | _ => cases h

/-- Settles O33: what an instruction with a cursor answers reads within the cursor's input. -/
theorem cursorStaysInInput : Obligations.CursorStaysInInput := by
  intro s i inp pos r q hcur hpos hgives hq
  obtain ⟨out, hexec, hwithin⟩ := answersWithin_of_cursor hcur s
  have hresp := (gives_of_done hexec _).1 hgives
  cases out with
  | error e => cases hresp
  | ok r' =>
    cases hresp
    obtain ⟨hge, hle⟩ := hwithin r q rfl hq
    exact ⟨hge, hle hpos⟩

/-! ## What an instruction and a step can do to the state (R20, R302) -/

/-- R20: all that instruction `i` can do to the state, besides what it does to the port and the responses (`ps`, `rs`):
nothing; CFG.WR stores its bit; BLOCK.RESET clears; STREAM.PUSH keeps what follows the packets it found, or overflows. -/
inductive StateChange (s : State) : Instr → State → Prop where
  | none (i : Instr) (ps : List Request) (rs : List Response) :
      StateChange s i { s with port := ps, responses := rs }
  | cfgWr (v : Byte) (ps : List Request) (rs : List Response) :
      StateChange s (.cfgWr v) { s with strictVarint := strictBit v, port := ps, responses := rs }
  | blockReset (ps : List Request) (rs : List Response) :
      StateChange s .blockReset { s.blockReset with port := ps, responses := rs }
  | pushed {chunk : Bytes} {ks : List Packet} {q : Nat} (chain : PacketChain (s.rbuf ++ chunk) ks 0 q)
      (fits : Bound.holds s.params.bufCap ((s.rbuf ++ chunk).length - q)) (ps : List Request) (rs : List Response) :
      StateChange s (.streamPush chunk) { s with rbuf := (s.rbuf ++ chunk).drop q, port := ps, responses := rs }
  | overflowed (chunk : Bytes) (ps : List Request) (rs : List Response) :
      StateChange s (.streamPush chunk) { s with rfault := true, port := ps, responses := rs }

theorem exec_stateChange {i : Instr} {s t : State} (h : exec i s = .next t) : StateChange s i t := by
  rcases exec_cases i s with ⟨r, hr, -⟩ | ⟨v, rfl⟩ | rfl | ⟨chunk, rfl⟩
  · cases hr.symm.trans h; exact .none i _ _
  · cases h; exact .cfgWr v _ _
  · cases h; exact .blockReset _ _
  · rcases streamPush_cases chunk s with ⟨hr, -⟩ | ⟨-, ⟨ks, q, hchain, hfits, hx⟩ | ⟨held, cap, hx⟩⟩
    · cases hr.symm.trans h; exact .none _ _ _
    · cases hx.symm.trans h; exact .pushed hchain hfits _ _
    · cases hx.symm.trans h; exact .overflowed chunk _ _

/-- The instruction that a step of `s` runs: the one the oldest waiting request stands for. -/
def State.runs (s : State) (i : Instr) : Prop := ∃ r rest, s.port = r :: rest ∧ fetchDecode s.params r = .ok i

/-- Taking the request changes nothing that a `StateChange` speaks of. -/
theorem StateChange.of_port {s t : State} {i : Instr} {rest : List Request} (h : StateChange { s with port := rest } i t) :
    StateChange s i t := by
  cases h with
  | none ps rs => exact .none i _ _
  | cfgWr v ps rs => exact .cfgWr v _ _
  | blockReset ps rs => exact .blockReset _ _
  | pushed chain fits ps rs => exact StateChange.pushed (s := s) chain fits _ _
  | overflowed chunk ps rs => exact .overflowed chunk _ _

/-- A step either touches the port and the responses alone, or is the change of the instruction it runs. -/
theorem step_stateChange {s t : State} (h : step s = .next t) :
    (∃ ps rs, t = { s with port := ps, responses := rs }) ∨ ∃ i, s.runs i ∧ StateChange s i t := by
  rcases step_cases s with ⟨-, hidle⟩ | ⟨r, rest, hport, ⟨e, -, -, hrefused⟩ | ⟨i, hdec, hexec⟩⟩
  · cases hidle.symm.trans h; exact .inl ⟨_, _, rfl⟩
  · cases hrefused.symm.trans h; exact .inl ⟨_, _, rfl⟩
  · exact .inr ⟨i, ⟨r, rest, hport, hdec⟩, (exec_stateChange (hexec.symm.trans h)).of_port⟩

/-! ## The invariant (R22, R251, R255, R7) -/

/-- R255: what follows the packets found does not begin with a complete packet. -/
theorem PacketChain.rest_incomplete {b : Bytes} : ∀ {ks : List Packet} {p q : Nat}, PacketChain b ks p q →
    p ≤ b.length → ∃ need, readPacket (b.drop q) 0 = .error (.incomplete need)
  | [], p, q, ⟨hq, need, hstop⟩, hp => by
    subst hq
    have hshift := readPacket_shift (b.take q) (b.drop q) 0
    rw [List.take_append_drop, List.length_take, Nat.min_eq_left hp, Nat.add_zero, hstop] at hshift
    cases hr : readPacket (b.drop q) 0 with
    | ok r => rw [hr] at hshift; cases hshift
    | error e => rw [hr] at hshift; cases hshift; exact ⟨need, rfl⟩
  | _ :: _, _, _, ⟨_, hread, hrest⟩, _ => hrest.rest_incomplete (readPacket_wire hread).2.2

/-- An empty RBUF meets the invariant whenever the parameters are legal. -/
theorem State.inv_of_rbuf_nil {s : State} (hlegal : s.params.legal = true) (hrbuf : s.rbuf = []) : s.Inv where
  legal := hlegal
  fits := by rw [hrbuf]; exact Bound.holds_zero _
  partialPacket := by rw [hrbuf]; exact ⟨12, rfl⟩

/-- The invariant speaks of RBUF and the parameters alone. -/
theorem State.Inv.congr {s t : State} (h : s.Inv) (hrbuf : t.rbuf = s.rbuf) (hparams : t.params = s.params) : t.Inv where
  legal := by rw [hparams]; exact h.legal
  fits := by rw [hrbuf, hparams]; exact h.fits
  partialPacket := by rw [hrbuf]; exact h.partialPacket

theorem StateChange.keeps_inv {s t : State} {i : Instr} (h : StateChange s i t) (hinv : s.Inv) : t.Inv := by
  cases h with
  | none => exact hinv.congr rfl rfl
  | cfgWr => exact hinv.congr rfl rfl
  | blockReset => exact State.inv_of_rbuf_nil hinv.legal rfl
  | pushed chain fits =>
    exact ⟨hinv.legal, by simpa only [List.length_drop] using fits, chain.rest_incomplete (Nat.zero_le _)⟩
  | overflowed => exact hinv.congr rfl rfl

/-- Settles O45: a step that runs no instruction keeps RBUF and the parameters, and the change an instruction makes keeps
the invariant. -/
theorem stepKeepsStateInv : Obligations.StepKeepsStateInv := by
  intro s t hinv hstep
  rcases step_stateChange hstep with ⟨ps, rs, rfl⟩ | ⟨i, -, hchange⟩
  · exact hinv.congr rfl rfl
  · exact hchange.keeps_inv hinv

/-- Settles O46: a newly created block has an empty RBUF. -/
theorem resetMeetsStateInv : Obligations.ResetMeetsStateInv := fun p hlegal =>
  State.inv_of_rbuf_nil (s := State.create p) hlegal (State.create_rbuf p)

/-! ## Who writes what (R20, R22, R23, R24, R302) -/

theorem StateChange.params_eq {s t : State} {i : Instr} (h : StateChange s i t) : t.params = s.params := by
  cases h <;> rfl

theorem StateChange.rbuf_writer {s t : State} {i : Instr} (h : StateChange s i t) (hne : t.rbuf ≠ s.rbuf) :
    i = .blockReset ∨ ∃ chunk, i = .streamPush chunk := by
  cases h with
  | blockReset => exact .inl rfl
  | pushed => exact .inr ⟨_, rfl⟩
  | none | cfgWr | overflowed => exact absurd rfl hne

theorem StateChange.strictVarint_writer {s t : State} {i : Instr} (h : StateChange s i t)
    (hne : t.strictVarint ≠ s.strictVarint) : i = .blockReset ∨ ∃ v, i = .cfgWr v := by
  cases h with
  | blockReset => exact .inl rfl
  | cfgWr => exact .inr ⟨_, rfl⟩
  | none | pushed | overflowed => exact absurd rfl hne

theorem StateChange.rfault_clearer {s t : State} {i : Instr} (h : StateChange s i t) (hs : s.rfault = true)
    (ht : t.rfault = false) : i = .blockReset := by
  cases h with
  | blockReset => rfl
  | none | cfgWr | pushed => exact absurd (hs.symm.trans ht) (by decide)
  | overflowed => cases ht

/-- R252: the overflow that sets RFAULT leaves RBUF and STRICT_VARINT. -/
theorem StateChange.rfault_setter {s t : State} {i : Instr} (h : StateChange s i t) (hs : s.rfault = false)
    (ht : t.rfault = true) : ∃ chunk, i = .streamPush chunk ∧ t.rbuf = s.rbuf ∧ t.strictVarint = s.strictVarint := by
  cases h with
  | overflowed chunk => exact ⟨chunk, rfl, rfl, rfl⟩
  | none | cfgWr | pushed => exact absurd (hs.symm.trans ht) (by decide)
  | blockReset => cases ht

/-- Settles O47: by the change of the instruction that the step ran. -/
theorem rfaultIsSticky : Obligations.RfaultIsSticky := by
  intro s t hstep
  rcases step_stateChange hstep with ⟨ps, rs, rfl⟩ | ⟨i, ⟨r, rest, hport, hdec⟩, hchange⟩
  · exact ⟨fun hs ht => absurd (hs.symm.trans ht) (by decide), fun hs ht => absurd (hs.symm.trans ht) (by decide)⟩
  · refine ⟨fun hs ht => ?_, fun hs ht => ?_⟩
    · obtain rfl := hchange.rfault_clearer hs ht
      exact ⟨r, rest, hport, hdec⟩
    · obtain ⟨chunk, rfl, hkept⟩ := hchange.rfault_setter hs ht
      exact ⟨r, rest, chunk, hport, hdec, hkept⟩

/-- Settles O51: by the change of the instruction that the step ran. -/
theorem onlyTheNamedCommandsWrite : Obligations.OnlyTheNamedCommandsWrite := by
  intro s t hstep
  rcases step_stateChange hstep with ⟨ps, rs, rfl⟩ | ⟨i, ⟨r, rest, hport, hdec⟩, hchange⟩
  · exact ⟨rfl, fun hne => absurd rfl hne, fun hne => absurd rfl hne⟩
  · exact ⟨hchange.params_eq,
      fun hne => ⟨r, rest, i, hport, hdec, hchange.rbuf_writer hne⟩,
      fun hne => ⟨r, rest, i, hport, hdec, hchange.strictVarint_writer hne⟩⟩

/-- Settles O50: an instruction that writes no state of R20 gives one response, the same one in both states. -/
theorem otherInstructionsKeepState : Obligations.OtherInstructionsKeepState := fun i s s' hwrites hstrict hparams =>
  ⟨gives_of_not_writesState i s hwrites, gives_same_of_not_writesState i s s' hwrites hstrict hparams⟩

/-! ## The registers and reset (R25, R30 to R33) -/

/-- R25: CFG in full. -/
theorem cfgByte_eq (s : State) : cfgByte s = if s.strictVarint then 0x01 else 0x00 := by
  rw [cfgByte]
  cases s.strictVarint <;> rfl

/-- R25, R33: STATUS as a number, RBUF_NONEMPTY worth 2 and RFAULT worth 1. -/
theorem statusByte_toNat (s : State) :
    (statusByte s).toNat = (if s.rbuf = [] then 0 else 2) + (if s.rfault = true then 1 else 0) := by
  rw [statusByte]
  cases s.rbuf with
  | nil => cases s.rfault <;> rfl
  | cons b bs =>
    rw [if_neg (List.cons_ne_nil b bs), List.isEmpty_cons]
    cases s.rfault <;> rfl

/-- CFG.RD answers the register CFG. -/
theorem gives_cfgRd (s : State) : Gives .cfgRd s (.ok (.u8 (cfgByte s))) := rfl

/-- STAT.RD answers the register STATUS. -/
theorem gives_statRd (s : State) : Gives .statRd s (.ok (.u8 (statusByte s))) := rfl

/-- Settles O42: CFG.WR stores `strictBit` of its operand, and the two reads answer CFG and STATUS. -/
theorem controlRegisters : Obligations.ControlRegisters := by
  intro s v
  refine ⟨rfl, ?_, statusByte s, gives_statRd s, statusByte_toNat s⟩
  rw [← cfgByte_eq]
  exact gives_cfgRd s

/-- Settles O43: the answer of BLOCK.RESET to `State.blockReset`, field by field. -/
theorem blockResetClears : Obligations.BlockResetClears := fun _ => rfl

/-- R30: both registers read as 0x00 when RBUF is empty and both bits are clear. -/
theorem gives_registers_zero {s : State} (hrbuf : s.rbuf = []) (hrfault : s.rfault = false)
    (hstrict : s.strictVarint = false) : Gives .cfgRd s (.ok (.u8 0x00)) ∧ Gives .statRd s (.ok (.u8 0x00)) := by
  have hcfg : cfgByte s = 0x00 := by rw [cfgByte_eq, hstrict]; rfl
  have hstatus : statusByte s = 0x00 := BitVec.eq_of_toNat_eq (by rw [statusByte_toNat, hrbuf, hrfault]; rfl)
  exact ⟨hcfg ▸ gives_cfgRd s, hstatus ▸ gives_statRd s⟩

/-- Settles O44: the reset state is the newly created block with the parameters INF. -/
theorem resetValues : Obligations.ResetValues := by
  rintro s (rfl | ⟨p, rfl⟩)
  · exact ⟨rfl, rfl, rfl, gives_registers_zero rfl rfl rfl⟩
  · exact ⟨rfl, rfl, rfl, gives_registers_zero rfl rfl rfl⟩

/-! ## Several blocks side by side (R34) -/

/-- R34: a step at place `n` is a step of the state there, put back in its place. -/
theorem System.stepAt_eq_some {sys sys' : System} {n : Nat} (h : System.stepAt sys n = some sys') :
    ∃ s t, sys[n]? = some s ∧ step s = .next t ∧ sys' = sys.set n t := by
  unfold System.stepAt at h
  split at h
  · cases h
  · rename_i s hs
    split at h
    · rename_i t ht
      cases h
      exact ⟨s, t, hs, ht, rfl⟩
    · cases h
    · cases h

/-- Settles O57: the other places of the list are as they were, and place `n` holds the state stepped to. -/
theorem instancesAreIndependent : Obligations.InstancesAreIndependent := by
  intro sys sys' n m h
  obtain ⟨s, t, hs, hstep, rfl⟩ := System.stepAt_eq_some h
  refine ⟨fun hmn => List.getElem?_set_ne hmn.symm, fun u hu => ?_⟩
  obtain rfl : s = u := Option.some.inj (hs.symm.trans hu)
  exact ⟨t, hstep, List.getElem?_set_self (List.getElem?_eq_some_iff.1 hs).1⟩

end Sys2Proof.Machine

/-! PROOFS. The statement about the order of commands: a step and the instruction it runs (20_memory.md). -/

namespace Sys2Proof.Machine

/-- R80: a request stands for the instruction its raw instruction decodes to. -/
theorem fetchDecode_of_decode {p : Params} {r : Request} {raw : Raw} {i : Instr} (hfetch : fetch p r = .ok raw)
    (hdecode : decode raw = .ok i) : fetchDecode p r = .ok i := by
  simp only [fetchDecode, hfetch, bind, Except.bind, hdecode, pure, Except.pure]

/-- R49: a step runs the instruction the oldest request stands for, that request taken from the port. -/
theorem step_of_fetchDecode {s : State} {r : Request} {rest : List Request} {i : Instr} (hport : s.port = r :: rest)
    (hdec : fetchDecode s.params r = .ok i) : step s = exec i { s with port := rest } := by
  rcases step_cases s with ⟨hidle, -⟩ | ⟨r', rest', hport', hrun⟩
  · cases hport.symm.trans hidle
  · obtain ⟨rfl, rfl⟩ : r = r' ∧ rest = rest' := List.cons.inj (hport.symm.trans hport')
    rcases hrun with ⟨e, -, herror, -⟩ | ⟨i', hdec', hexec⟩
    · cases hdec.symm.trans herror
    · obtain rfl : i = i' := Except.ok.inj (hdec.symm.trans hdec')
      exact hexec

/-- Settles O53: the oldest request stands for the instruction it decodes to, and a step runs that instruction. -/
theorem stepRunsDecodedInstruction : Obligations.StepRunsDecodedInstruction :=
  fun _ _ _ _ _ hport hfetch hdecode => step_of_fetchDecode hport (fetchDecode_of_decode hfetch hdecode)

end Sys2Proof.Machine

/-! PROOFS. The statements about the decoder and the encoder, and about the subtype bytes of the rows that read them
(30_encoding.md). -/

namespace Sys2Proof.Machine

/-! ## Commands (R80, R285) -/

/-- R80: a command decodes by the reader that the table gives its code. -/
theorem decode_cmd_eq_ok {code : Byte} {ops : List Operand} {i : Instr} :
    decode (.cmd code ops) = .ok i ↔ ∃ take, commandTable code = some take ∧ take ops = some i := by
  have hok : (Raw.cmd code ops).operandsOk = true := rfl
  rw [decode, if_pos hok, decodeCommand]
  cases commandTable code with
  | none => simp
  | some take => cases htake : take ops <;> simp [htake]

theorem decode_cmd {code : Byte} {take : List Operand → Option Instr} {ops : List Operand} {i : Instr}
    (hcode : commandTable code = some take) (htake : take ops = some i) : decode (.cmd code ops) = .ok i :=
  decode_cmd_eq_ok.2 ⟨take, hcode, htake⟩

theorem takeOne_eq {α : Type} {ty : Operand → Option α} {mk : α → Instr} {o : Operand} {a : α} (h : ty o = some a) :
    takeOne ty mk [o] = some (mk a) := by
  rw [takeOne, h, Option.map_some]

/-- The instruction that `take` reads from the operands of `code` is well formed and is encoded as just those. -/
def EncodesBack (code : Byte) (take : List Operand → Option Instr) : Prop :=
  ∀ ops i, take ops = some i → encode i = .cmd code ops ∧ i.wellFormed = true

theorem takeNone_encodesBack {code : Byte} {i : Instr} (henc : encode i = .cmd code [])
    (hwf : i.wellFormed = true) : EncodesBack code (takeNone i) := by
  intro ops j h
  obtain ⟨rfl, rfl⟩ := takeNone_eq_some h
  exact ⟨henc, hwf⟩

/-- `write` gives the one operand that is read as a value of the type. -/
theorem takeOne_encodesBack {α : Type} {code : Byte} {ty : Operand → Option α} {mk : α → Instr} {write : α → Operand}
    (hty : ∀ o a, ty o = some a → o = write a) (henc : ∀ a, encode (mk a) = .cmd code [write a])
    (hwf : ∀ a, (mk a).wellFormed = true) : EncodesBack code (takeOne ty mk) := by
  intro ops i h
  obtain ⟨o, a, rfl, ho, rfl⟩ := takeOne_eq_some h
  obtain rfl := hty o a ho
  exact ⟨henc a, hwf a⟩

theorem takeCursor_encodesBack {code : Byte} {mk : Bytes → Nat → Instr}
    (henc : ∀ inp pos, encode (mk inp pos) = .cmd code (cursorOps inp pos))
    (hwf : ∀ inp pos, (mk inp pos).wellFormed = cursorOk inp pos) : EncodesBack code (takeCursor mk) := by
  intro ops i h
  obtain ⟨inp, pos, rfl, hcursor, rfl⟩ := takeCursor_eq_some h
  exact ⟨henc inp pos, (hwf inp pos).trans hcursor⟩

/-- R107: the reader of NUM.WR. -/
theorem takeNum_encodesBack : EncodesBack 0x05 takeNum := by
  intro ops i h
  unfold takeNum at h
  split at h
  · split at h
    · rename_i hw hv
      cases h
      obtain rfl := asInt_eq_some hw
      obtain rfl := asUnsigned_eq_some hv
      exact ⟨rfl, rfl⟩
    · cases h
  · cases h

/-- R220: the reader of PKT.ENC. -/
theorem takePacket_encodesBack : EncodesBack 0x30 takePacket := by
  intro ops i h
  unfold takePacket at h
  split at h
  · split at h
    · rename_i hcomponent hcommand herror hqtype hid hcontent
      cases h
      obtain rfl := asUnsigned_eq_some hcomponent
      obtain rfl := asUnsigned_eq_some hcommand
      obtain rfl := asUnsigned_eq_some herror
      obtain rfl := asUnsigned_eq_some hqtype
      obtain rfl := asUnsigned_eq_some hid
      obtain rfl := asBytes_eq_some hcontent
      exact ⟨rfl, rfl⟩
    · cases h
  · cases h

theorem takeI64_encodesBack {code : Byte} {mk : I64 → Instr} (henc : ∀ v, encode (mk v) = .cmd code [.int v.toInt])
    (hwf : ∀ v, (mk v).wellFormed = true) : EncodesBack code (takeOne Operand.asI64 mk) :=
  takeOne_encodesBack (fun _ _ => asI64_eq_some) henc hwf

theorem takeUnsigned_encodesBack {code : Byte} {w : Nat} {mk : BitVec w → Instr}
    (henc : ∀ v, encode (mk v) = .cmd code [.int v.toNat]) (hwf : ∀ v, (mk v).wellFormed = true) :
    EncodesBack code (takeOne (Operand.asUnsigned w) mk) :=
  takeOne_encodesBack (fun _ _ => asUnsigned_eq_some) henc hwf

theorem takeBytes_encodesBack {code : Byte} {mk : Bytes → Instr} (henc : ∀ b, encode (mk b) = .cmd code [.bytes b])
    (hwf : ∀ b, (mk b).wellFormed = true) : EncodesBack code (takeOne Operand.asBytes mk) :=
  takeOne_encodesBack (fun _ _ => asBytes_eq_some) henc hwf

/-- R80: row by row of the command table. -/
theorem commandTable_encodesBack {code : Byte} {take : List Operand → Option Instr}
    (h : commandTable code = some take) : EncodesBack code take := by
  have code_of_toNat {n : Nat} (hn : code.toNat = n) : code = BitVec.ofNat 8 n := by
    rw [← hn, BitVec.ofNat_toNat, BitVec.setWidth_eq]
  unfold commandTable at h
  split at h <;> cases h <;> rename_i hcode <;> obtain rfl := code_of_toNat hcode
  · exact takeI64_encodesBack (fun _ => rfl) fun _ => rfl
  · exact takeUnsigned_encodesBack (fun _ => rfl) fun _ => rfl
  · exact takeI64_encodesBack (fun _ => rfl) fun _ => rfl
  · exact takeCursor_encodesBack (fun _ _ => rfl) fun _ _ => rfl
  · exact takeNum_encodesBack
  · exact takeCursor_encodesBack (fun _ _ => rfl) fun _ _ => rfl
  · exact takeCursor_encodesBack (fun _ _ => rfl) fun _ _ => rfl
  · exact takeCursor_encodesBack (fun _ _ => rfl) fun _ _ => rfl
  · exact takeCursor_encodesBack (fun _ _ => rfl) fun _ _ => rfl
  · exact takeBytes_encodesBack (fun _ => rfl) fun _ => rfl
  · exact takeCursor_encodesBack (fun _ _ => rfl) fun _ _ => rfl
  · exact takeBytes_encodesBack (fun _ => rfl) fun _ => rfl
  · exact takeCursor_encodesBack (fun _ _ => rfl) fun _ _ => rfl
  · exact takeBytes_encodesBack (fun _ => rfl) fun _ => rfl
  · exact takeUnsigned_encodesBack (fun _ => rfl) fun _ => rfl
  · exact takeOne_encodesBack (fun _ _ => asTdf_eq_some) (fun _ => rfl) fun _ => rfl
  · exact takeCursor_encodesBack (fun _ _ => rfl) fun _ _ => rfl
  · exact takeBytes_encodesBack (fun _ => rfl) fun _ => rfl
  · exact takeOne_encodesBack (fun _ _ => asTdfs_eq_some) (fun _ => rfl) fun _ => rfl
  · exact takePacket_encodesBack
  · exact takeCursor_encodesBack (fun _ _ => rfl) fun _ _ => rfl
  · exact takeCursor_encodesBack (fun _ _ => rfl) fun _ _ => rfl
  · exact takeBytes_encodesBack (fun _ => rfl) fun _ => rfl
  · exact takeUnsigned_encodesBack (fun _ => rfl) fun _ => rfl
  · exact takeNone_encodesBack rfl rfl
  · exact takeNone_encodesBack rfl rfl
  · exact takeNone_encodesBack rfl rfl

/-- Settles O59: the reader that the table gives the code reads an instruction only from its encoding. -/
theorem commandsEncodeBack : Obligations.CommandsEncodeBack := by
  intro code ops i h
  obtain ⟨take, hcode, htake⟩ := decode_cmd_eq_ok.1 h
  exact commandTable_encodesBack hcode ops i htake

/-! ## Dispatch rows (R65, R66, R70, R73) -/

/-- R65, R66: a header word with the code of `ty` in its type byte decodes to the row of `ty`. -/
theorem decode_header {inp : Bytes} {pos depth : Nat} (tag : U24) (ty : TdfType)
    (h : (Raw.header (headerWord tag ty) inp pos depth).operandsOk = true) :
    decode (.header (headerWord tag ty) inp pos depth) = .ok (rowOfHeader tag inp pos depth ty) := by
  rw [decode, if_pos h, headerType_headerWord, tdfType_ofByte_code, headerTag_headerWord]

/-- R168: a value to be written decodes to the row of its variant. -/
theorem decode_value {off depth : Nat} (x : Tdf) (h : (Raw.value x off depth).operandsOk = true) :
    decode (.value x off depth) = .ok (rowOfValue off depth x) := by
  rw [decode, if_pos h]

/-- R70: the subtype byte of kind `k` decodes to the row of `k`. -/
theorem decode_subtype {inp : Bytes} {pos depth : Nat} (k : Kind)
    (h : (Raw.subtype k.code inp pos depth).operandsOk = true) :
    decode (.subtype k.code inp pos depth) = .ok (rowOfKind inp pos depth k) := by
  rw [decode, if_pos h, kind_ofByte_code]

/-- R164: an element to be written decodes to the row of its kind. -/
theorem decode_elem {off depth : Nat} (e : Elem) (h : (Raw.elem e off depth).operandsOk = true) :
    decode (.elem e off depth) = .ok (rowOfElem off depth e) := by
  rw [decode, if_pos h]

/-- A row of a header type, in either direction, is read back. -/
theorem decode_rawRow {α : Type} {tag : U24} {ty : TdfType} {mk : α → Tdf} {row : Dispatch α → Instr} {o : Dispatch α}
    (hread : ∀ inp pos d, rowOfHeader tag inp pos d ty = row (.read inp pos d))
    (hwrite : ∀ x off d, rowOfValue off d (mk x) = row (.write x off d)) (h : o.ok = true) :
    decode (rawRow tag ty mk o) = .ok (row o) := by
  cases o with
  | read inp pos d => exact (decode_header tag ty h).trans (congrArg _ (hread inp pos d))
  | write x off d => exact (decode_value (mk x) h).trans (congrArg _ (hwrite x off d))

/-- A row of an element kind, in either direction, is read back. -/
theorem decode_rawElem {α : Type} {k : Kind} {mk : α → Elem} {row : Dispatch α → Instr} {o : Dispatch α}
    (hread : ∀ inp pos d, rowOfKind inp pos d k = row (.read inp pos d))
    (hwrite : ∀ x off d, rowOfElem off d (mk x) = row (.write x off d)) (h : o.ok = true) :
    decode (rawElem k mk o) = .ok (row o) := by
  cases o with
  | read inp pos d => exact (decode_subtype k h).trans (congrArg _ (hread inp pos d))
  | write x off d => exact (decode_elem (mk x) h).trans (congrArg _ (hwrite x off d))

/-- R73: the row UNION.Empty, whose sentinel stands in the input just before the row's cursor, is read back. -/
theorem decode_rawEmpty {tag : U24} {o : Dispatch Unit} (h : (o.ok && o.afterByte) = true) :
    decode (rawEmpty tag o) = .ok (.unionEmpty tag o) := by
  cases o with
  | read inp pos d =>
    simp only [Dispatch.ok, Dispatch.afterByte, cursorOk, Bool.and_eq_true, decide_eq_true_eq] at h
    obtain ⟨⟨hpos, hdepth⟩, hafter⟩ := h
    have hok : (Raw.disc emptyDisc tag inp (pos - 1) d).operandsOk = true := by
      simp only [Raw.operandsOk, Bool.and_eq_true, decide_eq_true_eq]
      omega
    rw [rawEmpty, decode, if_pos hok, rowOfDisc, if_pos rfl, Nat.sub_add_cancel hafter]
  | write x off d =>
    have hok : (Raw.empty tag off d).operandsOk = true := (Bool.and_eq_true_iff.1 h).1
    rw [rawEmpty, decode, if_pos hok]

/-- Settles O58: a command by its operands, a dispatch row by its opcode or by the value to be written. -/
theorem decodeEncode : Obligations.DecodeEncode := by
  intro i h
  cases i with
  | zzEnc v | varintWr v => exact decode_cmd rfl (takeOne_eq (asI64_toInt v))
  | zzDec v | tagUnpack v | cfgWr v => exact decode_cmd rfl (takeOne_eq (asUnsigned_toNat v))
  | numWr w v => exact decode_cmd rfl (takeNum_eq (asUnsigned_toNat v))
  | varintRd | rdU8 | rdU16 | rdU32 | rdF64 | strRd | blobRd | tdfDec | pktHdr | pktDec =>
    exact decode_cmd rfl (takeCursor_cursorOps h _)
  | strWr | blobWr | tagPack | tdfEnc | contentDec | contentEnc | streamPush => exact decode_cmd rfl (takeOne_eq rfl)
  | pktEnc component command error qtype id content =>
    exact decode_cmd rfl (takePacket_eq (asUnsigned_toNat component) (asUnsigned_toNat command)
      (asUnsigned_toNat error) (asUnsigned_toNat qtype) (asUnsigned_toNat id))
  | cfgRd | statRd | blockReset => exact decode_cmd rfl rfl
  | tdfInt | tdfString | tdfBlob | tdfStruct | tdfList | tdfPairList | tdfUnion | tdfVarIntList | tdfPair | tdfTriple
  | tdfFloat => exact decode_rawRow (fun _ _ _ => rfl) (fun _ _ _ => rfl) h
  | unionEmpty => exact decode_rawEmpty h
  | elemInt | elemString | elemStruct | elemTriple | elemFloat =>
    exact decode_rawElem (fun _ _ _ => rfl) (fun _ _ _ => rfl) h

/-- Settles O60: each word evaluated through the table. -/
theorem tableWordsDecode : Obligations.TableWordsDecode := ⟨rfl, rfl, rfl, rfl, rfl, rfl⟩

/-! ## Subtype bytes and discriminants (R77 (b), R175 to R177) -/

/-- R70: the bytes listed are the codes of the kinds. -/
theorem exists_kind_code {b : Byte} (h : b.toNat ∈ [0x00, 0x01, 0x03, 0x09, 0x0A]) : ∃ k : Kind, b = k.code := by
  obtain ⟨k, hk⟩ := Option.ne_none_iff_exists'.1 fun hnone => kind_ofByte_eq_none.1 hnone h
  exact ⟨k, kind_code_iff.1 hk⟩

section SubtypeErrors

variable {s : State} {tag : U24} {inp : Bytes} {pos d : Nat} {e : Error}

/-- R175: a List answers the error of its subtype byte. -/
theorem gives_tdfList_of_subtypeFails (h : SubtypeFails inp pos e) :
    Gives (.tdfList tag (.read inp pos d)) s (.err e) := by
  have hread : readListPayload (s.decEnv inp) (readTdf (s.decEnv inp)) tag pos d = .error e := by
    rw [readListPayload, readKind_error_iff.2 h, bind_error]
  exact (gives_of_done rfl _).2 (responseOf_map_error.2 hread)

/-- R176: a PairList answers the error of its first subtype byte. -/
theorem gives_tdfPairList_of_subtypeFails (h : SubtypeFails inp pos e) :
    Gives (.tdfPairList tag (.read inp pos d)) s (.err e) := by
  have hread : readPairListPayload (s.decEnv inp) (readTdf (s.decEnv inp)) tag pos d = .error e := by
    rw [readPairListPayload, readKind_error_iff.2 h, bind_error]
  exact (gives_of_done rfl _).2 (responseOf_map_error.2 hread)

/-- R176: after a first that names a kind, a PairList answers the error of its second subtype byte. -/
theorem gives_tdfPairList_of_second_subtypeFails {k : Kind} (hfirst : inp[pos]? = some k.code)
    (h : SubtypeFails inp (pos + 1) e) : Gives (.tdfPairList tag (.read inp pos d)) s (.err e) := by
  have hkind : readKind (s.decEnv inp) pos = .ok (k, pos + 1) := readKind_iff.2 ⟨hfirst, rfl⟩
  have hread : readPairListPayload (s.decEnv inp) (readTdf (s.decEnv inp)) tag pos d = .error e := by
    rw [readPairListPayload, hkind, bind_ok]
    dsimp only
    rw [readKind_error_iff.2 h, bind_error]
  exact (gives_of_done rfl _).2 (responseOf_map_error.2 hread)

/-- R177: a Union whose discriminant is missing answers TRUNCATED there. -/
theorem gives_tdfUnion_truncated (h : inp[pos]? = none) :
    Gives (.tdfUnion tag (.read inp pos d)) s (.err (.truncated pos)) := by
  have hread : readUnionPayload (s.decEnv inp) (readTdf (s.decEnv inp)) tag pos d = .error (.truncated pos) := by
    rw [readUnionPayload, State.decEnv_inp, readU8_error_iff.2 ⟨h, rfl⟩, bind_error]
  exact (gives_of_done rfl _).2 (responseOf_map_error.2 hread)

end SubtypeErrors

/-- Settles O26: `SubtypeFails` at the first or at the second subtype byte, missing or naming no kind. -/
theorem badSubtypesRefused : Obligations.BadSubtypesRefused := by
  intro s tag inp pos d _
  refine ⟨fun hmissing => ?_, fun b hb hunknown => ?_, fun a ha hkind => ?_⟩
  · have hfails : SubtypeFails inp pos (.truncated pos) := .inl ⟨hmissing, rfl⟩
    exact ⟨gives_tdfList_of_subtypeFails hfails, gives_tdfPairList_of_subtypeFails hfails,
      gives_tdfUnion_truncated hmissing⟩
  · have hfails : SubtypeFails inp pos (.unknownTdfType pos b) := .inr ⟨b, hb, hunknown, rfl⟩
    exact ⟨gives_tdfList_of_subtypeFails hfails, gives_tdfPairList_of_subtypeFails hfails⟩
  · obtain ⟨k, rfl⟩ := exists_kind_code hkind
    exact ⟨fun hmissing => gives_tdfPairList_of_second_subtypeFails ha (.inl ⟨hmissing, rfl⟩),
      fun b hb hunknown => gives_tdfPairList_of_second_subtypeFails ha (.inr ⟨b, hb, hunknown, rfl⟩)⟩

end Sys2Proof.Machine

/-! PROOFS. The statements about the Byte Cursor unit: zigzag, varints, fixed-width fields, strings and blobs
(40_byte_cursor.md). -/

namespace Sys2Proof.Machine

/-! ## What the commands answer -/

theorem gives_of_done_ok {i : Instr} {s : State} {x : Result} (h : exec i s = done s (.ok x)) (r : Response) :
    Gives i s r ↔ r = .ok x := gives_of_done h r

theorem gives_zzEnc_iff {s : State} {v : I64} {r : Response} :
    Gives (.zzEnc v) s r ↔ r = .ok (.u64 (zigzag v)) := gives_of_done_ok rfl r

theorem gives_zzDec_iff {s : State} {u : U64} {r : Response} :
    Gives (.zzDec u) s r ↔ r = .ok (.i64 (unzigzag u)) := gives_of_done_ok rfl r

theorem gives_varintWr_iff {s : State} {v : I64} {r : Response} :
    Gives (.varintWr v) s r ↔ r = .ok (.bytes (varintBytes v)) := gives_of_done_ok rfl r

theorem gives_varintRd_iff {s : State} {inp : Bytes} {pos : Nat} {r : Response} :
    Gives (.varintRd inp pos) s r ↔
      r = responseOf ((readVarint s.strictVarint inp pos).map fun x => .varint x.1 x.2.1 x.2.2) := gives_of_done rfl r

theorem gives_numWr_iff {s : State} {w : Int} {v : U64} {r : Response} :
    Gives (.numWr w v) s r ↔ r = responseOf ((writeNum w v).map .bytes) := gives_of_done rfl r

theorem gives_strWr_iff {s : State} {b : Bytes} {r : Response} :
    Gives (.strWr b) s r ↔ r = .ok (.bytes (stringBytes b)) := gives_of_done_ok rfl r

theorem gives_strRd_iff {s : State} {inp : Bytes} {pos : Nat} {r : Response} :
    Gives (.strRd inp pos) s r ↔
      r = responseOf ((readString s.strictVarint inp pos).map fun x => .bytesAt x.1 x.2) := gives_of_done rfl r

theorem gives_blobWr_iff {s : State} {b : Bytes} {r : Response} :
    Gives (.blobWr b) s r ↔ r = .ok (.bytes (blobBytes b)) := gives_of_done_ok rfl r

theorem gives_blobRd_iff {s : State} {inp : Bytes} {pos : Nat} {r : Response} :
    Gives (.blobRd inp pos) s r ↔
      r = responseOf ((readBlob s.strictVarint inp pos).map fun x => .bytesAt x.1 x.2) := gives_of_done rfl r

/-! ## Zigzag (R100, R101) -/

/-- R100, the shift-and-xor form: the arithmetic shift spreads the sign bit over all 64 bits. -/
theorem zigzag_eq_xor (v : I64) : zigzag v = (v <<< 1) ^^^ v.sshiftRight 63 := by
  refine BitVec.eq_of_getLsbD_eq fun i hi => ?_
  have hsign : (v.sshiftRight 63).getLsbD i = v.getLsbD 63 := by
    rw [BitVec.getLsbD_sshiftRight, BitVec.msb_eq_getLsbD_last]
    by_cases h0 : i = 0
    · subst h0; simp
    · simp [hi, show ¬ 63 + i < 64 by omega]
  have hshift : (v <<< 1).getLsbD i = (decide (i ≠ 0) && v.getLsbD (i - 1)) := by
    rw [BitVec.getLsbD_shiftLeft]
    simp [hi]
  rw [zigzag_getLsbD v i hi, BitVec.getLsbD_xor, hsign, hshift]

/-- Settles O1: `zigzag_toNat` gives the number, and `unzigzag` the one value with a given code. -/
theorem zzEncIsZigzagBijection : Obligations.ZzEncIsZigzagBijection := by
  refine fun s => ⟨fun v => ⟨zigzag v, gives_zzEnc_iff.2 rfl, rfl, zigzag_eq_xor v, zigzag_toNat v⟩, fun u => ?_⟩
  refine ⟨unzigzag u, gives_zzEnc_iff.2 (by rw [zigzag_unzigzag]), fun v hv => ?_⟩
  cases gives_zzEnc_iff.1 hv
  exact (unzigzag_zigzag v).symm

/-- Settles O2: `zigzag` and `unzigzag` undo each other. -/
theorem zzDecInvertsZzEnc : Obligations.ZzDecInvertsZzEnc := by
  refine fun s u => ⟨unzigzag u, gives_zzDec_iff.2 rfl, rfl, gives_zzEnc_iff.2 (by rw [zigzag_unzigzag]), ?_⟩
  intro w x hx
  cases gives_zzEnc_iff.1 hx
  exact gives_zzDec_iff.2 (by rw [unzigzag_zigzag])

/-! ## Writing varints (R102, R103) -/

theorem two_pow_seven_mul (k : Nat) : 2 ^ (7 * k) = 128 ^ k := pow_mul 2 7 k

/-- R103: `k` bytes are enough exactly for the codes below `2^(7k)`. -/
theorem varintBytes_length_le_iff {v : I64} {k : Nat} (hk : 1 ≤ k) :
    (varintBytes v).length ≤ k ↔ (zigzag v).toNat < 2 ^ (7 * k) := by
  obtain ⟨hvalue, -, -, -, hshortest⟩ := varintBytes_spec v
  rw [two_pow_seven_mul]
  refine ⟨fun hle => ?_, hshortest k hk⟩
  calc (zigzag v).toNat = base128 (varintBytes v) := hvalue.symm
    _ < 128 ^ (varintBytes v).length := base128_lt _
    _ ≤ 128 ^ k := Nat.pow_le_pow_right (by omega) hle

/-- R103: the values whose code has at most `m + 1` bits are those of `m + 1` bits in two's complement. -/
theorem zigzag_lt_two_pow_iff {v : I64} {m : Nat} :
    (zigzag v).toNat < 2 ^ (m + 1) ↔ -(2 ^ m : Int) ≤ v.toInt ∧ v.toInt ≤ 2 ^ m - 1 := by
  have hcode := zigzag_toNat v
  have hcast : ((2 ^ m : Nat) : Int) = 2 ^ m := by push_cast; rfl
  rw [← hcast, pow_succ]
  split at hcode <;> omega

/-- R103: of two values, the one smaller in absolute value has the smaller code. -/
theorem zigzag_lt_of_natAbs_lt {v w : I64} (h : v.toInt.natAbs < w.toInt.natAbs) :
    (zigzag v).toNat < (zigzag w).toNat := by
  have hv := zigzag_toNat v
  have hw := zigzag_toNat w
  split at hv <;> split at hw <;> omega

theorem varintBytes_length_mono {v w : I64} (h : (zigzag v).toNat ≤ (zigzag w).toNat) :
    (varintBytes v).length ≤ (varintBytes w).length := by
  obtain ⟨-, hpos, -⟩ := varintBytes_spec w
  exact (varintBytes_length_le_iff hpos).2 (lt_of_le_of_lt h ((varintBytes_length_le_iff hpos).1 le_rfl))

/-- Settles O3: `varintBytes_spec`, and `varintBytes_length_le_iff` for the shortest. -/
theorem varintWrEmitsShortestGroups : Obligations.VarintWrEmitsShortestGroups := by
  intro s v
  obtain ⟨hvalue, hpos, hten, hcontinued, -⟩ := varintBytes_spec v
  exact ⟨varintBytes v, zigzag v, gives_varintWr_iff.2 rfl, gives_zzEnc_iff.2 rfl, hpos, hten, hvalue, hcontinued,
    fun _ hk => (varintBytes_length_le_iff hk).2⟩

/-- Settles O4: the number of bytes by the code, and the code by the signed value. -/
theorem varintLengthBySignedRange : Obligations.VarintLengthBySignedRange := by
  intro s v
  obtain ⟨-, hpos, hten, -⟩ := varintBytes_spec v
  refine ⟨varintBytes v, gives_varintWr_iff.2 rfl, ⟨zigzag v, gives_zzEnc_iff.2 rfl, hpos, hten,
    (varintBytes_length_le_iff hpos).1 le_rfl, fun _ hk => (varintBytes_length_le_iff hk).2⟩, ?_, ?_⟩
  · intro k hk _
    have hbits : 7 * k = 7 * k - 1 + 1 := by omega
    rw [varintBytes_length_le_iff hk, hbits, zigzag_lt_two_pow_iff, ← hbits]
  · intro w c hc habs
    cases gives_varintWr_iff.1 hc
    exact varintBytes_length_mono (zigzag_lt_of_natAbs_lt habs).le

/-! ## Reading varints (R104 to R106) -/

section VarintReads

variable {s : State} {inp : Bytes} {pos p : Nat} {u : U64} {st : VStat}

/-- R104: in lenient mode the read answers what the loop ends with. -/
theorem gives_varintRd_lenient (hstrict : s.strictVarint = false) (hloop : varintLoop inp 10 pos 0 = (u, st, p)) :
    Gives (.varintRd inp pos) s (.ok (.varint u st p)) := by
  have hread : readVarint false inp pos = .ok (u, st, p) := congrArg Except.ok hloop
  rw [gives_varintRd_iff, hstrict, hread]
  rfl

/-- R105: in strict mode the loop's status decides between its result and an error. -/
theorem readVarint_strict (hloop : varintLoop inp 10 pos 0 = (u, st, p)) :
    (st = .ok → readVarint true inp pos = .ok (u, .ok, p)) ∧
    (st = .short → readVarint true inp pos = .error (.truncated pos)) ∧
    (st = .guard → readVarint true inp pos = .error (.varintOverflow pos)) := by
  rw [readVarint, hloop]
  refine ⟨?_, ?_, ?_⟩ <;> (rintro rfl; rfl)

end VarintReads

/-- Settles O5: each clause is one exit of the loop. -/
theorem varintRdLenientOutcome : Obligations.VarintRdLenientOutcome := by
  intro inp pos s _ hstrict
  refine ⟨fun n b hn hcont hb hlast hfits => ?_, fun n hn hcont hend => ?_, fun b hcont hb hbig => ?_,
    fun b hcont hb hfits hmore => ?_⟩
  · exact gives_varintRd_lenient hstrict (varintLoop_ok hn hcont hb hlast hfits)
  · exact gives_varintRd_lenient hstrict (varintLoop_short hn hcont hend)
  · exact gives_varintRd_lenient hstrict (varintLoop_guard_payload hcont hb hbig)
  · exact gives_varintRd_lenient hstrict (varintLoop_guard_continued hcont hb hfits hmore)

/-- Settles O6: both modes run the same loop, and its status decides. -/
theorem varintRdStrictOutcome : Obligations.VarintRdStrictOutcome := by
  intro inp pos s hstrict
  rcases hloop : varintLoop inp 10 pos 0 with ⟨u, st, p⟩
  obtain ⟨hok, hshort, hguard⟩ := readVarint_strict hloop
  refine ⟨u, st, p, gives_varintRd_lenient rfl hloop, ?_⟩
  rw [gives_varintRd_iff, hstrict]
  cases st with
  | ok => rw [hok rfl]; rfl
  | short => rw [hshort rfl]; rfl
  | guard => rw [hguard rfl]; rfl

/-- Settles O7: the varint read at the start of the input, then the zigzag code undone. -/
theorem varintRoundTrip : Obligations.VarintRoundTrip := by
  intro s v rest
  have hread := readVarint_varintBytes s.strictVarint [] v rest
  rw [List.nil_append, List.length_nil, Nat.zero_add] at hread
  refine ⟨varintBytes v, zigzag v, gives_varintWr_iff.2 rfl, ?_, gives_zzDec_iff.2 (by rw [unzigzag_zigzag])⟩
  rw [gives_varintRd_iff, hread]
  rfl

/-! ## Fixed width (R107 to R112) -/

/-- R11: the number of the `n` big-endian bytes of `v`. -/
theorem bigEndian_beBytes (n v : Nat) : bigEndian (beBytes n v) = v % 2 ^ (8 * n) := by
  rw [← beValue_eq_bigEndian, beValue_beBytes, pow_mul 2 8 n]
  rfl

/-- Settles O8: `beBytes` at a legal width, PRECONDITION at any other. -/
theorem numWrBigEndian : Obligations.NumWrBigEndian := by
  refine fun s w v => ⟨fun hw => ⟨beBytes w.toNat v.toNat, ?_, ?_, ?_⟩, fun hw => ?_⟩
  · rw [gives_numWr_iff, writeNum, if_pos hw]
    rfl
  · rw [beBytes_length]
    omega
  · rw [bigEndian_beBytes, beBytes_length]
  · rw [gives_numWr_iff, writeNum, if_neg hw]
    rfl

/-- R112: an instruction that answers a fixed-width read of `n` bytes as a word of `w` bits. -/
theorem gives_of_readFixed {i : Instr} {s : State} {inp : Bytes} {pos n w : Nat} {mk : BitVec w → Nat → Result}
    (h : exec i s = done s ((readFixed inp pos n).map fun x => mk (BitVec.ofNat w x.1) x.2)) :
    Gives i s (if inp.length - pos < n then .err (.truncated pos)
      else .ok (mk (BitVec.ofNat w (bigEndian ((inp.drop pos).take n))) (pos + n))) := by
  rw [gives_of_done h]
  by_cases hshort : inp.length - pos < n
  · rw [if_pos hshort, readFixed_eq_error.2 ⟨hshort, rfl⟩]
    rfl
  · rw [if_neg hshort, readFixed_eq_ok.2 ⟨Nat.le_of_not_lt hshort, rfl, rfl⟩, beValue_eq_bigEndian]
    rfl

/-- A fixed-width read made into a word, then into a result, is one map of the read. -/
theorem map_readFixed_word {inp : Bytes} {pos n w : Nat} (mk : BitVec w → Nat → Result) :
    ((do let (x, p) ← readFixed inp pos n; return (BitVec.ofNat w x, p)) : Except Error (BitVec w × Nat)).map
      (fun r => mk r.1 r.2) = (readFixed inp pos n).map fun x => mk (BitVec.ofNat w x.1) x.2 := by
  cases readFixed inp pos n <;> rfl

/-- Settles O9: the four reads are `readFixed` at 1, 2, 4 and 8 bytes. -/
theorem fixedWidthReads : Obligations.FixedWidthReads := fun s _ _ _ =>
  ⟨gives_of_readFixed (congrArg (done s) (map_readFixed_word _)),
    gives_of_readFixed (congrArg (done s) (map_readFixed_word _)),
    gives_of_readFixed (congrArg (done s) (map_readFixed_word _)),
    gives_of_readFixed (congrArg (done s) (map_readFixed_word _))⟩

/-! ## Strings and blobs (R113 to R117) -/

/-- R116: the bytes of a blob whose length a varint can carry. -/
theorem blobBytes_of_lt {b : Bytes} (h : b.length < 2 ^ 63) :
    blobBytes b = varintBytes (BitVec.ofNat 64 b.length) ++ b := by
  rw [blobBytes, lengthBytes_of_lt h]

/-- Settles O10: a string is written as the blob of its body. -/
theorem stringAndBlobWrites : Obligations.StringAndBlobWrites := by
  refine fun s b => ⟨fun hlen => ⟨_, gives_varintWr_iff.2 rfl, ?_⟩, fun hlen => ⟨_, gives_varintWr_iff.2 rfl, ?_⟩⟩
  · rw [gives_strWr_iff, stringBytes_eq, blobBytes_of_lt (lt_of_le_of_lt (stringBody_length_le b) hlen)]
    rfl
  · rw [gives_blobWr_iff, blobBytes_of_lt hlen]

section BodyReads

variable {strict : Bool} {inp : Bytes} {pos p : Nat} {u : U64} {st : VStat} {e : Error}

/-- R106, R117: a blob read after its varint `u`, which ends at `p`. -/
theorem readBlob_of_readVarint (h : readVarint strict inp pos = .ok (u, st, p)) :
    readBlob strict inp pos =
      if (unzigzag u).toInt < 0 then .error (.malformedLength pos (unzigzag u).toInt)
      else if inp.length - p < (unzigzag u).toInt.toNat then .error (.truncated p)
      else .ok (span inp p (unzigzag u).toInt.toNat, p + (unzigzag u).toInt.toNat) := by
  have hint : readInt strict inp pos = .ok (unzigzag u, p) := by rw [readInt, h]; rfl
  rw [readBlob, readLen, hint]
  by_cases hneg : (unzigzag u).toInt < 0
  · simp only [bind_ok, if_pos hneg, bind_error]
  · simp only [bind_ok, if_neg hneg, pure_eq_ok]

/-- R106, R117: a blob read answers its varint's error. -/
theorem readBlob_of_readVarint_error (h : readVarint strict inp pos = .error e) :
    readBlob strict inp pos = .error e := by
  rw [readBlob, readLen, readInt, h]
  rfl

end BodyReads

/-- R114: a string read is a blob read, its body made a string. -/
theorem readString_eq_map (strict : Bool) (inp : Bytes) (pos : Nat) :
    readString strict inp pos = (readBlob strict inp pos).map fun r => (bodyString r.1, r.2) := by
  rw [readString]
  cases readBlob strict inp pos <;> rfl

/-- Settles O11: by what the varint at the cursor is, an error or a number, then by the three outcomes of a body. -/
theorem stringAndBlobReads : Obligations.StringAndBlobReads := by
  intro s inp pos _
  refine ⟨_, gives_varintRd_iff.2 rfl, ?_⟩
  rw [gives_strRd_iff, gives_blobRd_iff, readString_eq_map]
  cases hvarint : readVarint s.strictVarint inp pos with
  | error e =>
    rw [readBlob_of_readVarint_error hvarint]
    exact ⟨rfl, rfl⟩
  | ok r =>
    obtain ⟨u, st, p⟩ := r
    rw [readBlob_of_readVarint hvarint]
    simp only [Except.map, responseOf_ok]
    by_cases hneg : (unzigzag u).toInt < 0
    · simp only [if_pos hneg]
      exact ⟨rfl, rfl⟩
    · by_cases hshort : inp.length - p < (unzigzag u).toInt.toNat
      · simp only [if_neg hneg, if_pos hshort]
        exact ⟨rfl, rfl⟩
      · simp only [if_neg hneg, if_neg hshort]
        exact ⟨rfl, rfl⟩

/-- A reader that finds `a` in the bytes `w` finds it when they begin the input. -/
theorem ReadsBack.at_start {α : Type} {read : Bytes → Nat → Except Error (α × Nat)} {w : Bytes} {a : α}
    (h : ReadsBack read w a) (rest : Bytes) : read (w ++ rest) 0 = .ok (a, w.length) := by
  have hread := h [] rest
  rwa [List.nil_append, List.length_nil, Nat.zero_add] at hread

/-- Settles O12: the written bytes read back at the start of the input. -/
theorem stringAndBlobRoundTrip : Obligations.StringAndBlobRoundTrip := by
  intro s b rest hlen
  refine ⟨⟨stringBytes b, gives_strWr_iff.2 rfl, ?_⟩, ⟨blobBytes b, gives_blobWr_iff.2 rfl, ?_⟩⟩
  · rw [gives_strRd_iff, (readString_back s.strictVarint hlen).at_start rest]
    rfl
  · rw [gives_blobRd_iff, (readBlob_back s.strictVarint (Nat.lt_of_succ_lt hlen)).at_start rest]
    rfl

end Sys2Proof.Machine

/-! PROOFS. The statements about the Tag Codec unit (41_tag_codec.md): the bits of a tag and of a label, and the laws of
the two directions. -/

namespace Sys2Proof.Machine

/-! ## What the commands answer -/

theorem gives_tagPack_iff {s : State} {label : Bytes} {r : Response} :
    Gives (.tagPack label) s r ↔ r = .ok (.tag (packTag label)) := gives_of_done_ok rfl r

theorem gives_tagPack_tag {s : State} {label : Bytes} {t : U24} :
    Gives (.tagPack label) s (.ok (.tag t)) ↔ packTag label = t := by
  rw [gives_tagPack_iff]
  simp only [Response.ok.injEq, Result.tag.injEq, eq_comm]

theorem gives_tagUnpack_iff {s : State} {t : U24} {r : Response} :
    Gives (.tagUnpack t) s r ↔ r = .ok (.bytes (unpackTag t)) := gives_of_done_ok rfl r

theorem gives_tagUnpack_bytes {s : State} {t : U24} {l : Bytes} :
    Gives (.tagUnpack t) s (.ok (.bytes l)) ↔ unpackTag t = l := by
  rw [gives_tagUnpack_iff]
  simp only [Response.ok.injEq, Result.bytes.injEq, eq_comm]

/-! ## One byte and its group (R140, R142) -/

theorem tagGroup_getLsbD (c : Byte) {j : Nat} (hj : j < 6) :
    (tagGroup c).getLsbD j = if j < 5 then c.getLsbD j else c.getLsbD 6 := by
  rw [tagGroup, BitVec.getLsbD_append]
  by_cases hlow : j < 5
  · simp [hlow]
  · obtain rfl : j = 5 := by omega
    simp

/-- R140: bits 5 and 7 of a byte are not carried. -/
theorem tagGroup_congr {c c' : Byte} (h : ∀ j, j < 7 → j ≠ 5 → c.getLsbD j = c'.getLsbD j) :
    tagGroup c = tagGroup c' := by
  refine BitVec.eq_of_getLsbD_eq fun j hj => ?_
  rw [tagGroup_getLsbD c hj, tagGroup_getLsbD c' hj]
  split
  · exact h j (by omega) (by omega)
  · exact h 6 (by omega) (by omega)

/-- R142: the byte `b_i` of a group, before a zero is rendered as space. -/
def plainByte (g : BitVec 6) : Byte := ((g.extractLsb' 5 1).setWidth 8 <<< 6) ||| (g.extractLsb' 0 5).setWidth 8

theorem groupByte_eq (g : BitVec 6) : groupByte g = if plainByte g = 0 then 0x20 else plainByte g := rfl

theorem plainByte_getLsbD (g : BitVec 6) (j : Nat) :
    (plainByte g).getLsbD j = if j < 5 then g.getLsbD j else (decide (j = 6) && g.getLsbD 5) := by
  by_cases hlow : j < 5
  · simp [plainByte, hlow, show j < 6 by omega, show j < 8 by omega]
  · obtain rfl | hne := eq_or_ne j 6
    · simp [plainByte]
    · have hbeyond : 6 ≤ j → j - 6 ≠ 0 := by omega
      simp +contextual [plainByte, hlow, hne, hbeyond]

/-- Bit 5 of the group goes one place up; the low five bits stay, below it. -/
theorem plainByte_toNat (g : BitVec 6) : (plainByte g).toNat = g.toNat / 32 * 64 + g.toNat % 32 := by
  have hhigh : ((g.extractLsb' 5 1).setWidth 8 <<< 6).toNat = (g.toNat / 32) <<< 6 := by
    have := g.isLt
    simp only [BitVec.toNat_shiftLeft, BitVec.toNat_setWidth, BitVec.extractLsb'_toNat, Nat.shiftRight_eq_div_pow,
      Nat.shiftLeft_eq]
    omega
  have hlow : ((g.extractLsb' 0 5).setWidth 8).toNat = g.toNat % 32 := by
    simp only [BitVec.toNat_setWidth, BitVec.extractLsb'_toNat, Nat.shiftRight_zero]
    omega
  rw [plainByte, BitVec.toNat_or, hhigh, hlow, ← Nat.shiftLeft_add_eq_or_of_lt (by omega), Nat.shiftLeft_eq]

theorem plainByte_eq_zero_iff (g : BitVec 6) : plainByte g = 0 ↔ g = 0 := by
  simp only [BitVec.toNat_eq, plainByte_toNat, BitVec.ofNat_eq_ofNat, BitVec.toNat_ofNat, Nat.zero_mod]
  omega

theorem tagGroup_plainByte (g : BitVec 6) : tagGroup (plainByte g) = g := by
  refine BitVec.eq_of_getLsbD_eq fun j hj => ?_
  rw [tagGroup_getLsbD _ hj, plainByte_getLsbD, plainByte_getLsbD]
  by_cases hlow : j < 5
  · simp only [if_pos hlow]
  · obtain rfl : j = 5 := by omega
    simp

/-- A byte whose bits 7 and 5 are clear is made of its group alone. -/
theorem plainByte_tagGroup {c : Byte} (h7 : c.getLsbD 7 = false) (h5 : c.getLsbD 5 = false) :
    plainByte (tagGroup c) = c := by
  refine BitVec.eq_of_getLsbD_eq fun j hj => ?_
  rw [plainByte_getLsbD]
  by_cases hlow : j < 5
  · rw [if_pos hlow, tagGroup_getLsbD c (by omega), if_pos hlow]
  · rw [if_neg hlow, tagGroup_getLsbD c (by decide)]
    obtain rfl | rfl | rfl : j = 5 ∨ j = 6 ∨ j = 7 := by omega
    · exact h5.symm
    · rfl
    · exact h7.symm

theorem groupByte_zero : groupByte 0 = 0x20 := by decide

theorem groupByte_of_ne_zero {g : BitVec 6} (h : g ≠ 0) : groupByte g = plainByte g := by
  rw [groupByte_eq, if_neg (mt (plainByte_eq_zero_iff g).1 h)]

/-- R142 as a number. -/
theorem groupByte_eq_ofNat (g : BitVec 6) :
    groupByte g = BitVec.ofNat 8 (if g.toNat = 0 then 0x20 else g.toNat / 32 * 64 + g.toNat % 32) := by
  by_cases h : g = 0
  · rw [h]
    decide
  · rw [groupByte_of_ne_zero h, if_neg (by simpa [BitVec.toNat_eq] using h), ← plainByte_toNat, BitVec.ofNat_toNat,
      BitVec.setWidth_eq]

/-- R143 (a) for one group: a zero group renders as space, which packs to zero again. -/
theorem tagGroup_groupByte (g : BitVec 6) : tagGroup (groupByte g) = g := by
  by_cases h : g = 0
  · rw [h]
    decide
  · rw [groupByte_of_ne_zero h, tagGroup_plainByte]

/-- R143 (b): the bytes of the codec's own subset, 0x20 or a non-zero byte with bits 7 and 5 clear. -/
def TagChar (c : Byte) : Prop := c = 0x20#8 ∨ (c ≠ 0x00#8 ∧ c.getLsbD 7 = false ∧ c.getLsbD 5 = false)

theorem tagChar_groupByte (g : BitVec 6) : TagChar (groupByte g) := by
  by_cases h : g = 0
  · rw [h]
    exact .inl groupByte_zero
  · rw [groupByte_of_ne_zero h]
    exact .inr ⟨mt (plainByte_eq_zero_iff g).1 h, by rw [plainByte_getLsbD]; rfl, by rw [plainByte_getLsbD]; rfl⟩

/-- R143 (d) for one byte. -/
theorem groupByte_tagGroup {c : Byte} (h : TagChar c) : groupByte (tagGroup c) = c := by
  rcases h with rfl | ⟨hne, h7, h5⟩
  · decide
  · rw [groupByte_eq, plainByte_tagGroup h7 h5]
    exact if_neg hne

/-! ## The four groups of a tag -/

/-- R142: group `i` of a tag, the first most significant. -/
def groupAt (t : U24) (i : Nat) : BitVec 6 := t.extractLsb' (18 - 6 * i) 6

theorem groupAt_getLsbD (t : U24) (i : Nat) {j : Nat} (hj : j < 6) :
    (groupAt t i).getLsbD j = t.getLsbD (18 - 6 * i + j) := by
  rw [groupAt, BitVec.getLsbD_extractLsb', decide_eq_true hj, Bool.true_and]

theorem groupAt_toNat (t : U24) (i : Nat) : (groupAt t i).toNat = t.toNat / 2 ^ (18 - 6 * i) % 64 := by
  rw [groupAt, BitVec.extractLsb'_toNat, Nat.shiftRight_eq_div_pow]

/-- Bit `k` of a tag is bit `k % 6` of group `3 - k / 6`. -/
theorem eq_of_groupAt_eq {t t' : U24} (h : ∀ i < 4, groupAt t i = groupAt t' i) : t = t' := by
  refine BitVec.eq_of_getLsbD_eq fun k hk => ?_
  have hk' : k = 18 - 6 * (3 - k / 6) + k % 6 := by omega
  have hmod : k % 6 < 6 := Nat.mod_lt k (by decide)
  rw [hk', ← groupAt_getLsbD t _ hmod, ← groupAt_getLsbD t' _ hmod, h _ (by omega)]

/-- Bit `k` of four groups side by side, the last one least significant. -/
theorem getLsbD_four_groups (a b c d : BitVec 6) (k : Nat) :
    (a ++ b ++ c ++ d).getLsbD k = if k < 6 then d.getLsbD k else if k < 12 then c.getLsbD (k - 6)
      else if k < 18 then b.getLsbD (k - 12) else a.getLsbD (k - 18) := by
  simp only [BitVec.getLsbD_append, Nat.sub_sub]
  grind

theorem groupAt_packTag (label : Bytes) {i : Nat} (hi : i < 4) :
    groupAt (packTag label) i = tagGroup (label.getD i 0) := by
  refine BitVec.eq_of_getLsbD_eq fun j hj => ?_
  rw [groupAt_getLsbD _ _ hj, packTag]
  refine (getLsbD_four_groups _ _ _ _ _).trans ?_
  interval_cases i <;> grind [labelByte]

theorem unpackTag_length (t : U24) : (unpackTag t).length = 4 := rfl

theorem unpackTag_getElem (t : U24) {i : Nat} (hi : i < (unpackTag t).length) :
    (unpackTag t)[i] = groupByte (groupAt t i) := by
  rw [unpackTag_length] at hi
  interval_cases i <;> rfl

theorem unpackTag_getElem? (t : U24) {i : Nat} (hi : i < 4) : (unpackTag t)[i]? = some (groupByte (groupAt t i)) :=
  List.getElem?_eq_some_iff.2 ⟨hi, unpackTag_getElem t hi⟩

theorem unpackTag_getD (t : U24) {i : Nat} (hi : i < 4) : (unpackTag t).getD i 0 = groupByte (groupAt t i) := by
  rw [List.getD_eq_getElem?_getD, unpackTag_getElem? t hi, Option.getD_some]

/-! ## The laws of the two directions (R143) -/

/-- R143 (a). -/
theorem packTag_unpackTag (t : U24) : packTag (unpackTag t) = t := by
  refine eq_of_groupAt_eq fun i hi => ?_
  rw [groupAt_packTag _ hi, unpackTag_getD t hi, tagGroup_groupByte]

theorem unpackTag_injective : Function.Injective unpackTag :=
  Function.LeftInverse.injective packTag_unpackTag

theorem tagChar_of_mem_unpackTag {t : U24} {c : Byte} (h : c ∈ unpackTag t) : TagChar c := by
  obtain ⟨i, hi, rfl⟩ := List.getElem_of_mem h
  rw [unpackTag_getElem]
  exact tagChar_groupByte _

/-- R143 (c): the tag depends on the groups of the first four bytes alone. -/
theorem packTag_congr {l l' : Bytes} (h : ∀ i < 4, tagGroup (l.getD i 0) = tagGroup (l'.getD i 0)) :
    packTag l = packTag l' := by
  refine eq_of_groupAt_eq fun i hi => ?_
  rw [groupAt_packTag l hi, groupAt_packTag l' hi, h i hi]

/-- R143 (d): a byte of the label comes back, and the NUL beyond its end comes back as space. -/
theorem unpackTag_packTag {l : Bytes} (hlen : l.length ≤ 4) (hchars : ∀ c ∈ l, TagChar c) :
    unpackTag (packTag l) = l ++ List.replicate (4 - l.length) 0x20 := by
  have hlengths : (unpackTag (packTag l)).length = (l ++ List.replicate (4 - l.length) (0x20 : Byte)).length := by
    rw [unpackTag_length, List.length_append, List.length_replicate, Nat.add_sub_cancel' hlen]
  refine List.ext_getElem hlengths fun i hi hi' => ?_
  rw [unpackTag_getElem, groupAt_packTag l hi]
  by_cases hin : i < l.length
  · rw [List.getElem_append_left hin, List.getD_eq_getElem _ _ hin, groupByte_tagGroup (hchars _ (List.getElem_mem hin))]
  · rw [List.getElem_append_right (by omega), List.getElem_replicate, List.getD_eq_default _ _ (by omega)]
    decide

/-- R143 (b): the image of TAG.UNPACK. -/
theorem exists_unpackTag_eq_iff (l : Bytes) :
    (∃ t, unpackTag t = l) ↔ l.length = 4 ∧ ∀ c ∈ l, TagChar c := by
  constructor
  · rintro ⟨t, rfl⟩
    exact ⟨unpackTag_length t, fun c => tagChar_of_mem_unpackTag⟩
  · rintro ⟨hlen, hchars⟩
    refine ⟨packTag l, ?_⟩
    rw [unpackTag_packTag hlen.le hchars, hlen, Nat.sub_self, List.replicate_zero, List.append_nil]

/-! ## The statements -/

/-- Settles O13: bit `j` of group `i` of the tag, by `groupAt_packTag`. -/
theorem tagPackGroups : Obligations.TagPackGroups := by
  intro s label
  refine ⟨packTag label, gives_tagPack_tag.2 rfl, fun i j hi hj => ?_⟩
  rw [← groupAt_getLsbD _ i hj, groupAt_packTag label hi, tagGroup_getLsbD _ hj]

/-- Settles O14: each byte is the byte of its group. -/
theorem tagUnpackGroups : Obligations.TagUnpackGroups := by
  intro s t
  refine ⟨unpackTag t, gives_tagUnpack_bytes.2 rfl, unpackTag_length t, fun i hi g hg => ?_⟩
  rw [unpackTag_getElem? t hi, groupByte_eq_ofNat, groupAt_toNat, hg]

/-- Settles O15: the laws of the two functions, as laws of what the commands give. -/
theorem tagCodecLaws : Obligations.TagCodecLaws := by
  intro s
  simp only [gives_tagPack_tag, gives_tagUnpack_bytes]
  have hagree (l l' : Bytes)
      (hbits : ∀ i j, i < 4 → j < 7 → j ≠ 5 → (l.getD i 0).getLsbD j = (l'.getD i 0).getLsbD j) :
      packTag l = packTag l' :=
    packTag_congr fun i hi => tagGroup_congr fun j => hbits i j hi
  have hnul : packTag [] = packTag [0x00] := by decide
  exact ⟨fun t => ⟨_, rfl, packTag_unpackTag t⟩, fun t t' l ht ht' => unpackTag_injective (ht.trans ht'.symm),
    exists_unpackTag_eq_iff, fun l => ⟨_, rfl⟩, fun l l' hbits => ⟨_, hagree l l' hbits, rfl⟩,
    ⟨[], [0x00], _, by decide, hnul, rfl⟩, fun l hlen hchars => ⟨_, rfl, unpackTag_packTag hlen hchars⟩⟩

end Sys2Proof.Machine

/-! PROOFS. The statements about the TDF Value unit (42_tdf_value.md), first part: what its commands and rows answer, and a
value as its header and its payload. -/

namespace Sys2Proof.Machine

/-! ## What the commands and the rows answer -/

theorem gives_tdfEnc_iff {s : State} {x : Tdf} {r : Response} :
    Gives (.tdfEnc x) s r ↔ r = responseOf ((encodeTdf s.params x).map .bytes) := gives_of_done rfl r

theorem gives_tdfDec_iff {s : State} {inp : Bytes} {pos : Nat} {r : Response} :
    Gives (.tdfDec inp pos) s r ↔ DecGives s inp pos 1 r := (gives_of_done rfl r).trans eq_comm

theorem gives_contentEnc_iff {s : State} {vals : List Tdf} {r : Response} :
    Gives (.contentEnc vals) s r ↔ r = responseOf ((encodeContent s.params vals).map .bytes) := gives_of_done rfl r

theorem gives_contentDec_iff {s : State} {content : Bytes} {r : Response} :
    Gives (.contentDec content) s r ↔
      r = responseOf ((readContent (s.decEnv content) content.length 0).map .tdfs) := gives_of_done rfl r

/-- R170: a header type's row, reading, answers what the payload reader of that type gives. -/
theorem gives_rowOfHeader_iff {s : State} {tag : U24} {inp : Bytes} {pos d : Nat} {ty : TdfType} {r : Response} :
    Gives (rowOfHeader tag inp pos d ty) s r ↔
      r = responseOf ((readPayload (s.decEnv inp) (readTdf (s.decEnv inp)) tag pos d ty).map fun x =>
        .tdfAt x.1 x.2) := by
  cases ty <;> exact gives_of_done rfl r

/-- A write that answers bytes. -/
theorem bytes_eq_responseOf_map {w : Except Error Bytes} {b : Bytes} :
    Response.ok (.bytes b) = responseOf (w.map .bytes) ↔ w = .ok b := by
  rw [responseOf_map_ok]
  simp only [Result.bytes.injEq, exists_eq_right]

/-- A read of a value that answers it. -/
theorem tdfAt_eq_responseOf_map {r : Except Error (Tdf × Nat)} {x : Tdf} {q : Nat} :
    Response.ok (.tdfAt x q) = responseOf (r.map fun y => .tdfAt y.1 y.2) ↔ r = .ok (x, q) := by
  rw [responseOf_map_ok]
  simp only [Result.tdfAt.injEq, Prod.exists, exists_eq_right_right, exists_eq_right]

theorem gives_rowOfHeader_ok {s : State} {tag : U24} {inp : Bytes} {pos d q : Nat} {ty : TdfType} {x : Tdf} :
    Gives (rowOfHeader tag inp pos d ty) s (.ok (.tdfAt x q)) ↔
      readPayload (s.decEnv inp) (readTdf (s.decEnv inp)) tag pos d ty = .ok (x, q) :=
  gives_rowOfHeader_iff.trans tdfAt_eq_responseOf_map

theorem gives_rowOfHeader_err {s : State} {tag : U24} {inp : Bytes} {pos d : Nat} {ty : TdfType} {e : Error} :
    Gives (rowOfHeader tag inp pos d ty) s (.err e) ↔
      readPayload (s.decEnv inp) (readTdf (s.decEnv inp)) tag pos d ty = .error e :=
  gives_rowOfHeader_iff.trans responseOf_map_error

/-! ## A value is its header and its payload (R168, R65) -/

/-- R66: the header type of a value. -/
def Tdf.variant : Tdf → TdfType
  | .int _ _ => .int
  | .string _ _ => .string
  | .blob _ _ => .blob
  | .struct _ _ _ => .struct
  | .list _ _ _ => .list
  | .pairList _ _ _ _ _ => .pairList
  | .union _ _ _ => .union
  | .varIntList _ _ => .varIntList
  | .pair _ _ _ => .pair
  | .triple _ _ _ _ => .triple
  | .float _ _ => .float

/-- R171 to R181: the payload writer of a value at depth `d`. -/
def payloadWriter (p : Params) : Tdf → Nat → Writer
  | .int _ v, _ => emit (varintBytes v)
  | .string _ str, _ => emit (stringBytes str)
  | .blob _ b, _ => emit (blobBytes b)
  | .struct _ start2 cs, d => structBody p d start2 (encTdfs p cs (d + 1))
  | .list _ sub es, d =>
    Writer.then (emit (sub.code :: lengthBytes (Elems.count es))) (writeAll (encElems p es d))
  | .pairList _ subA subB as bs, d =>
    Writer.then (emit (subA.code :: subB.code :: lengthBytes (Elems.count as)))
      (writeAll (pairWriters (encElems p as d) (encElems p bs d)))
  | .union _ disc inner, d => Writer.then (emit [disc]) (encInner p disc inner d)
  | .varIntList _ vs, _ => emit (lengthBytes vs.length ++ vs.flatMap varintBytes)
  | .pair _ a b, _ => emit (varintBytes a ++ varintBytes b)
  | .triple _ a b c, _ => emit (varintBytes a ++ varintBytes b ++ varintBytes c)
  | .float _ bits, _ => emit (beBytes 8 bits.toNat)

/-- R168: what `encTdf` writes is the header word, then the payload. -/
theorem encTdf_eq_headed (p : Params) (x : Tdf) (d : Nat) :
    encTdf p x d = headed p d (Tdf.tagOf x) (Tdf.variant x) (payloadWriter p x d) := by
  cases x <;> rw [encTdf] <;> rfl

/-- R168, R170: a value's row, writing, answers what its payload writer does, once the value meets R163. -/
theorem gives_rowOfValue_iff {s : State} {x : Tdf} {off d : Nat} {r : Response} :
    Gives (rowOfValue off d x) s r ↔
      r = responseOf ((do requireWellFormed (checkTdf x); payloadWriter s.params x d off).map .bytes) := by
  cases x <;> exact gives_of_done rfl r

theorem typeOf_eq_code (x : Tdf) : Tdf.typeOf x = (Tdf.variant x).code := by cases x <;> rfl

/-- R65: above the type byte, a header word has the bits of the tag. -/
theorem headerWord_extractLsb' (tag : U24) (ty : TdfType) (i : Nat) :
    (headerWord tag ty).extractLsb' (i + 8) 8 = tag.extractLsb' i 8 := by
  refine BitVec.eq_of_getLsbD_eq fun j hj => ?_
  have hsub : i + 8 + j - 8 = i + j := by omega
  rw [BitVec.getLsbD_extractLsb', BitVec.getLsbD_extractLsb', headerWord_getLsbD, if_neg (by omega), hsub]

/-- R65: the header word of a value, as its four bytes. -/
theorem beBytes_headerWord (x : Tdf) :
    beBytes 4 (headerWord (Tdf.tagOf x) (Tdf.variant x)).toNat = Tdf.header x := by
  rw [beBytes_four, headerBytes, Tdf.header, typeOf_eq_code, ← headerType_headerWord (Tdf.tagOf x) (Tdf.variant x),
    ← headerWord_extractLsb' _ (Tdf.variant x) 16, ← headerWord_extractLsb' _ (Tdf.variant x) 8,
    ← headerWord_extractLsb' _ (Tdf.variant x) 0]
  rfl

/-- R168: what a value's writer writes, its payload writer writes after the header. -/
theorem encTdf_writes {p : Params} {x : Tdf} {d : Nat} {b : Bytes} (hd : Bound.holds p.maxDepth d)
    (h : Writer.Writes (payloadWriter p x d) b) : Writer.Writes (encTdf p x d) (Tdf.header x ++ b) := by
  rw [encTdf_eq_headed, ← beBytes_headerWord]
  exact headed_writes hd h

end Sys2Proof.Machine

/-! PROOFS. The statements about the TDF Value unit, second part: the encoder and the rows that write (R163, R168, R171 to
R181, R201). -/

namespace Sys2Proof.Machine

/-! ## The encoder's check and the encoder (R163, R168) -/

theorem requireWellFormed_of_wf {x : Tdf} (h : Tdf.WF x) : requireWellFormed (checkTdf x) = .ok () := by
  rw [(checkTdf_eq_none x).2 h, requireWellFormed]

theorem encodeTdf_of_wf (p : Params) {x : Tdf} (h : Tdf.WF x) : encodeTdf p x = encTdf p x 1 0 := by
  rw [encodeTdf, requireWellFormed_of_wf h, bind_ok]

theorem encodeTdf_of_check {p : Params} {x : Tdf} {bad : Bad} (h : checkTdf x = some bad) :
    encodeTdf p x = .error (.precondition (.node bad.1 bad.2)) := by
  rw [encodeTdf, h, requireWellFormed, bind_error]

theorem exists_check_of_not_wf {x : Tdf} (h : ¬ Tdf.WF x) : ∃ bad, checkTdf x = some bad :=
  Option.ne_none_iff_exists'.1 (mt (checkTdf_eq_none x).1 h)

/-- A writer that settles answers bytes only by writing them wherever it stands. -/
theorem Writer.Settled.writes_of_eq_ok {w : Writer} {P : Prop} (h : Writer.Settled w P) {off : Nat} {b : Bytes}
    (hw : w off = .ok b) : Writer.Writes w b := by
  by_cases hP : P
  · obtain ⟨c, hc⟩ := h.1 hP
    cases (hc off).symm.trans hw
    exact hc
  · obtain ⟨a, ha⟩ := h.2 hP off
    cases ha.symm.trans hw

/-- A writer that settles raises nothing but RESOURCE for a depth. -/
theorem Writer.Settled.ne_precondition {w : Writer} {P : Prop} (h : Writer.Settled w P) {off : Nat}
    {info : PreconditionInfo} : w off ≠ .error (.precondition info) := by
  intro hw
  by_cases hP : P
  · obtain ⟨c, hc⟩ := h.1 hP
    cases (hc off).symm.trans hw
  · obtain ⟨a, ha⟩ := h.2 hP off
    cases ha.symm.trans hw

/-- R168: bytes are the answer exactly for a well-formed value whose writer writes them. -/
theorem encodeTdf_eq_ok_iff {p : Params} {x : Tdf} {b : Bytes} :
    encodeTdf p x = .ok b ↔ Tdf.WF x ∧ Writer.Writes (encTdf p x 1) b := by
  by_cases hwf : Tdf.WF x
  · rw [encodeTdf_of_wf p hwf, and_iff_right hwf]
    exact ⟨(encTdf_settled p x hwf 1).writes_of_eq_ok, fun h => h 0⟩
  · obtain ⟨bad, hbad⟩ := exists_check_of_not_wf hwf
    rw [encodeTdf_of_check hbad]
    exact iff_of_false nofun fun h => hwf h.1

/-- R163: PRECONDITION is the answer exactly where the check fails. -/
theorem encodeTdf_eq_precondition_iff {p : Params} {x : Tdf} {path : List Nat} {check : Check} :
    encodeTdf p x = .error (.precondition (.node path check)) ↔ checkTdf x = some (path, check) := by
  cases hcheck : checkTdf x with
  | none =>
    have hwf := (checkTdf_eq_none x).1 hcheck
    rw [encodeTdf_of_wf p hwf]
    exact iff_of_false (encTdf_settled p x hwf 1).ne_precondition nofun
  | some bad =>
    obtain ⟨path', check'⟩ := bad
    rw [encodeTdf_of_check hcheck]
    simp

theorem gives_tdfEnc_bytes {s : State} {x : Tdf} {b : Bytes} :
    Gives (.tdfEnc x) s (.ok (.bytes b)) ↔ Tdf.WF x ∧ Writer.Writes (encTdf s.params x 1) b :=
  gives_tdfEnc_iff.trans (bytes_eq_responseOf_map.trans encodeTdf_eq_ok_iff)

theorem gives_tdfEnc_precondition {s : State} {x : Tdf} {path : List Nat} {check : Check} :
    Gives (.tdfEnc x) s (.err (.precondition (.node path check))) ↔ checkTdf x = some (path, check) :=
  gives_tdfEnc_iff.trans (responseOf_map_error.trans encodeTdf_eq_precondition_iff)

/-- R161, R168: a well-formed value within MAX_DEPTH is encoded. -/
theorem exists_gives_tdfEnc_bytes {s : State} {x : Tdf} (hwf : Tdf.WF x)
    (hdepth : Bound.holds s.params.maxDepth (Tdf.reach x 1)) : ∃ b, Gives (.tdfEnc x) s (.ok (.bytes b)) := by
  obtain ⟨b, hb⟩ := (encTdf_settled s.params x hwf 1).1 hdepth
  exact ⟨b, gives_tdfEnc_bytes.2 ⟨hwf, hb⟩⟩

/-- Settles O23: the writer of a well-formed value settles by its depth, and its extent measures it. -/
theorem tdfEncSucceedsWithinBounds : Obligations.TdfEncSucceedsWithinBounds := by
  intro s x
  refine ⟨fun hwf hdepth => ?_, fun hwf hdepth => ?_, fun hwf => ?_⟩
  · obtain ⟨b, hb⟩ := exists_gives_tdfEnc_bytes hwf hdepth
    exact ⟨b, hb, (encTdf_measured s.params x hwf 1).length_eq (gives_tdfEnc_bytes.1 hb).2⟩
  · obtain ⟨off, hoff, hstops⟩ :=
      (encTdf_measured s.params x hwf 1).stops ((encTdf_settled s.params x hwf 1).2 hdepth)
    refine ⟨off, hoff, gives_tdfEnc_iff.2 (responseOf_map_error.2 ?_)⟩
    rw [encodeTdf_of_wf _ hwf, hstops 0, Nat.zero_add]
  · obtain ⟨⟨path, check⟩, hbad⟩ := exists_check_of_not_wf hwf
    exact ⟨path, check, gives_tdfEnc_precondition.2 hbad⟩

theorem header_length (x : Tdf) : (Tdf.header x).length = 4 := rfl

/-- R168: within MAX_DEPTH a value's writer writes the header, then runs the payload writer four bytes on. -/
theorem encTdf_eq_header_append {p : Params} {x : Tdf} {d off : Nat} (hd : Bound.holds p.maxDepth d) :
    encTdf p x d off = (payloadWriter p x d (off + 4)).map (Tdf.header x ++ ·) := by
  rw [encTdf_eq_headed, headed, guarded, checkDepth_ok hd, bind_ok, Writer.then, beBytes_headerWord, emit, bind_ok,
    header_length]
  cases payloadWriter p x d (off + 4) <;> rfl

/-- Settles O22: both check R163 first, and the row's payload stands four bytes on. -/
theorem tdfEncIsHeaderThenRow : Obligations.TdfEncIsHeaderThenRow := by
  intro s x hd
  refine ⟨_, gives_rowOfValue_iff.2 rfl, gives_tdfEnc_iff.2 ?_⟩
  rw [encodeTdf]
  cases requireWellFormed (checkTdf x) with
  | error e => rfl
  | ok u =>
    rw [bind_ok, bind_ok, encTdf_eq_header_append hd]
    cases payloadWriter s.params x 1 (0 + 4) <;> rfl

/-! ## Which node PRECONDITION names (R163) -/

/-- The first failure of numbered parts: the one before which none stands. -/
theorem firstBad_of_getElem? {bad : Bad} : ∀ {rs : List (Option Bad)} {i : Nat} (k : Nat), rs[i]? = some (some bad) →
    (∀ r ∈ rs.take i, r = none) → firstBad k rs = some (Bad.under (k + i) bad)
  | r :: rs, 0, k, hi, _ => by
    cases hi
    rfl
  | r :: rs, i + 1, k, hi, hbefore => by
    obtain ⟨rfl, htail⟩ := List.forall_mem_cons.1 hbefore
    have hrest : rs[i]? = some (some bad) := hi
    rw [firstBad, firstBad_of_getElem? (k + 1) hrest htail, Nat.add_assoc, Nat.add_comm 1 i]

/-- R163: of parts in order, the first ill-formed one is named by its index and the path inside it. -/
theorem firstBad_map {α : Type} {check : α → Option Bad} {xs : List α} {i : Nat} {x : α} {bad : Bad}
    (hx : xs[i]? = some x) (hbad : check x = some bad) (hbefore : ∀ y ∈ xs.take i, check y = none) :
    firstBad 0 (xs.map check) = some (Bad.under i bad) := by
  have hi : (xs.map check)[i]? = some (some bad) := by rw [List.getElem?_map, hx, Option.map_some, hbad]
  rw [firstBad_of_getElem? 0 hi, Nat.zero_add]
  rw [← List.map_take]
  exact List.forall_mem_map.2 hbefore

/-- The failures of pairs are those of the zipped sequences, each pair's first element before its second. -/
theorem pairBads_map {α : Type} {check : α → Option Bad} : ∀ as bs : List α,
    pairBads (as.map check) (bs.map check) = (as.zip bs).map fun e => (check e.1).or (check e.2)
  | [], _ => rfl
  | _ :: _, [] => rfl
  | a :: as, b :: bs => congrArg ((check a).or (check b) :: ·) (pairBads_map as bs)

theorem checkTdf_struct_of_child {tag : U24} {start2 : Bool} {cs : Tdfs} {i : Nat} {x : Tdf} {bad : Bad}
    (hx : (Tdfs.toList cs)[i]? = some x) (hbad : checkTdf x = some bad)
    (hbefore : ∀ y ∈ (Tdfs.toList cs).take i, Tdf.WF y) :
    checkTdf (.struct tag start2 cs) = some (Bad.under i bad) := by
  rw [checkTdf, checkTdfs_eq_map]
  exact firstBad_map hx hbad fun y hy => (checkTdf_eq_none y).2 (hbefore y hy)

theorem checkTdf_list_of_kind {tag : U24} {k : Kind} {es : Elems} (h : ∃ e ∈ Elems.toList es, Elem.kind e ≠ k) :
    checkTdf (.list tag k es) = some ([], .a) := by
  obtain ⟨e, he, hk⟩ := h
  rw [checkTdf, if_neg fun hall => hk ((allOfKind_iff k es).1 hall e he)]

theorem checkTdf_list_of_elem {tag : U24} {k : Kind} {es : Elems} {i : Nat} {e : Elem} {bad : Bad}
    (hkind : ∀ e ∈ Elems.toList es, Elem.kind e = k) (he : (Elems.toList es)[i]? = some e)
    (hbad : checkElem e = some bad) (hbefore : ∀ e ∈ (Elems.toList es).take i, Elem.WF e) :
    checkTdf (.list tag k es) = some (Bad.under i bad) := by
  rw [checkTdf, if_pos ((allOfKind_iff k es).2 hkind), checkElems_eq_map]
  exact firstBad_map he hbad fun y hy => (checkElem_eq_none y).2 (hbefore y hy)

/-- R163 (b): what the check of a PairList's own clause decides. -/
theorem pairList_clause_iff {ka kb : Kind} {as bs : Elems} :
    (allOfKind ka as && allOfKind kb bs && decide (Elems.count as = Elems.count bs)) = true ↔
      (∀ e ∈ Elems.toList as, Elem.kind e = ka) ∧ (∀ e ∈ Elems.toList bs, Elem.kind e = kb) ∧
        (Elems.toList as).length = (Elems.toList bs).length := by
  rw [Bool.and_eq_true, Bool.and_eq_true, decide_eq_true_iff, allOfKind_iff, allOfKind_iff, count_eq_length,
    count_eq_length, and_assoc]

theorem checkTdf_pairList_of_clause {tag : U24} {ka kb : Kind} {as bs : Elems}
    (h : (∃ e ∈ Elems.toList as, Elem.kind e ≠ ka) ∨ (∃ e ∈ Elems.toList bs, Elem.kind e ≠ kb) ∨
      (Elems.toList as).length ≠ (Elems.toList bs).length) :
    checkTdf (.pairList tag ka kb as bs) = some ([], .b) := by
  rw [checkTdf, if_neg]
  rw [pairList_clause_iff]
  rintro ⟨hA, hB, hlen⟩
  rcases h with ⟨e, he, hk⟩ | ⟨e, he, hk⟩ | hne
  · exact hk (hA e he)
  · exact hk (hB e he)
  · exact hne hlen

theorem checkTdf_pairList_of_pair {tag : U24} {ka kb : Kind} {as bs : Elems} {i : Nat} {a b : Elem} {bad : Bad}
    (hclause : (∀ e ∈ Elems.toList as, Elem.kind e = ka) ∧ (∀ e ∈ Elems.toList bs, Elem.kind e = kb) ∧
      (Elems.toList as).length = (Elems.toList bs).length)
    (ha : (Elems.toList as)[i]? = some a) (hb : (Elems.toList bs)[i]? = some b)
    (hbad : (checkElem a).or (checkElem b) = some bad)
    (hbefore : ∀ e ∈ (Elems.toList as).take i, Elem.WF e) (hbefore' : ∀ e ∈ (Elems.toList bs).take i, Elem.WF e) :
    checkTdf (.pairList tag ka kb as bs) = some (Bad.under i bad) := by
  rw [checkTdf, if_pos (pairList_clause_iff.2 hclause), checkElems_eq_map, checkElems_eq_map, pairBads_map]
  have hi : ((Elems.toList as).zip (Elems.toList bs))[i]? = some (a, b) := List.getElem?_zip_eq_some.2 ⟨ha, hb⟩
  refine firstBad_map hi hbad ?_
  rintro ⟨a', b'⟩ hmem
  rw [List.zip, List.take_zipWith] at hmem
  obtain ⟨ha', hb'⟩ := List.of_mem_zip hmem
  exact Option.or_eq_none_iff.2 ⟨(checkElem_eq_none a').2 (hbefore a' ha'), (checkElem_eq_none b').2 (hbefore' b' hb')⟩

theorem checkTdf_union_of_inner {tag : U24} {disc : Byte} {x : Tdf} {bad : Bad} (hdisc : disc ≠ 0x7F#8)
    (hbad : checkTdf x = some bad) : checkTdf (.union tag disc (.some x)) = some (Bad.under 0 bad) := by
  rw [checkTdf, checkInner, if_neg (show ¬ disc = emptyDisc from hdisc), hbad, Option.map_some]

theorem encodeContent_of_bad {p : Params} {vals : List Tdf} {i : Nat} {x : Tdf} {bad : Bad}
    (hx : vals[i]? = some x) (hbad : checkTdf x = some bad) (hbefore : ∀ y ∈ vals.take i, Tdf.WF y) :
    encodeContent p vals = .error (.precondition (.node (i :: bad.1) bad.2)) := by
  rw [encodeContent, firstBad_map hx hbad fun y hy => (checkTdf_eq_none y).2 (hbefore y hy)]
  rfl

/-- Settles O24: PRECONDITION is the check's answer, which names the node's own clause or its first ill-formed part. -/
theorem preconditionNamesFirstBadNode : Obligations.PreconditionNamesFirstBadNode := by
  intro s tag
  refine ⟨fun k es h => gives_tdfEnc_precondition.2 (checkTdf_list_of_kind h),
    fun ka kb as bs h => gives_tdfEnc_precondition.2 (checkTdf_pairList_of_clause h),
    fun disc hdisc => gives_tdfEnc_precondition.2 ?_, fun x => gives_tdfEnc_precondition.2 rfl, ?_, ?_, ?_, ?_, ?_⟩
  · rw [checkTdf, checkInner]
    exact if_neg hdisc
  · intro disc x path check hdisc hx
    exact gives_tdfEnc_precondition.2 (checkTdf_union_of_inner hdisc (gives_tdfEnc_precondition.1 hx))
  · intro start2 cs i x path check hx hbefore hbad
    exact gives_tdfEnc_precondition.2 (checkTdf_struct_of_child hx (gives_tdfEnc_precondition.1 hbad) hbefore)
  · intro k es i start2 cs path check hkind he hbefore hbad
    exact gives_tdfEnc_precondition.2 (checkTdf_list_of_elem hkind he (gives_tdfEnc_precondition.1 hbad) hbefore)
  · intro ka kb as bs i start2 cs path check hA hB hlen hbefore hbefore' hpair hbad
    have hcheck : checkElem (.struct start2 cs) = some (path, check) := gives_tdfEnc_precondition.1 hbad
    rcases hpair with ha | ⟨⟨e, ha, hwf⟩, hb⟩
    · have hi : i < (Elems.toList bs).length := hlen ▸ (List.getElem?_eq_some_iff.1 ha).1
      have hor (b : Elem) : (checkElem (.struct start2 cs)).or (checkElem b) = some (path, check) := by
        rw [hcheck, Option.some_or]
      exact gives_tdfEnc_precondition.2
        (checkTdf_pairList_of_pair ⟨hA, hB, hlen⟩ ha (List.getElem?_eq_getElem hi) (hor _) hbefore hbefore')
    · have hor : (checkElem e).or (checkElem (.struct start2 cs)) = some (path, check) := by
        rw [(checkElem_eq_none e).2 hwf, Option.none_or, hcheck]
      exact gives_tdfEnc_precondition.2 (checkTdf_pairList_of_pair ⟨hA, hB, hlen⟩ ha hb hor hbefore hbefore')
  · intro vals i x path check hx hbefore hbad
    exact gives_contentEnc_iff.2 (responseOf_map_error.2
      (encodeContent_of_bad hx (gives_tdfEnc_precondition.1 hbad) hbefore))

/-! ## CONTENT.ENC (R201) -/

theorem encodeContent_of_wf (p : Params) {vals : List Tdf} (h : ∀ x ∈ vals, Tdf.WF x) :
    encodeContent p vals = writeAll (vals.map fun x => encTdf p x 1) 0 := by
  have hcheck : firstBad 0 (vals.map checkTdf) = none :=
    (firstBad_eq_none _ 0).2 (List.forall_mem_map.2 fun x hx => (checkTdf_eq_none x).2 (h x hx))
  rw [encodeContent, hcheck, requireWellFormed, bind_ok]

/-- R201: what CONTENT.ENC writes of values each of which its writer writes. -/
theorem gives_contentEnc_bytes {s : State} {vals : List Tdf} {bs : List Bytes}
    (h : List.Forall₂ (fun x b => Tdf.WF x ∧ Writer.Writes (encTdf s.params x 1) b) vals bs) :
    Gives (.contentEnc vals) s (.ok (.bytes bs.flatten)) := by
  obtain ⟨hwf, hwrites⟩ := (List.forall₂_and_left _ _).1 h
  rw [gives_contentEnc_iff, encodeContent_of_wf _ hwf, writeAll_writes (List.forall₂_map_left_iff.2 hwrites) 0]
  rfl

/-- Settles O31: all the values' writers in a row, settled by their depths and measured by their extents. -/
theorem contentEncConcatenates : Obligations.ContentEncConcatenates := by
  intro s vals
  refine ⟨fun bs h => gives_contentEnc_bytes (h.imp fun x b => gives_tdfEnc_bytes.1), fun hwf hdeep => ?_⟩
  have hsettled := writeAll_settled vals fun x hx => encTdf_settled s.params x (hwf x hx) 1
  have hmeasured : Writer.Measured s.params.maxDepth (writeAll (vals.map fun x => encTdf s.params x 1))
      (Extent.seq (vals.map fun x => Tdf.extent x 1)) := by
    refine writeAll_measured (List.forall₂_map_left_iff.2 (List.forall₂_map_right_iff.2 ?_))
    exact List.forall₂_same.2 fun x hx => encTdf_measured s.params x (hwf x hx) 1
  obtain ⟨x, hx, hnot⟩ := hdeep
  obtain ⟨off, hoff, hstops⟩ := hmeasured.stops (hsettled.2 fun hall => hnot (hall x hx))
  refine ⟨off, hoff, gives_contentEnc_iff.2 (responseOf_map_error.2 ?_)⟩
  rw [encodeContent_of_wf _ hwf, hstops 0, Nat.zero_add]

/-! ## The flat rows, writing (R171 to R173, R178 to R181, R183, R164) -/

/-- A value's row, writing, answers what its payload writer writes. -/
theorem gives_rowOfValue_bytes {s : State} {x : Tdf} {off d : Nat} {b : Bytes} (hwf : Tdf.WF x)
    (h : Writer.Writes (payloadWriter s.params x d) b) : Gives (rowOfValue off d x) s (.ok (.bytes b)) := by
  rw [gives_rowOfValue_iff, requireWellFormed_of_wf hwf, bind_ok, h off]
  rfl

/-- R164: an element's row, writing, answers what the element's writer does, once the element meets R163. -/
theorem gives_rowOfElem_iff {s : State} {e : Elem} {off d : Nat} {r : Response} :
    Gives (rowOfElem off d e) s r ↔
      r = responseOf ((do requireWellFormed (checkElem e); encElem s.params e d off).map .bytes) := by
  cases e <;> exact gives_of_done rfl r

theorem gives_rowOfElem_bytes {s : State} {e : Elem} {off d : Nat} {b : Bytes} (hwf : Elem.WF e)
    (h : Writer.Writes (encElem s.params e d) b) : Gives (rowOfElem off d e) s (.ok (.bytes b)) := by
  rw [gives_rowOfElem_iff, (checkElem_eq_none e).2 hwf, requireWellFormed, bind_ok, h off]
  rfl

/-- Settles O16: each payload writer is one `emit` of the byte cursor's bytes. -/
theorem flatRowsWrite : Obligations.FlatRowsWrite := by
  intro s tag off d
  refine ⟨fun v => ⟨_, gives_varintWr_iff.2 rfl, (gives_of_done_ok rfl _).2 rfl, (gives_of_done_ok rfl _).2 rfl⟩,
    fun str => ⟨_, gives_strWr_iff.2 rfl, (gives_of_done_ok rfl _).2 rfl, (gives_of_done_ok rfl _).2 rfl⟩,
    fun b => ⟨_, gives_blobWr_iff.2 rfl, (gives_of_done_ok rfl _).2 rfl⟩,
    fun bits => ⟨_, gives_numWr_iff.2 rfl, (gives_of_done_ok rfl _).2 rfl, (gives_of_done_ok rfl _).2 rfl⟩,
    fun a b c => ⟨_, _, _, gives_varintWr_iff.2 rfl, gives_varintWr_iff.2 rfl, gives_varintWr_iff.2 rfl,
      (gives_of_done_ok rfl _).2 rfl, (gives_of_done_ok rfl _).2 rfl, (gives_of_done_ok rfl _).2 rfl⟩,
    fun vs hlen => ⟨_, vs.map varintBytes, gives_varintWr_iff.2 rfl, ?_, ?_⟩, (gives_of_done_ok rfl _).2 rfl⟩
  · exact List.forall₂_map_right_iff.2 (List.forall₂_same.2 fun v _ => gives_varintWr_iff.2 rfl)
  · rw [← lengthBytes_of_lt hlen, ← List.flatMap_def]
    exact (gives_of_done_ok rfl _).2 rfl

/-! ## Struct rows and containers, writing (R165, R174 to R177, R164) -/

/-- If every member is related to something, the list is related to a list, place by place. -/
theorem exists_forall₂_of_forall_mem {α β : Type} {R : α → β → Prop} : ∀ {xs : List α}, (∀ x ∈ xs, ∃ y, R x y) →
    ∃ ys, List.Forall₂ R xs ys
  | [], _ => ⟨[], .nil⟩
  | x :: xs, h => by
    obtain ⟨⟨y, hy⟩, hxs⟩ := List.forall_mem_cons.1 h
    obtain ⟨ys, hys⟩ := exists_forall₂_of_forall_mem hxs
    exact ⟨y :: ys, .cons hy hys⟩

/-- R161: well-formed children within MAX_DEPTH are written, each wherever it stands. -/
theorem exists_children_writes {p : Params} {cs : Tdfs} {d : Nat} (hwf : Tdfs.WF cs)
    (hdepth : Bound.holds p.maxDepth (Tdfs.reach cs d)) :
    ∃ ws, List.Forall₂ (fun x w => Writer.Writes (encTdf p x d) w) (Tdfs.toList cs) ws := by
  rw [holds_reach_children] at hdepth
  exact exists_forall₂_of_forall_mem fun x hx => (encTdfs_settled p cs hwf x hx d).1 (hdepth x hx)

/-- R161: well-formed elements within MAX_DEPTH are written, each wherever it stands. -/
theorem exists_elems_writes {p : Params} {es : Elems} {d : Nat} (hwf : Elems.WF es)
    (hdepth : Bound.holds p.maxDepth (Elems.reach es d)) :
    ∃ ws, List.Forall₂ (fun e w => Writer.Writes (encElem p e d) w) (Elems.toList es) ws := by
  rw [holds_reach_elems] at hdepth
  exact exists_forall₂_of_forall_mem fun e he => (encElems_settled p es hwf e he d).1 (hdepth e he)

/-- R165: a body is its marker, its children and the terminator. -/
theorem structBody_children_writes {p : Params} {d : Nat} {start2 : Bool} {cs : Tdfs} {ws : List Bytes}
    (hd : Bound.holds p.maxDepth d)
    (h : List.Forall₂ (fun x w => Writer.Writes (encTdf p x (d + 1)) w) (Tdfs.toList cs) ws) :
    Writer.Writes (structBody p d start2 (encTdfs p cs (d + 1)))
      ((if start2 then [0x02#8] else []) ++ ws.flatten ++ [0x00#8]) := by
  rw [encTdfs_eq_map, List.append_assoc]
  exact structBody_writes hd (List.forall₂_map_left_iff.2 h)

/-- R176: interleaved pairs are written pair by pair. -/
theorem pairWriters_writes {α : Type} {f : α → Writer} : ∀ {as bs : List α} {us ws : List Bytes},
    as.length = bs.length → List.Forall₂ (fun e w => Writer.Writes (f e) w) as us →
    List.Forall₂ (fun e w => Writer.Writes (f e) w) bs ws →
    Writer.Writes (writeAll (pairWriters (as.map f) (bs.map f))) (List.zipWith (· ++ ·) us ws).flatten
  | [], [], _, _, _, .nil, .nil => emit_writes []
  | a :: as, b :: bs, u :: us, w :: ws, hlen, .cons ha has, .cons hb hbs => by
    rw [List.zipWith_cons_cons, List.flatten_cons, List.append_assoc]
    exact ha.then (hb.then (pairWriters_writes (Nat.succ.inj hlen) has hbs))

/-- Settles O21: each row's payload writer, by the writes of its parts. -/
theorem containerRowsWrite : Obligations.ContainerRowsWrite := by
  intro s tag off d
  refine ⟨fun start2 cs hwf hdepth => ?_, fun start2 cs hwf hdepth => ?_, fun k es hwf hdepth hlen => ?_,
    fun ka kb as bs hwf hdepth hlen => ?_, fun x disc hdisc hwf hdepth => ?_, (gives_of_done_ok rfl _).2 rfl⟩
  · rw [Tdf.reach, Bound.holds_max] at hdepth
    obtain ⟨hd, hchildren⟩ := hdepth
    obtain ⟨ws, hws⟩ := exists_children_writes hwf hchildren
    exact ⟨ws, hws, gives_rowOfValue_bytes (x := .struct tag start2 cs) hwf (structBody_children_writes hd hws)⟩
  · rw [Elem.reach, Bound.holds_max] at hdepth
    obtain ⟨hd, hchildren⟩ := hdepth
    obtain ⟨ws, hws⟩ := exists_children_writes hwf hchildren
    refine ⟨ws, hws, gives_rowOfElem_bytes (e := .struct start2 cs) hwf ?_⟩
    rw [encElem]
    exact structBody_children_writes hd hws
  · rw [Tdf.reach, Bound.holds_max] at hdepth
    obtain ⟨-, helems⟩ := hdepth
    obtain ⟨hkind, hwfs⟩ := hwf
    obtain ⟨ws, hws⟩ := exists_elems_writes hwfs helems
    refine ⟨_, ws, gives_varintWr_iff.2 rfl, hws, gives_rowOfValue_bytes (x := .list tag k es) ⟨hkind, hwfs⟩ ?_⟩
    rw [payloadWriter, encElems_eq_map, count_eq_length, lengthBytes_of_lt hlen]
    exact (emit_writes _).then (writeAll_writes (List.forall₂_map_left_iff.2 hws))
  · rw [Tdf.reach, Bound.holds_max, Bound.holds_max] at hdepth
    obtain ⟨-, hfirsts, hseconds⟩ := hdepth
    obtain ⟨hka, hkb, hsame, hwfa, hwfb⟩ := hwf
    obtain ⟨us, hus⟩ := exists_elems_writes hwfa hfirsts
    obtain ⟨ws, hws⟩ := exists_elems_writes hwfb hseconds
    refine ⟨_, us, ws, gives_varintWr_iff.2 rfl, hus, hws,
      gives_rowOfValue_bytes (x := .pairList tag ka kb as bs) ⟨hka, hkb, hsame, hwfa, hwfb⟩ ?_⟩
    rw [payloadWriter, encElems_eq_map, encElems_eq_map, count_eq_length, lengthBytes_of_lt hlen]
    exact (emit_writes _).then (pairWriters_writes hsame hus hws)
  · obtain ⟨w, hw⟩ := (encTdf_settled s.params x hwf (d + 1)).1 hdepth
    refine ⟨w, hw, gives_rowOfValue_bytes (x := .union tag disc (.some x)) ⟨hdisc, hwf⟩ ?_⟩
    rw [payloadWriter, encInner, if_neg (show ¬ disc = emptyDisc from hdisc)]
    exact (emit_writes [disc]).then hw

end Sys2Proof.Machine

/-! PROOFS. The statements about the TDF Value unit, third part: the decoder and the rows that read (R169 to R183, R200). -/

namespace Sys2Proof.Machine

/-! ## What the payload readers answer (R174 to R180) -/

section PayloadReads

variable {s : State} {tag : U24} {inp : Bytes} {p q d : Nat} {x : Tdf} {e : Error}

/-- R179. -/
theorem readPairPayload_iff : readPairPayload (s.decEnv inp) tag p = .ok (x, q) ↔
    ∃ a b, x = .pair tag a b ∧ IntsAt s inp [a, b] p q := by
  simp only [readPairPayload, bind_eq_ok, intsAt_cons]
  constructor
  · rintro ⟨⟨a, p1⟩, ha, ⟨b, p2⟩, hb, ⟨⟩⟩
    exact ⟨a, b, rfl, p1, ha, p2, hb, rfl⟩
  · rintro ⟨a, b, rfl, p1, ha, p2, hb, rfl⟩
    exact ⟨_, ha, _, hb, rfl⟩

theorem readPairPayload_error_iff : readPairPayload (s.decEnv inp) tag p = .error e ↔ IntsFail s inp 2 p e := by
  simp only [readPairPayload, bind_eq_error, Prod.exists, intsFail_succ, intsFail_zero, pure_eq_ok, reduceCtorEq,
    and_false, exists_false, or_false, State.decEnv_strict, State.decEnv_inp]

/-- R180. -/
theorem readTriplePayload_iff : readTriplePayload (s.decEnv inp) tag p = .ok (x, q) ↔
    ∃ a b c, x = .triple tag a b c ∧ IntsAt s inp [a, b, c] p q := by
  simp only [readTriplePayload, bind_eq_ok, ← readThree_iff]
  constructor
  · rintro ⟨⟨a, b, c, p1⟩, h, ⟨⟩⟩
    exact ⟨a, b, c, rfl, h⟩
  · rintro ⟨a, b, c, rfl, h⟩
    exact ⟨_, h, rfl⟩

theorem readTriplePayload_error_iff :
    readTriplePayload (s.decEnv inp) tag p = .error e ↔ IntsFail s inp 3 p e := by
  simp only [readTriplePayload, bind_eq_error, readThree_error_iff, pure_eq_ok, reduceCtorEq, and_false,
    exists_false, or_false]

/-- R178. -/
theorem readVarIntListPayload_iff : readVarIntListPayload (s.decEnv inp) tag p = .ok (x, q) ↔
    ∃ vs p', x = .varIntList tag vs ∧ CountAt s inp vs.length p p' ∧ IntsAt s inp vs p' q := by
  simp only [readVarIntListPayload, bind_eq_ok, Prod.exists, readCount_iff, readInts_iff]
  constructor
  · rintro ⟨_, p', hn, vs, _, ⟨rfl, hvs⟩, ⟨⟩⟩
    exact ⟨vs, p', rfl, hn, hvs⟩
  · rintro ⟨vs, p', rfl, hn, hvs⟩
    exact ⟨_, p', hn, vs, q, ⟨rfl, hvs⟩, rfl⟩

theorem readVarIntListPayload_error_iff : readVarIntListPayload (s.decEnv inp) tag p = .error e ↔
    CountFails s inp p e ∨ ∃ n p', CountAt s inp n p p' ∧ IntsFail s inp n p' e := by
  simp only [readVarIntListPayload, bind_eq_error, Prod.exists, readCount_error_iff, readCount_iff,
    readInts_error_iff, pure_eq_ok, reduceCtorEq, and_false, exists_false, or_false]

/-- R174. -/
theorem readStructPayload_iff : readStructPayload (s.decEnv inp) (readTdf (s.decEnv inp)) tag p d = .ok (x, q) ↔
    ∃ start2 cs, x = .struct tag start2 cs ∧ BodyAt s inp d start2 cs p q := by
  simp only [readStructPayload, bind_eq_ok, ← readBody_iff]
  constructor
  · rintro ⟨⟨start2, cs, p1⟩, h, ⟨⟩⟩
    exact ⟨start2, cs, rfl, h⟩
  · rintro ⟨start2, cs, rfl, h⟩
    exact ⟨_, h, rfl⟩

theorem readStructPayload_error_iff :
    readStructPayload (s.decEnv inp) (readTdf (s.decEnv inp)) tag p d = .error e ↔ BodyFails s inp d p e := by
  simp only [readStructPayload, bind_eq_error, readBody_error_iff, pure_eq_ok, reduceCtorEq, and_false,
    exists_false, or_false]

/-- R164: an element of kind Struct is a body one level below its List. -/
theorem readElem_struct_iff {el : Elem} :
    readElem (s.decEnv inp) (readTdf (s.decEnv inp)) .struct p d = .ok (el, q) ↔
      ∃ start2 cs, el = .struct start2 cs ∧ BodyAt s inp (d + 1) start2 cs p q := by
  simp only [readElem, bind_eq_ok, ← readBody_iff]
  constructor
  · rintro ⟨⟨start2, cs, p1⟩, h, ⟨⟩⟩
    exact ⟨start2, cs, rfl, h⟩
  · rintro ⟨start2, cs, rfl, h⟩
    exact ⟨_, h, rfl⟩

theorem readElem_struct_error_iff :
    readElem (s.decEnv inp) (readTdf (s.decEnv inp)) .struct p d = .error e ↔ BodyFails s inp (d + 1) p e := by
  simp only [readElem, bind_eq_error, readBody_error_iff, pure_eq_ok, reduceCtorEq, and_false, exists_false, or_false]

/-- R164: an element of kind Triple. -/
theorem readElem_triple_iff {el : Elem} :
    readElem (s.decEnv inp) (readTdf (s.decEnv inp)) .triple p d = .ok (el, q) ↔
      ∃ a b c, el = .triple a b c ∧ IntsAt s inp [a, b, c] p q := by
  simp only [readElem, bind_eq_ok, ← readThree_iff]
  constructor
  · rintro ⟨⟨a, b, c, p1⟩, h, ⟨⟩⟩
    exact ⟨a, b, c, rfl, h⟩
  · rintro ⟨a, b, c, rfl, h⟩
    exact ⟨_, h, rfl⟩

theorem readElem_triple_error_iff :
    readElem (s.decEnv inp) (readTdf (s.decEnv inp)) .triple p d = .error e ↔ IntsFail s inp 3 p e := by
  simp only [readElem, bind_eq_error, readThree_error_iff, pure_eq_ok, reduceCtorEq, and_false, exists_false, or_false]

/-- R175. -/
theorem readListPayload_iff : readListPayload (s.decEnv inp) (readTdf (s.decEnv inp)) tag p d = .ok (x, q) ↔
    ∃ k es p', x = .list tag k es ∧ inp[p]? = some k.code ∧ CountAt s inp (Elems.toList es).length (p + 1) p' ∧
      ElemsAt s inp k d es p' q := by
  simp only [readListPayload, bind_eq_ok, Prod.exists, readKind_iff, readCount_iff, readElems_iff]
  constructor
  · rintro ⟨k, _, ⟨hk, rfl⟩, _, p', hn, es, _, ⟨rfl, hes⟩, ⟨⟩⟩
    exact ⟨k, es, p', rfl, hk, hn, hes⟩
  · rintro ⟨k, es, p', rfl, hk, hn, hes⟩
    exact ⟨k, _, ⟨hk, rfl⟩, _, p', hn, es, q, ⟨rfl, hes⟩, rfl⟩

theorem readListPayload_error_iff :
    readListPayload (s.decEnv inp) (readTdf (s.decEnv inp)) tag p d = .error e ↔
      SubtypeFails inp p e ∨ ∃ k, inp[p]? = some (Kind.code k) ∧
        (CountFails s inp (p + 1) e ∨ ∃ n p', CountAt s inp n (p + 1) p' ∧ ElemsFail s inp k d n p' e) := by
  simp only [readListPayload, bind_eq_error, Prod.exists, readKind_error_iff, readKind_iff, readCount_error_iff,
    readCount_iff, readElems_error_iff, pure_eq_ok, reduceCtorEq, and_false, exists_false, or_false, and_assoc,
    exists_and_left, exists_eq_left, State.decEnv_inp]

/-- R176. -/
theorem readPairListPayload_iff :
    readPairListPayload (s.decEnv inp) (readTdf (s.decEnv inp)) tag p d = .ok (x, q) ↔
      ∃ ka kb as bs p', x = .pairList tag ka kb as bs ∧ inp[p]? = some ka.code ∧ inp[p + 1]? = some kb.code ∧
        CountAt s inp (Elems.toList as).length (p + 2) p' ∧ PairsAt s inp ka kb d as bs p' q := by
  simp only [readPairListPayload, bind_eq_ok, Prod.exists, readKind_iff, readCount_iff, readPairs_iff]
  constructor
  · rintro ⟨ka, _, ⟨hka, rfl⟩, kb, _, ⟨hkb, rfl⟩, _, p', hn, as, bs, _, ⟨rfl, hpairs⟩, ⟨⟩⟩
    exact ⟨ka, kb, as, bs, p', rfl, hka, hkb, hn, hpairs⟩
  · rintro ⟨ka, kb, as, bs, p', rfl, hka, hkb, hn, hpairs⟩
    exact ⟨ka, _, ⟨hka, rfl⟩, kb, _, ⟨hkb, rfl⟩, _, p', hn, as, bs, q, ⟨rfl, hpairs⟩, rfl⟩

theorem readPairListPayload_error_iff :
    readPairListPayload (s.decEnv inp) (readTdf (s.decEnv inp)) tag p d = .error e ↔
      SubtypeFails inp p e ∨ ∃ ka, inp[p]? = some (Kind.code ka) ∧
        (SubtypeFails inp (p + 1) e ∨ ∃ kb, inp[p + 1]? = some (Kind.code kb) ∧
          (CountFails s inp (p + 2) e ∨ ∃ n p', CountAt s inp n (p + 2) p' ∧ PairsFail s inp ka kb d n p' e)) := by
  simp only [readPairListPayload, bind_eq_error, Prod.exists, readKind_error_iff, readKind_iff, readCount_error_iff,
    readCount_iff, readPairs_error_iff, pure_eq_ok, reduceCtorEq, and_false, exists_false, or_false, and_assoc,
    exists_and_left, exists_eq_left, State.decEnv_inp]

/-- R177, R183. -/
theorem readUnionPayload_iff : readUnionPayload (s.decEnv inp) (readTdf (s.decEnv inp)) tag p d = .ok (x, q) ↔
    (inp[p]? = some 0x7F#8 ∧ x = .union tag 0x7F .none ∧ q = p + 1) ∨
      ∃ c y, c ≠ 0x7F#8 ∧ inp[p]? = some c ∧ x = .union tag c (.some y) ∧
        DecGives s inp (p + 1) (d + 1) (.ok (.tdfAt y q)) := by
  simp only [readUnionPayload, bind_eq_ok, Prod.exists, readU8_iff, decGives_ok]
  constructor
  · rintro ⟨c, _, ⟨hc, rfl⟩, h⟩
    by_cases hempty : c = emptyDisc
    · rw [if_pos hempty] at h
      cases h
      exact .inl ⟨hc.trans (congrArg some hempty), rfl, rfl⟩
    · rw [if_neg hempty] at h
      obtain ⟨⟨y, _⟩, hy, ⟨⟩⟩ := bind_eq_ok.1 h
      exact .inr ⟨c, y, hempty, hc, rfl, hy⟩
  · rintro (⟨hc, rfl, rfl⟩ | ⟨c, y, hne, hc, rfl, hy⟩)
    · exact ⟨emptyDisc, _, ⟨hc, rfl⟩, rfl⟩
    · refine ⟨c, _, ⟨hc, rfl⟩, ?_⟩
      rw [if_neg (show ¬ c = emptyDisc from hne), hy]
      rfl

theorem readUnionPayload_error_iff :
    readUnionPayload (s.decEnv inp) (readTdf (s.decEnv inp)) tag p d = .error e ↔
      (inp[p]? = none ∧ e = .truncated p) ∨
        ∃ c, c ≠ 0x7F#8 ∧ inp[p]? = some c ∧ DecGives s inp (p + 1) (d + 1) (.err e) := by
  simp only [readUnionPayload, bind_eq_error, Prod.exists, readU8_error_iff, readU8_iff, decGives_err]
  refine or_congr Iff.rfl ⟨?_, ?_⟩
  · rintro ⟨c, _, ⟨hc, rfl⟩, h⟩
    by_cases hempty : c = emptyDisc
    · rw [if_pos hempty] at h
      cases h
    · rw [if_neg hempty, bind_eq_error] at h
      rcases h with h | ⟨_, _, ⟨⟩⟩
      exact ⟨c, hempty, hc, h⟩
  · rintro ⟨c, hne, hc, h⟩
    refine ⟨c, _, ⟨hc, rfl⟩, ?_⟩
    rw [if_neg (show ¬ c = emptyDisc from hne), h]
    rfl

end PayloadReads

/-! ## The flat rows (R171 to R173, R178 to R181, R164) -/

/-- R105: outside strict mode a varint read answers a value. -/
theorem readInt_lenient {s : State} (hstrict : s.strictVarint = false) (inp : Bytes) (p : Nat) :
    ∃ v q, readInt s.strictVarint inp p = .ok (v, q) := by
  rw [hstrict]
  exact ⟨_, _, rfl⟩

section VarintRows

variable {s : State} {tag : U24} {inp : Bytes} {pos d q : Nat} {a b c : I64} {vs : List I64}

theorem gives_tdfPair_read : Gives (.tdfPair tag (.read inp pos d)) s (.ok (.tdfAt (.pair tag a b) q)) ↔
    IntsAt s inp [a, b] pos q := by
  refine (gives_rowOfHeader_ok (ty := .pair)).trans (readPairPayload_iff.trans ?_)
  simp

theorem gives_tdfTriple_read : Gives (.tdfTriple tag (.read inp pos d)) s (.ok (.tdfAt (.triple tag a b c) q)) ↔
    IntsAt s inp [a, b, c] pos q := by
  refine (gives_rowOfHeader_ok (ty := .triple)).trans (readTriplePayload_iff.trans ?_)
  simp

theorem gives_elemTriple_read : Gives (.elemTriple (.read inp pos d)) s (.ok (.elemAt (.triple a b c) q)) ↔
    IntsAt s inp [a, b, c] pos q := by
  refine (gives_rowOfKind_ok (k := .triple)).trans (readElem_triple_iff.trans ?_)
  simp

theorem gives_tdfVarIntList_read :
    Gives (.tdfVarIntList tag (.read inp pos d)) s (.ok (.tdfAt (.varIntList tag vs) q)) ↔
      ∃ p, CountAt s inp vs.length pos p ∧ IntsAt s inp vs p q := by
  refine (gives_rowOfHeader_ok (ty := .varIntList)).trans (readVarIntListPayload_iff.trans ?_)
  simp

end VarintRows

/-- Settles O18: the rows of two, three and counted varints are the payload readers of R178 to R180. -/
theorem varintRowsRead : Obligations.VarintRowsRead := by
  intro s tag inp pos d _
  refine ⟨fun a b q => gives_tdfPair_read, fun a b c q => gives_tdfTriple_read,
    fun a b c q => gives_elemTriple_read, fun vs q => gives_tdfVarIntList_read,
    fun e => (gives_rowOfHeader_err (ty := .pair)).trans readPairPayload_error_iff,
    fun e => (gives_rowOfHeader_err (ty := .triple)).trans readTriplePayload_error_iff,
    fun e => (gives_rowOfKind_err (k := .triple)).trans readElem_triple_error_iff,
    fun e => (gives_rowOfHeader_err (ty := .varIntList)).trans readVarIntListPayload_error_iff, fun hstrict => ?_⟩
  obtain ⟨a, p1, ha⟩ := readInt_lenient hstrict inp pos
  obtain ⟨b, p2, hb⟩ := readInt_lenient hstrict inp p1
  obtain ⟨c, p3, hc⟩ := readInt_lenient hstrict inp p2
  have htwo : IntsAt s inp [a, b] pos p2 := intsAt_cons.2 ⟨p1, ha, intsAt_cons.2 ⟨p2, hb, rfl⟩⟩
  have hthree : IntsAt s inp [a, b, c] pos p3 :=
    intsAt_cons.2 ⟨p1, ha, intsAt_cons.2 ⟨p2, hb, intsAt_cons.2 ⟨p3, hc, rfl⟩⟩⟩
  exact ⟨⟨a, b, p2, gives_tdfPair_read.2 htwo⟩, ⟨a, b, c, p3, gives_tdfTriple_read.2 hthree⟩,
    ⟨a, b, c, p3, gives_elemTriple_read.2 hthree⟩⟩

/-- Settles O17: each row repackages the byte cursor's answer. -/
theorem flatRowsRead : Obligations.FlatRowsRead := by
  intro s tag inp pos d _
  refine ⟨⟨_, gives_varintRd_iff.2 rfl, ?_, ?_⟩, ⟨_, gives_strRd_iff.2 rfl, ?_, ?_⟩, ⟨_, gives_blobRd_iff.2 rfl, ?_⟩,
    ⟨_, (gives_of_done rfl _).2 rfl, ?_, ?_⟩, ?_⟩
  · refine (gives_rowOfHeader_iff (ty := .int)).2 ?_
    rw [readPayload, readIntPayload, readInt, State.decEnv_strict, State.decEnv_inp]
    cases readVarint s.strictVarint inp pos <;> rfl
  · refine (gives_rowOfKind (k := .int)).2 ?_
    rw [readElem, readInt, State.decEnv_strict, State.decEnv_inp]
    cases readVarint s.strictVarint inp pos <;> rfl
  · refine (gives_rowOfHeader_iff (ty := .string)).2 ?_
    rw [readPayload, readStringPayload, State.decEnv_strict, State.decEnv_inp]
    cases readString s.strictVarint inp pos <;> rfl
  · refine (gives_rowOfKind (k := .string)).2 ?_
    rw [readElem, State.decEnv_strict, State.decEnv_inp]
    cases readString s.strictVarint inp pos <;> rfl
  · refine (gives_rowOfHeader_iff (ty := .blob)).2 ?_
    rw [readPayload, readBlobPayload, State.decEnv_strict, State.decEnv_inp]
    cases readBlob s.strictVarint inp pos <;> rfl
  · refine (gives_rowOfHeader_iff (ty := .float)).2 ?_
    rw [readPayload, readFloatPayload, State.decEnv_inp]
    cases readF64 inp pos <;> rfl
  · refine (gives_rowOfKind (k := .float)).2 ?_
    rw [readElem, State.decEnv_inp]
    cases readF64 inp pos <;> rfl
  · exact gives_of_done_ok rfl _ |>.2 rfl

/-! ## Struct rows and containers (R174 to R177, R164) -/

/-- Settles O19: both rows are a Struct body, the EStruct's one level deeper. -/
theorem structRowsRead : Obligations.StructRowsRead := fun _ _ _ _ _ =>
  ⟨fun _ _ => (gives_rowOfHeader_ok (ty := .struct)).trans readStructPayload_iff,
    fun _ _ => (gives_rowOfKind_ok (k := .struct)).trans readElem_struct_iff,
    fun _ => (gives_rowOfHeader_err (ty := .struct)).trans readStructPayload_error_iff,
    fun _ => (gives_rowOfKind_err (k := .struct)).trans readElem_struct_error_iff⟩

/-- Settles O20: each row is the payload reader of its type. -/
theorem containerRowsRead : Obligations.ContainerRowsRead := fun _ _ _ _ _ =>
  ⟨fun _ _ => (gives_rowOfHeader_ok (ty := .list)).trans readListPayload_iff,
    fun _ _ => (gives_rowOfHeader_ok (ty := .pairList)).trans readPairListPayload_iff,
    fun _ _ => (gives_rowOfHeader_ok (ty := .union)).trans readUnionPayload_iff,
    fun _ => (gives_rowOfHeader_err (ty := .list)).trans readListPayload_error_iff,
    fun _ => (gives_rowOfHeader_err (ty := .pairList)).trans readPairListPayload_error_iff,
    fun _ => (gives_rowOfHeader_err (ty := .union)).trans readUnionPayload_error_iff⟩

/-- R106, R162: a varint at the count's place that is no count within MAX_ELEMS. -/
theorem countFails_of_readInt {s : State} {inp : Bytes} {q p : Nat} {v : I64}
    (h : readInt s.strictVarint inp q = .ok (v, p)) :
    (v.toInt < 0 → CountFails s inp q (.malformedLength q v.toInt)) ∧
    (0 ≤ v.toInt → ¬ Bound.holds s.params.maxElems v.toInt.toNat → CountFails s inp q (.resource (.count q))) := by
  have hat : IntsAt s inp [v] q p := intsAt_cons.2 ⟨p, h, rfl⟩
  refine ⟨fun hneg => .inr ⟨v, p, hat, ?_⟩, fun hnonneg hmax => .inr ⟨v, p, hat, ?_⟩⟩
  · rw [if_pos hneg]
  · rw [if_neg (not_lt.2 hnonneg)]
    exact ⟨hmax, rfl⟩

/-- Settles O27: the count fails, and each row answers the error of its count. -/
theorem countLimits : Obligations.CountLimits := by
  intro s tag inp q d v p hv
  obtain ⟨hnegative, hlarge⟩ := countFails_of_readInt (gives_elemInt.1 hv)
  have hvarInts {e : Error} (h : CountFails s inp q e) : Gives (.tdfVarIntList tag (.read inp q d)) s (.err e) :=
    (gives_rowOfHeader_err (ty := .varIntList)).2 (readVarIntListPayload_error_iff.2 (.inl h))
  refine ⟨fun h => hvarInts (hnegative h), fun h hmax => hvarInts (hlarge h hmax), ?_, ?_⟩
  · rintro k pos rfl hk
    have hlist {e : Error} (h : CountFails s inp (pos + 1) e) : Gives (.tdfList tag (.read inp pos d)) s (.err e) :=
      (gives_rowOfHeader_err (ty := .list)).2 (readListPayload_error_iff.2 (.inr ⟨k, hk, .inl h⟩))
    exact ⟨fun h => hlist (hnegative h), fun h hmax => hlist (hlarge h hmax)⟩
  · rintro k k' pos rfl hk hk'
    have hpairs {e : Error} (h : CountFails s inp (pos + 2) e) :
        Gives (.tdfPairList tag (.read inp pos d)) s (.err e) :=
      (gives_rowOfHeader_err (ty := .pairList)).2
        (readPairListPayload_error_iff.2 (.inr ⟨k, hk, .inr ⟨k', hk', .inl h⟩⟩))
    exact ⟨fun h => hpairs (hnegative h), fun h hmax => hpairs (hlarge h hmax)⟩

/-! ## Decoding a value: depth, header word, type byte, payload (R169, R170, R182) -/

theorem getLsbD_tag_append (tag : U24) (ty : Byte) (i : Nat) :
    BitVec.getLsbD (tag ++ ty : U32) i = if i < 8 then ty.getLsbD i else tag.getLsbD (i - 8) :=
  (BitVec.getLsbD_append (x := tag) (y := ty)).trans (by simp)

/-- R65: the type byte of four header bytes. -/
theorem headerType_append (tag : U24) (ty : Byte) : headerType (tag ++ ty) = ty := by
  refine BitVec.eq_of_getLsbD_eq fun i hi => ?_
  rw [headerType, BitVec.getLsbD_extractLsb', Nat.zero_add, getLsbD_tag_append, if_pos hi, decide_eq_true hi,
    Bool.true_and]

/-- R65: the tag of four header bytes. -/
theorem headerTag_append (tag : U24) (ty : Byte) : headerTag (tag ++ ty) = tag := by
  refine BitVec.eq_of_getLsbD_eq fun i hi => ?_
  rw [headerTag, BitVec.getLsbD_extractLsb', getLsbD_tag_append, if_neg (by omega), Nat.add_sub_cancel_left,
    decide_eq_true hi, Bool.true_and]

theorem toNat_append_byte {w : Nat} (x : BitVec w) (b : Byte) : (x ++ b).toNat = x.toNat * 256 + b.toNat := by
  rw [BitVec.toNat_append, ← Nat.shiftLeft_add_eq_or_of_lt b.isLt, Nat.shiftLeft_eq]

/-- R110: the header word of four bytes, most significant first. -/
theorem readU32_of_bytes {inp : Bytes} {pos : Nat} {a b c ty : Byte} (ha : inp[pos]? = some a)
    (hb : inp[pos + 1]? = some b) (hc : inp[pos + 2]? = some c) (hty : inp[pos + 3]? = some ty) :
    readU32 inp pos = .ok ((a ++ b ++ c) ++ ty, pos + 4) := by
  obtain ⟨hlen, -⟩ := List.getElem?_eq_some_iff.1 hty
  have hspan : span inp pos 4 = [a, b, c, ty] := by
    refine List.ext_getElem? fun i => ?_
    rw [span, List.getElem?_take, List.getElem?_drop]
    match i with
    | 0 => exact ha
    | 1 => exact hb
    | 2 => exact hc
    | 3 => exact hty
    | i + 4 => simp
  have hvalue : beValue [a, b, c, ty] = ((a ++ b ++ c) ++ ty).toNat := by
    simp only [beValue, List.foldl_cons, List.foldl_nil, toNat_append_byte]
    omega
  have hword : BitVec.ofNat 32 (beValue (span inp pos 4)) = (a ++ b ++ c) ++ ty := by
    rw [hspan, hvalue]
    exact BitVec.ofNat_toNat 32 ((a ++ b ++ c) ++ ty)
  rw [readU32, readFixed_eq_ok.2 ⟨by omega, rfl, rfl⟩, bind_ok]
  dsimp only
  rw [hword]
  rfl

theorem tdfType_ofByte_eq_none {b : Byte} (h : 0x0A < b.toNat) : TdfType.ofByte b = none := by
  revert b; decide

section Dispatch

variable {env : DecEnv} {pos d q : Nat} {w : U32} {ty : TdfType}

theorem readTdf_too_deep (hd : ¬ Bound.holds env.params.maxDepth d) :
    readTdf env pos d = .error (.resource (.depth pos)) := by
  rw [readTdf_eq, readValue, checkDepth_error hd, bind_error]

theorem readTdf_short (hd : Bound.holds env.params.maxDepth d) (hlen : env.inp.length - pos < 4) :
    readTdf env pos d = .error (.truncated pos) := by
  rw [readTdf_eq, readValue_short hlen, checkDepth_ok hd, bind_ok]

theorem readTdf_unknown_type (hd : Bound.holds env.params.maxDepth d) (hw : readU32 env.inp pos = .ok (w, q))
    (hty : TdfType.ofByte (headerType w) = none) :
    readTdf env pos d = .error (.unknownTdfType (pos + 3) (headerType w)) := by
  rw [readTdf_eq, readValue, checkDepth_ok hd, bind_ok, hw, bind_ok]
  dsimp only
  rw [hty]

/-- R170: under a known type, the payload reader of that type. -/
theorem readTdf_known_type (hd : Bound.holds env.params.maxDepth d) (hw : readU32 env.inp pos = .ok (w, q))
    (hty : TdfType.ofByte (headerType w) = some ty) :
    readTdf env pos d = readPayload env (readTdf env) (headerTag w) q d ty := by
  rw [readTdf_eq, readValue, checkDepth_ok hd, bind_ok, hw, bind_ok]
  dsimp only
  rw [hty]

end Dispatch

/-- Settles O25: the checks of `readValue` in their order, then the row of the type. -/
theorem tdfDecDispatchesOnType : Obligations.TdfDecDispatchesOnType := by
  intro s inp pos _
  refine ⟨fun r => gives_tdfDec_iff, fun d => ⟨fun hd => decGives_err.2 (readTdf_too_deep hd), fun hd =>
    ⟨fun hlen => decGives_err.2 (readTdf_short hd hlen), fun a b c ty ha hb hc hty => ?_⟩⟩⟩
  have hword := readU32_of_bytes ha hb hc hty
  refine ⟨fun hunknown => decGives_err.2 ?_, fun t ht => ⟨_, gives_rowOfHeader_iff.2 rfl, ?_⟩⟩
  · rw [readTdf_unknown_type (env := s.decEnv inp) hd hword
      (by rw [headerType_append]; exact tdfType_ofByte_eq_none hunknown), headerType_append]
  · subst ht
    rw [DecGives, readTdf_known_type (env := s.decEnv inp) (ty := t) hd hword
      (by rw [headerType_append]; exact tdfType_ofByte_code t), headerTag_append]

/-! ## Contents (R200) -/

theorem gives_tdfDec_ok {s : State} {inp : Bytes} {pos q : Nat} {x : Tdf} :
    Gives (.tdfDec inp pos) s (.ok (.tdfAt x q)) ↔ readTdf (s.decEnv inp) pos 1 = .ok (x, q) :=
  gives_tdfDec_iff.trans decGives_ok

theorem gives_tdfDec_err {s : State} {inp : Bytes} {pos : Nat} {e : Error} :
    Gives (.tdfDec inp pos) s (.err e) ↔ readTdf (s.decEnv inp) pos 1 = .error e :=
  gives_tdfDec_iff.trans decGives_err

theorem valuesAt_cons {s : State} {content : Bytes} {x : Tdf} {xs : List Tdf} {p q : Nat} :
    ValuesAt s content (x :: xs) p q ↔
      ∃ p', readTdf (s.decEnv content) p 1 = .ok (x, p') ∧ ValuesAt s content xs p' q := by
  simp only [ValuesAt, gives_tdfDec_ok]

/-- R200: how the content loop ends with an error: after some values, before the end, the next value raises it. -/
def ValuesFail (s : State) (content : Bytes) (p : Nat) (e : Error) : Prop :=
  ∃ xs p', ValuesAt s content xs p p' ∧ p' < content.length ∧ readTdf (s.decEnv content) p' 1 = .error e

/-- The first value fails, or it is read and one of the others fails. -/
theorem valuesFail_iff {s : State} {content : Bytes} {p : Nat} {e : Error} (hp : p < content.length) :
    ValuesFail s content p e ↔ readTdf (s.decEnv content) p 1 = .error e ∨
      ∃ x p', readTdf (s.decEnv content) p 1 = .ok (x, p') ∧ ValuesFail s content p' e := by
  constructor
  · rintro ⟨xs, p', hxs, hp', he⟩
    cases xs with
    | nil => cases hxs; exact .inl he
    | cons x xs =>
      obtain ⟨p1, hx, hxs⟩ := valuesAt_cons.1 hxs
      exact .inr ⟨x, p1, hx, xs, p', hxs, hp', he⟩
  · rintro (he | ⟨x, p1, hx, xs, p', hxs, hp', he⟩)
    · exact ⟨[], p, rfl, hp, he⟩
    · exact ⟨x :: xs, p', valuesAt_cons.2 ⟨p1, hx, hxs⟩, hp', he⟩

/-- R200: at the end of the content nothing is read. -/
theorem readContent_end (s : State) (content : Bytes) (fuel : Nat) :
    readContent (s.decEnv content) fuel content.length = .ok [] := by
  cases fuel with
  | zero => rfl
  | succ fuel => rw [readContent, if_neg (by simp)]

theorem not_readTdf_ok_at_end {env : DecEnv} {d q : Nat} {x : Tdf} : readTdf env env.inp.length d ≠ .ok (x, q) := by
  intro h
  obtain ⟨hge, hle⟩ := readTdf_advances env _ d x q h
  have := hle le_rfl
  omega

theorem valuesAt_end_iff {s : State} {content : Bytes} {xs : List Tdf} :
    ValuesAt s content xs content.length content.length ↔ xs = [] := by
  cases xs with
  | nil => exact iff_of_true rfl rfl
  | cons x xs =>
    refine iff_of_false (fun h => ?_) (List.cons_ne_nil x xs)
    obtain ⟨_, hx, -⟩ := valuesAt_cons.1 h
    exact not_readTdf_ok_at_end (env := s.decEnv content) hx

theorem readContent_end_iff {s : State} {content : Bytes} {fuel : Nat} {xs : List Tdf} :
    readContent (s.decEnv content) fuel content.length = .ok xs ↔
      ValuesAt s content xs content.length content.length := by
  rw [readContent_end, valuesAt_end_iff, Except.ok.injEq, eq_comm]

/-- All that the content loop can read: values up to the end. -/
theorem readContent_iff (s : State) (content : Bytes) : ∀ (fuel p : Nat) (xs : List Tdf), p ≤ content.length →
    content.length - p ≤ fuel →
    (readContent (s.decEnv content) fuel p = .ok xs ↔ ValuesAt s content xs p content.length) := by
  intro fuel
  induction fuel with
  | zero =>
    intro p xs hp hfuel
    obtain rfl : p = content.length := by omega
    exact readContent_end_iff
  | succ fuel ih =>
    intro p xs hp hfuel
    rcases hp.eq_or_lt with rfl | hlt
    · exact readContent_end_iff
    · rw [readContent, State.decEnv_inp, if_pos hlt, bind_eq_ok]
      cases xs with
      | nil =>
        refine iff_of_false ?_ (Nat.ne_of_gt hlt)
        rintro ⟨_, -, h⟩
        obtain ⟨_, -, ⟨⟩⟩ := bind_eq_ok.1 h
      | cons x xs =>
        rw [valuesAt_cons]
        constructor
        · rintro ⟨⟨x', p'⟩, hx, h⟩
          obtain ⟨xs', hxs, ⟨⟩⟩ := bind_eq_ok.1 h
          obtain ⟨hge, hle⟩ := readTdf_advances _ p 1 _ _ hx
          exact ⟨p', hx, (ih p' xs (hle hp) (by omega)).1 hxs⟩
        · rintro ⟨p', hx, hxs⟩
          obtain ⟨hge, hle⟩ := readTdf_advances _ p 1 _ _ hx
          exact ⟨_, hx, bind_eq_ok.2 ⟨xs, (ih p' xs (hle hp) (by omega)).2 hxs, rfl⟩⟩

theorem not_valuesFail_end {s : State} {content : Bytes} {e : Error} : ¬ ValuesFail s content content.length e := by
  rintro ⟨xs, p', hxs, hp', -⟩
  cases xs with
  | nil => cases hxs; exact lt_irrefl _ hp'
  | cons x xs =>
    obtain ⟨_, hx, -⟩ := valuesAt_cons.1 hxs
    exact not_readTdf_ok_at_end (env := s.decEnv content) hx

theorem readContent_end_error_iff {s : State} {content : Bytes} {fuel : Nat} {e : Error} :
    readContent (s.decEnv content) fuel content.length = .error e ↔ ValuesFail s content content.length e := by
  rw [readContent_end]
  exact iff_of_false nofun not_valuesFail_end

/-- All that the content loop can fail with. -/
theorem readContent_error_iff (s : State) (content : Bytes) (e : Error) : ∀ (fuel p : Nat), p ≤ content.length →
    content.length - p ≤ fuel → (readContent (s.decEnv content) fuel p = .error e ↔ ValuesFail s content p e) := by
  intro fuel
  induction fuel with
  | zero =>
    intro p hp hfuel
    obtain rfl : p = content.length := by omega
    exact readContent_end_error_iff
  | succ fuel ih =>
    intro p hp hfuel
    rcases hp.eq_or_lt with rfl | hlt
    · exact readContent_end_error_iff
    · rw [readContent, State.decEnv_inp, if_pos hlt, bind_eq_error, valuesFail_iff hlt, Prod.exists]
      refine or_congr Iff.rfl (exists₂_congr fun x p' => and_congr_right fun hx => ?_)
      obtain ⟨hge, hle⟩ := readTdf_advances _ p 1 _ _ hx
      rw [← ih p' (hle hp) (by omega), bind_eq_error]
      exact or_iff_left fun ⟨_, _, h⟩ => nomatch h

theorem gives_contentDec_ok {s : State} {content : Bytes} {xs : List Tdf} :
    Gives (.contentDec content) s (.ok (.tdfs xs)) ↔ ValuesAt s content xs 0 content.length := by
  rw [gives_contentDec_iff, responseOf_map_ok, ← readContent_iff s content content.length 0 xs (by omega) (by omega)]
  simp only [Result.tdfs.injEq, exists_eq_right]

theorem gives_contentDec_err {s : State} {content : Bytes} {e : Error} :
    Gives (.contentDec content) s (.err e) ↔ ValuesFail s content 0 e := by
  rw [gives_contentDec_iff, responseOf_map_error, readContent_error_iff s content e content.length 0 (by omega) (by omega)]

/-- Settles O30: CONTENT.DEC is the content loop from offset 0, which answers values or an error. -/
theorem contentDecReadsToTheEnd : Obligations.ContentDecReadsToTheEnd := by
  intro s content
  refine ⟨fun xs => gives_contentDec_ok,
    fun xs p e hxs hp he => gives_contentDec_err.2 ⟨xs, p, hxs, hp, gives_tdfDec_err.1 he⟩, _,
    gives_contentDec_iff.2 rfl, ?_⟩
  cases hread : readContent (s.decEnv content) content.length 0 with
  | ok xs => exact .inl ⟨xs, rfl⟩
  | error e =>
    obtain ⟨xs, p, hxs, hp, he⟩ := (readContent_error_iff s content e _ 0 (by omega) (by omega)).1 hread
    exact .inr ⟨xs, p, e, rfl, hxs, hp, gives_tdfDec_err.2 he⟩

end Sys2Proof.Machine

/-! PROOFS. The statements about the TDF Value unit, fourth part: decoded values are well formed (R163), and what is encoded
is decoded again (R190, R202). -/

namespace Sys2Proof.Machine

/-! ## What is decoded is well formed and within MAX_DEPTH (R163, R161) -/

/-- A reader that answers only with values well formed and within the limit at their depth. -/
def TdfReader.Sound (limit : Bound) (rec : TdfReader) : Prop :=
  ∀ p d x q, rec p d = .ok (x, q) → Tdf.WF x ∧ Bound.holds limit (Tdf.reach x d)

section Soundness

variable {env : DecEnv} {rec : TdfReader} {p d q : Nat}

theorem readChildren_sound {limit : Bound} (hrec : TdfReader.Sound limit rec) (inp : Bytes) (d : Nat) :
    ∀ fuel p cs q, readChildren inp rec d fuel p = .ok (cs, q) → Tdfs.WF cs ∧ Bound.holds limit (Tdfs.reach cs d) := by
  intro fuel
  induction fuel with
  | zero => intro p cs q h; cases h
  | succ fuel ih =>
    intro p cs q h
    rw [readChildren] at h
    split at h
    · cases h
    · split at h
      · cases h
        exact ⟨trivial, Bound.holds_zero limit⟩
      · obtain ⟨⟨x, p'⟩, hx, h⟩ := bind_eq_ok.1 h
        obtain ⟨⟨xs, q'⟩, hxs, ⟨⟩⟩ := bind_eq_ok.1 h
        obtain ⟨hwf, hreach⟩ := hrec _ _ _ _ hx
        obtain ⟨hwfs, hreaches⟩ := ih _ _ _ hxs
        exact ⟨⟨hwf, hwfs⟩, (Bound.holds_max limit _ _).2 ⟨hreach, hreaches⟩⟩

theorem readBody_sound (hrec : TdfReader.Sound env.params.maxDepth rec) {start2 : Bool} {cs : Tdfs}
    (h : readBody env rec p d = .ok (start2, cs, q)) :
    Tdfs.WF cs ∧ Bound.holds env.params.maxDepth (max d (Tdfs.reach cs (d + 1))) := by
  obtain ⟨_, hd, h⟩ := bind_eq_ok.1 h
  obtain ⟨⟨cs', q'⟩, hcs, ⟨⟩⟩ := bind_eq_ok.1 h
  obtain ⟨hwf, hreach⟩ := readChildren_sound hrec _ _ _ _ _ _ hcs
  exact ⟨hwf, (Bound.holds_max _ _ _).2 ⟨checkDepth_eq_ok_iff.1 hd, hreach⟩⟩

/-- R164: what an element read as kind `k` in a List at depth `d` must be. -/
structure Elem.SoundAt (limit : Bound) (k : Kind) (d : Nat) (e : Elem) : Prop where
  kind : Elem.kind e = k
  wf : Elem.WF e
  reach : Bound.holds limit (Elem.reach e d)

theorem readElem_sound (hrec : TdfReader.Sound env.params.maxDepth rec) {k : Kind} {e : Elem}
    (h : readElem env rec k p d = .ok (e, q)) : Elem.SoundAt env.params.maxDepth k d e := by
  cases k with
  | struct =>
    obtain ⟨⟨start2, cs, p'⟩, hbody, ⟨⟩⟩ := bind_eq_ok.1 h
    obtain ⟨hwf, hreach⟩ := readBody_sound hrec hbody
    exact ⟨rfl, hwf, hreach⟩
  | int | string | triple | float =>
    obtain ⟨_, _, ⟨⟩⟩ := bind_eq_ok.1 h
    exact ⟨rfl, trivial, Bound.holds_zero _⟩

theorem readElems_forall {one : Nat → Except Error (Elem × Nat)} {P : Elem → Prop}
    (hone : ∀ p e q, one p = .ok (e, q) → P e) : ∀ n p es q, readElems one n p = .ok (es, q) →
    ∀ e ∈ Elems.toList es, P e
  | 0, p, es, q, h => by
    cases h
    exact List.forall_mem_nil _
  | n + 1, p, es, q, h => by
    obtain ⟨⟨e, p'⟩, he, h⟩ := bind_eq_ok.1 h
    obtain ⟨⟨es', q'⟩, hes, ⟨⟩⟩ := bind_eq_ok.1 h
    exact List.forall_mem_cons.2 ⟨hone _ _ _ he, readElems_forall hone n _ _ _ hes⟩

theorem readPairs_forall {oneA oneB : Nat → Except Error (Elem × Nat)} {P Q : Elem → Prop}
    (hA : ∀ p e q, oneA p = .ok (e, q) → P e) (hB : ∀ p e q, oneB p = .ok (e, q) → Q e) :
    ∀ n p as bs q, readPairs oneA oneB n p = .ok (as, bs, q) →
      (∀ e ∈ Elems.toList as, P e) ∧ (∀ e ∈ Elems.toList bs, Q e) ∧
        (Elems.toList as).length = (Elems.toList bs).length
  | 0, p, as, bs, q, h => by
    cases h
    exact ⟨List.forall_mem_nil _, List.forall_mem_nil _, rfl⟩
  | n + 1, p, as, bs, q, h => by
    obtain ⟨⟨a, p1⟩, ha, h⟩ := bind_eq_ok.1 h
    obtain ⟨⟨b, p2⟩, hb, h⟩ := bind_eq_ok.1 h
    obtain ⟨⟨as', bs', q'⟩, hrest, ⟨⟩⟩ := bind_eq_ok.1 h
    obtain ⟨has, hbs, hlen⟩ := readPairs_forall hA hB n _ _ _ _ hrest
    exact ⟨List.forall_mem_cons.2 ⟨hA _ _ _ ha, has⟩, List.forall_mem_cons.2 ⟨hB _ _ _ hb, hbs⟩, congrArg Nat.succ hlen⟩

/-- Elements of kind `k`, each as it must be, make a well-formed sequence within the limit. -/
theorem elems_sound {limit : Bound} {k : Kind} {es : Elems}
    (h : ∀ e ∈ Elems.toList es, Elem.SoundAt limit k d e) :
    (∀ e ∈ Elems.toList es, Elem.kind e = k) ∧ Elems.WF es ∧ Bound.holds limit (Elems.reach es d) :=
  ⟨fun e he => (h e he).kind, (elems_wf es).2 fun e he => (h e he).wf,
    (holds_reach_elems limit d es).2 fun e he => (h e he).reach⟩

theorem readPayload_sound (hrec : TdfReader.Sound env.params.maxDepth rec) {tag : U24} {ty : TdfType} {x : Tdf}
    (hd : Bound.holds env.params.maxDepth d) (h : readPayload env rec tag p d ty = .ok (x, q)) :
    Tdf.WF x ∧ Bound.holds env.params.maxDepth (Tdf.reach x d) := by
  cases ty with
  | struct =>
    obtain ⟨⟨start2, cs, p'⟩, hbody, ⟨⟩⟩ := bind_eq_ok.1 h
    exact readBody_sound hrec hbody
  | list =>
    obtain ⟨⟨k, p1⟩, _, h⟩ := bind_eq_ok.1 h
    obtain ⟨⟨n, p2⟩, _, h⟩ := bind_eq_ok.1 h
    obtain ⟨⟨es, p3⟩, hes, ⟨⟩⟩ := bind_eq_ok.1 h
    obtain ⟨hkind, hwf, hreach⟩ := elems_sound (readElems_forall (fun _ _ _ he => readElem_sound hrec he) _ _ _ _ hes)
    exact ⟨⟨hkind, hwf⟩, (Bound.holds_max _ _ _).2 ⟨hd, hreach⟩⟩
  | pairList =>
    obtain ⟨⟨ka, p1⟩, _, h⟩ := bind_eq_ok.1 h
    obtain ⟨⟨kb, p2⟩, _, h⟩ := bind_eq_ok.1 h
    obtain ⟨⟨n, p3⟩, _, h⟩ := bind_eq_ok.1 h
    obtain ⟨⟨as, bs, p4⟩, hpairs, ⟨⟩⟩ := bind_eq_ok.1 h
    obtain ⟨has, hbs, hlen⟩ := readPairs_forall (fun _ _ _ he => readElem_sound hrec he)
      (fun _ _ _ he => readElem_sound hrec he) _ _ _ _ _ hpairs
    obtain ⟨hka, hwfa, hreacha⟩ := elems_sound has
    obtain ⟨hkb, hwfb, hreachb⟩ := elems_sound hbs
    exact ⟨⟨hka, hkb, hlen, hwfa, hwfb⟩,
      (Bound.holds_max _ _ _).2 ⟨hd, (Bound.holds_max _ _ _).2 ⟨hreacha, hreachb⟩⟩⟩
  | union =>
    obtain ⟨⟨c, p1⟩, _, h⟩ := bind_eq_ok.1 h
    dsimp only at h
    split at h
    · cases h
      exact ⟨rfl, (Bound.holds_max _ _ _).2 ⟨hd, Bound.holds_zero _⟩⟩
    · rename_i hdisc
      obtain ⟨⟨y, p2⟩, hy, ⟨⟩⟩ := bind_eq_ok.1 h
      obtain ⟨hwf, hreach⟩ := hrec _ _ _ _ hy
      exact ⟨⟨hdisc, hwf⟩, (Bound.holds_max _ _ _).2 ⟨hd, hreach⟩⟩
  | varIntList | pair =>
    obtain ⟨_, _, h⟩ := bind_eq_ok.1 h
    obtain ⟨_, _, ⟨⟩⟩ := bind_eq_ok.1 h
    exact ⟨trivial, hd⟩
  | int | string | blob | triple | float =>
    obtain ⟨_, _, ⟨⟩⟩ := bind_eq_ok.1 h
    exact ⟨trivial, hd⟩

end Soundness

theorem readTdfFuel_sound (env : DecEnv) : ∀ fuel, TdfReader.Sound env.params.maxDepth (readTdfFuel env fuel)
  | 0 => by
    intro p d x q h
    obtain ⟨_, _, ⟨⟩⟩ := bind_eq_ok.1 h
  | fuel + 1 => by
    intro p d x q h
    obtain ⟨hd, w, ty, -, -, hpayload⟩ := readValue_eq_ok h
    exact readPayload_sound (readTdfFuel_sound env fuel) hd hpayload

/-- Settles O29: by induction on the fuel; what is well formed and within MAX_DEPTH is encoded. -/
theorem decodedValuesAreWellFormed : Obligations.DecodedValuesAreWellFormed := by
  intro s inp pos x q h
  obtain ⟨hwf, hreach⟩ := readTdfFuel_sound (s.decEnv inp) _ _ _ _ _ (gives_tdfDec_ok.1 h)
  exact ⟨hwf, hreach, exists_gives_tdfEnc_bytes hwf hreach⟩

/-! ## Bytes of a form, wherever they stand -/

/-- The bytes `b` stand as `At` says from their first offset to the one after them, whatever is before and after. -/
def StandsAs (At : Bytes → Nat → Nat → Prop) (b : Bytes) : Prop :=
  ∀ pre rest, At (pre ++ (b ++ rest)) pre.length (pre.length + b.length)

/-- What the writer writes stands as `At` says. -/
def Writer.Lays (w : Writer) (At : Bytes → Nat → Nat → Prop) : Prop := ∃ b, Writer.Writes w b ∧ StandsAs At b

section Forms

variable {A B : Bytes → Nat → Nat → Prop} {b c : Bytes} {w v : Writer}

theorem StandsAs.imp (h : StandsAs A b) (hAB : ∀ inp p q, A inp p q → B inp p q) : StandsAs B b :=
  fun pre rest => hAB _ _ _ (h pre rest)

theorem StandsAs.append (hb : StandsAs A b) (hc : StandsAs B c) :
    StandsAs (fun inp p q => ∃ m, A inp p m ∧ B inp m q) (b ++ c) := by
  intro pre rest
  have hfirst := hb pre (c ++ rest)
  have hsecond := hc (pre ++ b) rest
  simp only [List.append_assoc, List.length_append, Nat.add_assoc] at hfirst hsecond ⊢
  exact ⟨_, hfirst, hsecond⟩

theorem standsAs_nil : StandsAs (fun _ p q => q = p) [] := fun _ _ => rfl

theorem standsAs_byte (x : Byte) : StandsAs (fun inp p q => inp[p]? = some x ∧ q = p + 1) [x] :=
  fun pre rest => ⟨by simp, rfl⟩

theorem standsAs_head {x : Byte} (h : b.head? = some x) : StandsAs (fun inp p _ => inp[p]? = some x) b := by
  intro pre rest
  obtain ⟨ys, rfl⟩ := List.head?_eq_some_iff.1 h
  simp

theorem Writer.Lays.imp (h : Writer.Lays w A) (hAB : ∀ inp p q, A inp p q → B inp p q) : Writer.Lays w B := by
  obtain ⟨b, hw, hb⟩ := h
  exact ⟨b, hw, hb.imp hAB⟩

theorem Writer.Lays.then (hw : Writer.Lays w A) (hv : Writer.Lays v B) :
    Writer.Lays (Writer.then w v) (fun inp p q => ∃ m, A inp p m ∧ B inp m q) := by
  obtain ⟨b, hw, hb⟩ := hw
  obtain ⟨c, hv, hc⟩ := hv
  exact ⟨b ++ c, hw.then hv, hb.append hc⟩

theorem emit_lays (h : StandsAs A b) : Writer.Lays (emit b) A := ⟨b, emit_writes b, h⟩

theorem ReadsBack.standsAs {α : Type} {read : Bytes → Nat → Except Error (α × Nat)} {a : α}
    (h : ReadsBack read b a) : StandsAs (fun inp p q => read inp p = .ok (a, q)) b := h

end Forms

/-! ## The forms of varints, counts, elements and children -/

theorem intsAt_stands (s : State) : ∀ vs : List I64,
    StandsAs (fun inp p q => IntsAt s inp vs p q) (vs.flatMap varintBytes)
  | [] => standsAs_nil
  | v :: vs => ((readInt_back s.strictVarint v).standsAs.append (intsAt_stands s vs)).imp
      fun _ _ _ => intsAt_cons.2

/-- R162: a count within MAX_ELEMS that a varint can carry. -/
theorem countAt_stands {s : State} {n : Nat} (hmax : Bound.holds s.params.maxElems n) (hlen : LengthOk n) :
    StandsAs (fun inp p q => CountAt s inp n p q) (lengthBytes n) := by
  have hone := intsAt_stands s [BitVec.ofNat 64 n]
  rw [List.flatMap_singleton, ← lengthBytes_of_lt hlen] at hone
  exact hone.imp fun _ _ _ h => ⟨hmax, _, toInt_of_length hlen, h⟩

/-- An element is written as its row reads it, in a List at depth `d`. -/
def Elem.RoundTrips (s : State) (e : Elem) (k : Kind) (d : Nat) : Prop :=
  Writer.Lays (encElem s.params e d) fun inp p q => Gives (rowOfKind inp p d k) s (.ok (.elemAt e q))

theorem elemsAt_lays {s : State} {k : Kind} {d : Nat} : ∀ {es : Elems},
    (∀ e ∈ Elems.toList es, Elem.RoundTrips s e k d) →
    Writer.Lays (writeAll (encElems s.params es d)) fun inp p q => ElemsAt s inp k d es p q
  | .nil, _ => emit_lays standsAs_nil
  | .cons e es, h => by
    obtain ⟨he, hes⟩ := List.forall_mem_cons.1 h
    rw [encElems]
    exact he.then (elemsAt_lays hes)

theorem pairsAt_lays {s : State} {ka kb : Kind} {d : Nat} : ∀ {as bs : Elems},
    (Elems.toList as).length = (Elems.toList bs).length → (∀ e ∈ Elems.toList as, Elem.RoundTrips s e ka d) →
    (∀ e ∈ Elems.toList bs, Elem.RoundTrips s e kb d) →
    Writer.Lays (writeAll (pairWriters (encElems s.params as d) (encElems s.params bs d)))
      fun inp p q => PairsAt s inp ka kb d as bs p q
  | .nil, .nil, _, _, _ => emit_lays standsAs_nil
  | .cons a as, .cons b bs, hlen, ha, hb => by
    obtain ⟨ha, has⟩ := List.forall_mem_cons.1 ha
    obtain ⟨hb, hbs⟩ := List.forall_mem_cons.1 hb
    rw [encElems, encElems]
    exact (ha.then (hb.then (pairsAt_lays (Nat.succ.inj hlen) has hbs))).imp
      fun _ _ _ ⟨m, h, m', h', hrest⟩ => ⟨m, m', h, h', hrest⟩

/-- A value is written, header first, as it is decoded at depth `d`. -/
def Tdf.RoundTrips (s : State) (x : Tdf) (d : Nat) : Prop :=
  ∃ b, Writer.Writes (encTdf s.params x d) (Tdf.header x ++ b) ∧
    StandsAs (fun inp p q => readTdf (s.decEnv inp) p d = .ok (x, q)) (Tdf.header x ++ b)

theorem Tdf.RoundTrips.lays {s : State} {x : Tdf} {d : Nat} (h : Tdf.RoundTrips s x d) :
    Writer.Lays (encTdf s.params x d) fun inp p q => readTdf (s.decEnv inp) p d = .ok (x, q) := by
  obtain ⟨b, hw, hb⟩ := h
  exact ⟨_, hw, hb⟩

/-- R65: the first byte of a value, the first of its tag. -/
def Tdf.firstByte (x : Tdf) : Byte := (Tdf.tagOf x).extractLsb' 16 8

/-- R165: children none of which begins with the terminator, and the byte they begin with. -/
theorem childrenAt_lays {s : State} {d : Nat} : ∀ {cs : Tdfs},
    (∀ x ∈ Tdfs.toList cs, Tdf.firstByte x ≠ 0x00#8) → (∀ x ∈ Tdfs.toList cs, Tdf.RoundTrips s x d) →
    ∃ b, Writer.Writes (writeAll (encTdfs s.params cs d)) b ∧
      StandsAs (fun inp p q => ChildrenAt s inp d cs p q) b ∧
      b.head? = (Tdfs.toList cs).head?.map Tdf.firstByte
  | .nil, _, _ => ⟨[], emit_writes [], standsAs_nil, rfl⟩
  | .cons x xs, hfirst, h => by
    obtain ⟨hx, hxs⟩ := List.forall_mem_cons.1 hfirst
    obtain ⟨⟨b, hb, hback⟩, htail⟩ := List.forall_mem_cons.1 h
    obtain ⟨c, hc, hat, -⟩ := childrenAt_lays hxs htail
    rw [encTdfs]
    refine ⟨Tdf.header x ++ b ++ c, hb.then hc, fun pre rest => ?_, rfl⟩
    obtain ⟨m, hread, hrest⟩ := hback.append hat pre rest
    have hbegins := standsAs_head (b := Tdf.header x ++ b ++ c) (x := Tdf.firstByte x) rfl pre rest
    exact ⟨⟨_, hbegins, hx⟩, m, decGives_ok.2 hread, hrest⟩

/-- R165, R190: a body that meets the struct condition. -/
theorem bodyAt_lays {s : State} {d : Nat} {start2 : Bool} {cs : Tdfs} (hd : Bound.holds s.params.maxDepth d)
    (hbody : BodyOk start2 cs) (h : ∀ x ∈ Tdfs.toList cs, Tdf.RoundTrips s x (d + 1)) :
    Writer.Lays (structBody s.params d start2 (encTdfs s.params cs (d + 1)))
      fun inp p q => BodyAt s inp d start2 cs p q := by
  obtain ⟨hterminator, hmarker⟩ := hbody
  obtain ⟨b, hb, hat, hhead⟩ := childrenAt_lays hterminator h
  refine ⟨_, guarded_writes hd ((emit_writes _).then (hb.then (emit_writes [terminator]))), ?_⟩
  have htail := hat.append (standsAs_byte terminator)
  cases start2 with
  | true =>
    refine ((standsAs_byte startMarker).append htail).imp ?_
    rintro inp p q ⟨_, ⟨hp, rfl⟩, hrest⟩
    exact ⟨hd, iff_of_true rfl hp, hrest⟩
  | false =>
    have hfirst : ∃ c, (b ++ [terminator]).head? = some c ∧ c ≠ 0x02#8 := by
      rw [List.head?_append, hhead]
      cases hx : (Tdfs.toList cs).head? with
      | none => exact ⟨terminator, rfl, by decide⟩
      | some x => exact ⟨Tdf.firstByte x, rfl, hmarker rfl x hx⟩
    obtain ⟨c, hc, hne⟩ := hfirst
    intro pre rest
    have hbegins := standsAs_head hc pre rest
    exact ⟨hd, iff_of_false Bool.false_ne_true fun h => hne (Option.some.inj (hbegins.symm.trans h)), htail pre rest⟩

/-! ## Round trips (R190, R202) -/

/-- R168, R169: a value within the depth whose payload reads back. -/
theorem roundTrips_of_payload {s : State} {x : Tdf} {d : Nat} (hd : Bound.holds s.params.maxDepth d)
    (h : Writer.Lays (payloadWriter s.params x d) fun inp p q =>
      readPayload (s.decEnv inp) (readTdf (s.decEnv inp)) (Tdf.tagOf x) p d (Tdf.variant x) = .ok (x, q)) :
    Tdf.RoundTrips s x d := by
  obtain ⟨b, hw, hb⟩ := h
  have hword := (readU32_back (headerWord (Tdf.tagOf x) (Tdf.variant x))).standsAs
  rw [beBytes_headerWord] at hword
  refine ⟨b, encTdf_writes hd hw, (hword.append hb).imp ?_⟩
  rintro inp p q ⟨m, hread, hpayload⟩
  rw [readTdf_known_type (env := s.decEnv inp) (ty := Tdf.variant x) hd hread
    (by rw [headerType_headerWord, tdfType_ofByte_code]), headerTag_headerWord]
  exact hpayload

/-- R164: an element whose writer writes what the reader of its kind reads. -/
theorem elem_roundTrips_of_read {s : State} {e : Elem} {d : Nat}
    (h : Writer.Lays (encElem s.params e d) fun inp p q =>
      readElem (s.decEnv inp) (readTdf (s.decEnv inp)) (Elem.kind e) p d = .ok (e, q)) :
    Elem.RoundTrips s e (Elem.kind e) d :=
  h.imp fun _ _ _ => gives_rowOfKind_ok.2

theorem bodyString_of_stringOk {str : Bytes} (h : StringOk str) : bodyString str = str := if_neg h

/-- R190, the string condition: what a string that meets it is written as reads back whole. -/
theorem readString_back_of_ok {str : Bytes} (strict : Bool) (h : StringOk str) (hlen : LengthOk (str.length + 1)) :
    ReadsBack (readString strict) (stringBytes str) str := by
  have hback := readString_back strict hlen
  rwa [bodyString_of_stringOk h] at hback

theorem three_varints_stand (s : State) (a b c : I64) :
    StandsAs (fun inp p q => IntsAt s inp [a, b, c] p q) (varintBytes a ++ varintBytes b ++ varintBytes c) := by
  simpa using intsAt_stands s [a, b, c]

mutual
/-- R190 at every depth: a well-formed value within the bounds that meets the two conditions. -/
theorem Tdf.roundTrips (s : State) : ∀ x : Tdf, Tdf.WF x → Tdf.Plain s.params x → ∀ d,
    Bound.holds s.params.maxDepth (Tdf.reach x d) → Tdf.RoundTrips s x d
  | .int tag v, _, _, d, hd => roundTrips_of_payload hd (emit_lays ((readInt_back _ v).map (Tdf.int tag)))
  | .string tag str, _, ⟨hok, hlen⟩, d, hd =>
    roundTrips_of_payload hd (emit_lays ((readString_back_of_ok _ hok hlen).map (Tdf.string tag)))
  | .blob tag b, _, hlen, d, hd => roundTrips_of_payload hd (emit_lays ((readBlob_back _ hlen).map (Tdf.blob tag)))
  | .struct tag start2 cs, hwf, ⟨hbody, hplain⟩, d, hreach => by
    rw [Tdf.reach, Bound.holds_max] at hreach
    obtain ⟨hd, hreach⟩ := hreach
    exact roundTrips_of_payload hd ((bodyAt_lays hd hbody (Tdfs.roundTrips s cs hwf hplain (d + 1) hreach)).imp
      fun _ _ _ h => readStructPayload_iff.2 ⟨start2, cs, rfl, h⟩)
  | .list tag k es, ⟨hkind, hwf⟩, ⟨hmax, hlen, hplain⟩, d, hreach => by
    rw [Tdf.reach, Bound.holds_max] at hreach
    obtain ⟨hd, hreach⟩ := hreach
    have helems := elemsAt_lays fun e he => hkind e he ▸ Elems.roundTrips s es hwf hplain d hreach e he
    refine roundTrips_of_payload hd ?_
    rw [payloadWriter, count_eq_length]
    refine ((emit_lays ((standsAs_byte k.code).append (countAt_stands hmax hlen))).then helems).imp ?_
    rintro inp p q ⟨m, ⟨_, ⟨hk, rfl⟩, hcount⟩, hes⟩
    exact readListPayload_iff.2 ⟨k, es, m, rfl, hk, hcount, hes⟩
  | .pairList tag ka kb as bs, ⟨hka, hkb, hsame, hwfa, hwfb⟩, ⟨hmax, hlen, hplaina, hplainb⟩, d, hreach => by
    rw [Tdf.reach, Bound.holds_max, Bound.holds_max] at hreach
    obtain ⟨hd, hreacha, hreachb⟩ := hreach
    have hpairs := pairsAt_lays hsame
      (fun e he => hka e he ▸ Elems.roundTrips s as hwfa hplaina d hreacha e he)
      (fun e he => hkb e he ▸ Elems.roundTrips s bs hwfb hplainb d hreachb e he)
    refine roundTrips_of_payload hd ?_
    rw [payloadWriter, count_eq_length]
    refine ((emit_lays ((standsAs_byte ka.code).append ((standsAs_byte kb.code).append
      (countAt_stands hmax hlen)))).then hpairs).imp ?_
    rintro inp p q ⟨m, ⟨_, ⟨hka, rfl⟩, _, ⟨hkb, rfl⟩, hcount⟩, hes⟩
    exact readPairListPayload_iff.2 ⟨ka, kb, as, bs, m, rfl, hka, hkb, hcount, hes⟩
  | .union tag disc .none, hdisc, _, d, hreach => by
    obtain rfl : disc = 0x7F#8 := hdisc
    rw [Tdf.reach, Bound.holds_max] at hreach
    refine roundTrips_of_payload hreach.1 ?_
    rw [payloadWriter, encInner]
    refine ((emit_lays (standsAs_byte 0x7F#8)).then (emit_lays standsAs_nil)).imp ?_
    rintro inp p q ⟨_, ⟨hdisc, rfl⟩, rfl⟩
    exact readUnionPayload_iff.2 (.inl ⟨hdisc, rfl, rfl⟩)
  | .union tag disc (.some x), ⟨hne, hwf⟩, hplain, d, hreach => by
    rw [Tdf.reach, Bound.holds_max] at hreach
    obtain ⟨hd, hreach⟩ := hreach
    have hinner := (Tdf.roundTrips s x hwf hplain (d + 1) hreach).lays
    refine roundTrips_of_payload hd ?_
    rw [payloadWriter, encInner, if_neg (show ¬ disc = emptyDisc from hne)]
    refine ((emit_lays (standsAs_byte disc)).then hinner).imp ?_
    rintro inp p q ⟨_, ⟨hdisc, rfl⟩, hx⟩
    exact readUnionPayload_iff.2 (.inr ⟨disc, x, hne, hdisc, rfl, decGives_ok.2 hx⟩)
  | .varIntList tag vs, _, ⟨hmax, hlen⟩, d, hd =>
    roundTrips_of_payload hd ((emit_lays ((countAt_stands hmax hlen).append (intsAt_stands s vs))).imp
      fun _ _ _ ⟨m, hcount, hvs⟩ => readVarIntListPayload_iff.2 ⟨vs, m, rfl, hcount, hvs⟩)
  | .pair tag a b, _, _, d, hd =>
    roundTrips_of_payload hd (emit_lays ((readInt_back _ a).bind (g := Tdf.pair tag) (readInt_back _ b)))
  | .triple tag a b c, _, _, d, hd =>
    roundTrips_of_payload hd ((emit_lays (three_varints_stand s a b c)).imp
      fun _ _ _ h => readTriplePayload_iff.2 ⟨a, b, c, rfl, h⟩)
  | .float tag bits, _, _, d, hd => roundTrips_of_payload hd (emit_lays ((readF64_back bits).map (Tdf.float tag)))

theorem Tdfs.roundTrips (s : State) : ∀ cs : Tdfs, Tdfs.WF cs → Tdfs.Plain s.params cs → ∀ d,
    Bound.holds s.params.maxDepth (Tdfs.reach cs d) → ∀ x ∈ Tdfs.toList cs, Tdf.RoundTrips s x d
  | .nil, _, _, _, _ => List.forall_mem_nil _
  | .cons x xs, ⟨hwf, hwfs⟩, ⟨hplain, hplains⟩, d, hreach => by
    rw [Tdfs.reach, Bound.holds_max] at hreach
    exact List.forall_mem_cons.2
      ⟨Tdf.roundTrips s x hwf hplain d hreach.1, Tdfs.roundTrips s xs hwfs hplains d hreach.2⟩

theorem Elem.roundTrips (s : State) : ∀ e : Elem, Elem.WF e → Elem.Plain s.params e → ∀ d,
    Bound.holds s.params.maxDepth (Elem.reach e d) → Elem.RoundTrips s e (Elem.kind e) d
  | .int v, _, _, d, _ => by
    refine elem_roundTrips_of_read ?_
    rw [encElem]
    exact emit_lays ((readInt_back _ v).map Elem.int)
  | .string str, _, ⟨hok, hlen⟩, d, _ => by
    refine elem_roundTrips_of_read ?_
    rw [encElem]
    exact emit_lays ((readString_back_of_ok _ hok hlen).map Elem.string)
  | .struct start2 cs, hwf, ⟨hbody, hplain⟩, d, hreach => by
    rw [Elem.reach, Bound.holds_max] at hreach
    obtain ⟨hd, hreach⟩ := hreach
    refine elem_roundTrips_of_read ?_
    rw [encElem]
    exact (bodyAt_lays hd hbody (Tdfs.roundTrips s cs hwf hplain (d + 2) hreach)).imp
      fun _ _ _ h => readElem_struct_iff.2 ⟨start2, cs, rfl, h⟩
  | .triple a b c, _, _, d, _ => by
    refine elem_roundTrips_of_read ?_
    rw [encElem]
    exact (emit_lays (three_varints_stand s a b c)).imp fun _ _ _ h => readElem_triple_iff.2 ⟨a, b, c, rfl, h⟩
  | .float bits, _, _, d, _ => by
    refine elem_roundTrips_of_read ?_
    rw [encElem]
    exact emit_lays ((readF64_back bits).map Elem.float)

theorem Elems.roundTrips (s : State) : ∀ es : Elems, Elems.WF es → Elems.Plain s.params es → ∀ d,
    Bound.holds s.params.maxDepth (Elems.reach es d) →
    ∀ e ∈ Elems.toList es, Elem.RoundTrips s e (Elem.kind e) d
  | .nil, _, _, _, _ => List.forall_mem_nil _
  | .cons e es, ⟨hwf, hwfs⟩, ⟨hplain, hplains⟩, d, hreach => by
    rw [Elems.reach, Bound.holds_max] at hreach
    exact List.forall_mem_cons.2
      ⟨Elem.roundTrips s e hwf hplain d hreach.1, Elems.roundTrips s es hwfs hplains d hreach.2⟩
end

/-- Bytes of a form, standing at the beginning of the input. -/
theorem StandsAs.at_start {At : Bytes → Nat → Nat → Prop} {b : Bytes} (h : StandsAs At b) (rest : Bytes) :
    At (b ++ rest) 0 b.length := by
  have hat := h [] rest
  rwa [List.nil_append, List.length_nil, Nat.zero_add] at hat

/-- Settles O28: the round trip at depth 1, at the beginning of the input. -/
theorem tdfRoundTrip : Obligations.TdfRoundTrip := by
  intro s x rest hwf hdepth hplain
  obtain ⟨b, hwrites, hreads⟩ := (Tdf.roundTrips s x hwf hplain 1 hdepth).lays
  exact ⟨b, gives_tdfEnc_bytes.2 ⟨hwf, hwrites⟩, gives_tdfDec_ok.2 (hreads.at_start rest)⟩

/-- R202: values each of which makes the round trip, in a row. -/
theorem valuesAt_lays {s : State} : ∀ {vals : List Tdf}, (∀ x ∈ vals, Tdf.RoundTrips s x 1) →
    Writer.Lays (writeAll (vals.map fun x => encTdf s.params x 1)) fun inp p q => ValuesAt s inp vals p q
  | [], _ => emit_lays standsAs_nil
  | x :: xs, h => by
    obtain ⟨hx, hxs⟩ := List.forall_mem_cons.1 h
    exact (hx.lays.then (valuesAt_lays hxs)).imp fun _ _ _ => valuesAt_cons.2

/-- Settles O32: the values stand back to back in what CONTENT.ENC writes, up to its end. -/
theorem contentRoundTrip : Obligations.ContentRoundTrip := by
  intro s vals h
  obtain ⟨b, hwrites, hvalues⟩ := valuesAt_lays fun x hx =>
    let ⟨hwf, hdepth, hplain⟩ := h x hx
    Tdf.roundTrips s x hwf hplain 1 hdepth
  refine ⟨b, gives_contentEnc_iff.2 (bytes_eq_responseOf_map.2 ?_), gives_contentDec_ok.2 ?_⟩
  · rw [encodeContent_of_wf _ fun x hx => (h x hx).1, hwrites 0]
  · have hat := hvalues.at_start []
    rwa [List.append_nil] at hat

end Sys2Proof.Machine

/-! PROOFS. The statements about the Packet Framing unit (43_packet_framing.md): what its commands answer, the header
and the packet read, the packet written, and the round trip through the wire form of a packet. -/

namespace Sys2Proof.Machine

/-! ## What the commands answer -/

theorem gives_pktEnc_iff {s : State} {component command error qtype id : U16} {content : Bytes} {r : Response} :
    Gives (.pktEnc component command error qtype id content) s r ↔
      r = responseOf ((packetBytes component command error qtype id content).map .bytes) := gives_of_done rfl r

theorem gives_pktEnc_bytes {s : State} {component command error qtype id : U16} {content b : Bytes} :
    Gives (.pktEnc component command error qtype id content) s (.ok (.bytes b)) ↔
      packetBytes component command error qtype id content = .ok b := gives_pktEnc_iff.trans bytes_eq_responseOf_map

theorem gives_pktHdr_iff {s : State} {inp : Bytes} {pos : Nat} {r : Response} :
    Gives (.pktHdr inp pos) s r ↔
      r = responseOf ((readHeader inp pos).map fun x => .header x.1 x.2 (Header.declared x.1)) := gives_of_done rfl r

theorem gives_pktHdr_of_ok {s : State} {inp : Bytes} {pos hlen : Nat} {h : Header}
    (hread : readHeader inp pos = .ok (h, hlen)) :
    Gives (.pktHdr inp pos) s (.ok (.header h hlen (Header.declared h))) :=
  gives_pktHdr_iff.2 (responseOf_map_ok.2 ⟨_, hread, rfl⟩)

theorem gives_pktHdr_of_error {s : State} {inp : Bytes} {pos : Nat} {e : Error}
    (hread : readHeader inp pos = .error e) : Gives (.pktHdr inp pos) s (.err e) :=
  gives_pktHdr_iff.2 (responseOf_map_error.2 hread)

theorem gives_pktDec_iff {s : State} {inp : Bytes} {pos : Nat} {r : Response} :
    Gives (.pktDec inp pos) s r ↔ r = responseOf ((readPacket inp pos).map fun x => .packetAt x.1 x.2) :=
  gives_of_done rfl r

/-! ## The header read (R221, R222) -/

/-- R221: the declared length is the two halves, `extLength` the high one. -/
theorem Header.declared_toNat (h : Header) :
    (Header.declared h).toNat = h.extLength.toNat * 65536 + h.length.toNat := by
  rw [Header.declared]
  refine (BitVec.toNat_append _ _).trans ?_
  rw [← Nat.shiftLeft_add_eq_or_of_lt h.length.isLt, Nat.shiftLeft_eq]

/-- R221: with no `extLength` the declared length is `length` alone. -/
theorem Header.declared_of_extLength_zero {h : Header} (hext : h.extLength = 0#16) :
    Header.declared h = h.length.setWidth 32 := by
  refine BitVec.eq_of_toNat_eq ?_
  have := h.length.isLt
  rw [Header.declared_toNat, hext, BitVec.toNat_setWidth, BitVec.toNat_ofNat]
  omega

/-- R222: the six fixed fields at `pos`, with an `extLength`. -/
def headerAt (inp : Bytes) (pos : Nat) (extLength : U16) : Header :=
  { length := fieldAt inp pos, component := fieldAt inp (pos + 2), command := fieldAt inp (pos + 4),
    error := fieldAt inp (pos + 6), qtype := fieldAt inp (pos + 8), id := fieldAt inp (pos + 10),
    extLength := extLength }

section HeaderReads

variable {inp : Bytes} {pos : Nat}

theorem readHeader_too_short (h : inp.length - pos < 12) :
    readHeader inp pos = .error (.incomplete (12 - (inp.length - pos))) := if_pos h

theorem readHeader_of_ext_clear (h : 12 ≤ inp.length - pos) (hext : (fieldAt inp (pos + 8)).getLsbD 12 = false) :
    readHeader inp pos = .ok (headerAt inp pos 0, 12) :=
  (readHeader_eq inp pos h).trans (if_neg (ne_true_of_eq_false hext))

theorem readHeader_ext_missing (h : 12 ≤ inp.length - pos) (hext : (fieldAt inp (pos + 8)).getLsbD 12 = true)
    (hshort : inp.length - pos < 14) : readHeader inp pos = .error (.incomplete (14 - (inp.length - pos))) :=
  (readHeader_eq inp pos h).trans ((if_pos hext).trans (if_pos hshort))

theorem readHeader_of_ext_set (h : 14 ≤ inp.length - pos) (hext : (fieldAt inp (pos + 8)).getLsbD 12 = true) :
    readHeader inp pos = .ok (headerAt inp pos (fieldAt inp (pos + 12)), 14) :=
  (readHeader_eq inp pos (by omega)).trans ((if_pos hext).trans (if_neg (Nat.not_lt.2 h)))

end HeaderReads

/-- Settles O36: by the bytes that are there and by bit 12 of the qtype they hold. -/
theorem pktHdrFields : Obligations.PktHdrFields := by
  intro s inp pos _
  refine ⟨fun hshort => ?_, fun hfixed => ⟨fun hext => ?_, fun hext => ⟨fun hshort => ?_, fun hlong => ?_⟩⟩⟩
  · exact gives_pktHdr_of_error (readHeader_too_short hshort)
  · have hgives := gives_pktHdr_of_ok (s := s) (readHeader_of_ext_clear hfixed hext)
    rwa [Header.declared_of_extLength_zero rfl] at hgives
  · exact gives_pktHdr_of_error (readHeader_ext_missing hfixed hext hshort)
  · exact gives_pktHdr_of_ok (readHeader_of_ext_set hlong hext)

/-! ## The packet read (R225) -/

/-- R225: a packet read after its header. -/
theorem readPacket_of_readHeader {inp : Bytes} {pos hlen : Nat} {h : Header}
    (hread : readHeader inp pos = .ok (h, hlen)) :
    readPacket inp pos =
      if inp.length - pos < hlen + (Header.declared h).toNat then
        .error (.incomplete (hlen + (Header.declared h).toNat - (inp.length - pos)))
      else .ok ({ component := h.component, command := h.command, error := h.error, qtype := h.qtype, id := h.id,
                  content := span inp (pos + hlen) (Header.declared h).toNat },
                pos + hlen + (Header.declared h).toNat) := by
  rw [readPacket, hread]
  rfl

/-- R225: a packet read answers its header's error. -/
theorem readPacket_of_readHeader_error {inp : Bytes} {pos : Nat} {e : Error}
    (hread : readHeader inp pos = .error e) : readPacket inp pos = .error e := by
  rw [readPacket, hread]
  rfl

/-- Settles O37: by what the header at the cursor is, then by whether its content is there. -/
theorem pktDecByItsHeader : Obligations.PktDecByItsHeader := by
  intro s inp pos _
  cases hread : readHeader inp pos with
  | error e =>
    exact ⟨_, gives_pktHdr_of_error hread, gives_pktDec_err.2 (readPacket_of_readHeader_error hread)⟩
  | ok x =>
    obtain ⟨h, hlen⟩ := x
    refine ⟨_, gives_pktHdr_of_ok hread, ?_⟩
    rw [gives_pktDec_iff, readPacket_of_readHeader hread]
    by_cases hshort : inp.length - pos < hlen + (Header.declared h).toNat
    · simp only [if_pos hshort]
      rfl
    · simp only [if_neg hshort]
      rfl

/-! ## The packet written (R220) -/

/-- R42: only the low 16 bits of a number stand in its two bytes. -/
theorem twoBytes_mod (n : Nat) : twoBytes (n % 65536) = twoBytes n := by
  have hhigh : BitVec.ofNat 8 (n % 65536 / 256) = BitVec.ofNat 8 (n / 256) := by
    refine BitVec.eq_of_toNat_eq ?_
    simp only [BitVec.toNat_ofNat]
    omega
  have hlow : BitVec.ofNat 8 (n % 65536) = BitVec.ofNat 8 n := by
    refine BitVec.eq_of_toNat_eq ?_
    simp only [BitVec.toNat_ofNat]
    omega
  rw [twoBytes, hhigh, hlow, twoBytes]

section Written

variable (component command error qtype id : U16) {content : Bytes}

theorem packetBytes_too_long (h : 0xFFFFFFFF < content.length) :
    packetBytes component command error qtype id content = .error (.tooLong content.length) := if_pos h

/-- R220: content whose length fits in `length` alone. -/
theorem packetBytes_of_short (h : content.length ≤ 0xFFFF) :
    packetBytes component command error qtype id content =
      .ok (twoBytes content.length ++ twoBytes component.toNat ++ twoBytes command.toNat ++ twoBytes error.toNat ++
        twoBytes (qtype &&& 0xEFFF).toNat ++ twoBytes id.toNat ++ content) := by
  rw [packetBytes, if_neg (by omega), decide_eq_false (Nat.not_lt.2 h)]
  simp only [beBytes_two]
  rfl

/-- R220: content whose length needs `extLength`. -/
theorem packetBytes_of_long (h : 0xFFFF < content.length) (hfits : content.length ≤ 0xFFFFFFFF) :
    packetBytes component command error qtype id content =
      .ok (twoBytes (content.length % 65536) ++ twoBytes component.toNat ++ twoBytes command.toNat ++
        twoBytes error.toNat ++ twoBytes (qtype ||| 0x1000).toNat ++ twoBytes id.toNat ++
        twoBytes (content.length / 65536) ++ content) := by
  rw [packetBytes, if_neg (Nat.not_lt.2 hfits), decide_eq_true h, twoBytes_mod]
  simp only [beBytes_two]
  rfl

end Written

/-- Settles O35: by the three ranges of the content's length. -/
theorem pktEncLayout : Obligations.PktEncLayout := fun _ component command error qtype id _ =>
  ⟨fun hover =>
      gives_pktEnc_iff.2 (responseOf_map_error.2 (packetBytes_too_long component command error qtype id hover)),
    fun hshort => gives_pktEnc_bytes.2 (packetBytes_of_short component command error qtype id hshort),
    fun hlong hfits => gives_pktEnc_bytes.2 (packetBytes_of_long component command error qtype id hlong hfits)⟩

/-! ## The round trip (R226) -/

/-- R226: the packet PKT.ENC writes, its qtype as the length of the content makes it. -/
def framedPacket (component command error qtype id : U16) (content : Bytes) : Packet :=
  { component := component, command := command, error := error,
    qtype := if 0xFFFF < content.length then qtype ||| 0x1000 else qtype &&& 0xEFFF, id := id, content := content }

/-- R226: a packet whose EXT flag says whether its length, which the header can carry, needs `extLength`. -/
def Packet.Framed (k : Packet) : Prop :=
  k.content.length ≤ 0xFFFFFFFF ∧ (k.qtype.getLsbD 12 = true ↔ 0xFFFF < k.content.length)

section Framed

variable (component command error qtype id : U16) {content : Bytes}

theorem framedPacket_framed (h : content.length ≤ 0xFFFFFFFF) :
    Packet.Framed (framedPacket component command error qtype id content) := by
  refine ⟨h, ?_⟩
  rw [framedPacket]
  by_cases hlong : 0xFFFF < content.length
  · exact iff_of_true (by simp [hlong]) hlong
  · exact iff_of_false (by simp [hlong]) hlong

/-- R220: what PKT.ENC writes is the wire form of that packet. -/
theorem packetBytes_eq_wire (h : content.length ≤ 0xFFFFFFFF) :
    packetBytes component command error qtype id content =
      .ok (Packet.wire (framedPacket component command error qtype id content)) := by
  obtain ⟨-, hflag⟩ := framedPacket_framed component command error qtype id h
  by_cases hlong : 0xFFFF < content.length
  · rw [packetBytes_of_long _ _ _ _ _ hlong h, Packet.wire, if_pos (hflag.2 hlong)]
    simp only [framedPacket, if_pos hlong]
  · rw [packetBytes_of_short _ _ _ _ _ (Nat.le_of_not_lt hlong), Packet.wire, if_neg (mt hflag.1 hlong), twoBytes_mod]
    simp only [framedPacket, if_neg hlong, List.append_nil]

end Framed

/-- R220: the header of a packet in its wire form. -/
def Packet.headerBytes (k : Packet) : Bytes :=
  twoBytes (k.content.length % 65536) ++ twoBytes k.component.toNat ++ twoBytes k.command.toNat ++
    twoBytes k.error.toNat ++ twoBytes k.qtype.toNat ++ twoBytes k.id.toNat ++
    (if k.qtype.getLsbD 12 then twoBytes (k.content.length / 65536) else [])

theorem Packet.wire_eq (k : Packet) : Packet.wire k = Packet.headerBytes k ++ k.content := rfl

theorem Packet.headerBytes_length (k : Packet) :
    (Packet.headerBytes k).length = if k.qtype.getLsbD 12 then 14 else 12 := by
  rw [Packet.headerBytes]
  cases k.qtype.getLsbD 12 <;> rfl

/-- R222: the header of a packet. -/
def Packet.header (k : Packet) : Header :=
  { length := BitVec.ofNat 16 (k.content.length % 65536), component := k.component, command := k.command,
    error := k.error, qtype := k.qtype, id := k.id,
    extLength := if k.qtype.getLsbD 12 then BitVec.ofNat 16 (k.content.length / 65536) else 0#16 }

/-- R226: the header of a framed packet declares its content. -/
theorem Packet.Framed.declared_header {k : Packet} (hk : Packet.Framed k) :
    (Header.declared (Packet.header k)).toNat = k.content.length := by
  obtain ⟨hfits, hflag⟩ := hk
  rw [Header.declared_toNat, Packet.header]
  by_cases hlong : 0xFFFF < k.content.length
  · simp only [hflag.2 hlong, if_true, BitVec.toNat_ofNat]
    omega
  · simp only [mt hflag.1 hlong, Bool.false_eq_true, if_false, BitVec.toNat_ofNat]
    omega

/-- R74: the field in the first two bytes. -/
theorem fieldAt_twoBytes_zero (n : Nat) (rest : Bytes) : fieldAt (twoBytes n ++ rest) 0 = BitVec.ofNat 16 n := by
  refine BitVec.eq_of_toNat_eq ((toNat_append_byte (BitVec.ofNat 8 (n / 256)) (BitVec.ofNat 8 n)).trans ?_)
  simp only [BitVec.toNat_ofNat]
  omega

/-- R74: the fields after the first two bytes. -/
theorem fieldAt_twoBytes_add (n : Nat) (rest : Bytes) (off : Nat) :
    fieldAt (twoBytes n ++ rest) (off + 2) = fieldAt rest off := rfl

theorem headerAt_headerBytes (k : Packet) (rest : Bytes) (extLength : U16) :
    headerAt (Packet.headerBytes k ++ rest) 0 extLength = { Packet.header k with extLength := extLength } := by
  simp only [headerAt, Packet.headerBytes, Packet.header, List.append_assoc, Nat.zero_add, fieldAt_twoBytes_zero,
    fieldAt_twoBytes_add, BitVec.ofNat_toNat, BitVec.setWidth_eq]

/-- R222: the header bytes of a packet read back, whatever follows. -/
theorem readHeader_headerBytes (k : Packet) (rest : Bytes) :
    readHeader (Packet.headerBytes k ++ rest) 0 = .ok (Packet.header k, (Packet.headerBytes k).length) := by
  have hlen : (Packet.headerBytes k ++ rest).length = (Packet.headerBytes k).length + rest.length := List.length_append
  have hqtype : fieldAt (Packet.headerBytes k ++ rest) (0 + 8) = k.qtype :=
    congrArg Header.qtype (headerAt_headerBytes k rest 0)
  have hheader := Packet.headerBytes_length k
  cases hflag : k.qtype.getLsbD 12 with
  | false =>
    rw [hflag, if_neg Bool.false_ne_true] at hheader
    rw [readHeader_of_ext_clear (by omega) (by rw [hqtype, hflag]), headerAt_headerBytes, hheader, Packet.header, hflag]
    rfl
  | true =>
    rw [hflag, if_pos rfl] at hheader
    have hext : fieldAt (Packet.headerBytes k ++ rest) (0 + 12) = BitVec.ofNat 16 (k.content.length / 65536) := by
      rw [Packet.headerBytes, if_pos hflag]
      simp only [List.append_assoc, Nat.zero_add, fieldAt_twoBytes_add, fieldAt_twoBytes_zero]
    rw [readHeader_of_ext_set (by omega) (by rw [hqtype, hflag]), hext, headerAt_headerBytes, hheader, Packet.header,
      hflag]
    rfl

/-- R226: a framed packet reads back from its wire form, whatever follows. -/
theorem Packet.Framed.readPacket_wire_append {k : Packet} (hk : Packet.Framed k) (rest : Bytes) :
    readPacket (Packet.wire k ++ rest) 0 = .ok (k, (Packet.wire k).length) := by
  rw [Packet.wire_eq, List.append_assoc, readPacket_of_readHeader (readHeader_headerBytes k _), hk.declared_header,
    if_neg (by simp only [List.length_append]; omega), Nat.zero_add, span_append_at, List.length_append]
  rfl

/-- R226: the length of the wire form of a framed packet. -/
theorem Packet.Framed.wire_length {k : Packet} (hk : Packet.Framed k) :
    (Packet.wire k).length = (if 0xFFFF < k.content.length then 14 else 12) + k.content.length := by
  rw [Packet.wire_eq, List.length_append, Packet.headerBytes_length]
  simp only [hk.2]

/-- Settles O38: what PKT.ENC writes is the wire form of a framed packet. -/
theorem packetRoundTrip : Obligations.PacketRoundTrip := by
  intro s component command error qtype id content rest hfits
  have hframed := framedPacket_framed component command error qtype id hfits
  exact ⟨_, gives_pktEnc_bytes.2 (packetBytes_eq_wire component command error qtype id hfits), hframed.wire_length,
    gives_pktDec_ok.2 (hframed.readPacket_wire_append rest)⟩

end Sys2Proof.Machine

/-! PROOFS. The statements about the Stream Reassembler unit (44_stream_reassembler.md): what STREAM.PUSH answers, what a
sequence of pushes delivers and keeps, when none of them overflows, and what no other instruction does. -/

namespace Sys2Proof.Machine

/-! ## One push -/

/-- R253: the state after a push that found the packets `ks` in the first `q` bytes of RBUF and the chunk. -/
def State.afterPush (s : State) (chunk : Bytes) (ks : List Packet) (q : Nat) : State :=
  { s with rbuf := (s.rbuf ++ chunk).drop q, responses := s.responses ++ [.ok (.packets ks)] }

/-- R252: the state after a push that would have left `held` bytes, more than the `cap` of BUF_CAP. -/
def State.afterOverflow (s : State) (held cap : Nat) : State :=
  { s with rfault := true, responses := s.responses ++ [.err (.resource (.buffer held cap))] }

@[simp] theorem State.afterPush_rbuf (s : State) (chunk : Bytes) (ks : List Packet) (q : Nat) :
    (s.afterPush chunk ks q).rbuf = (s.rbuf ++ chunk).drop q := rfl
@[simp] theorem State.afterOverflow_responses (s : State) (held cap : Nat) :
    (s.afterOverflow held cap).responses = s.responses ++ [.err (.resource (.buffer held cap))] := rfl

theorem Bound.not_holds_iff {b : Bound} {n : Nat} : ¬ Bound.holds b n ↔ ∃ cap, b = .fin cap ∧ cap < n := by
  cases b <;> simp [Bound.holds]

/-- R252: while RFAULT is set, a push answers FAULTED. -/
theorem gives_streamPush_faulted {s : State} (hfault : s.rfault = true) (chunk : Bytes) :
    Gives (.streamPush chunk) s (.err .faulted) := by
  rcases streamPush_cases chunk s with ⟨hgives, -⟩ | ⟨hclear, -⟩
  · exact hgives
  · exact absurd (hclear.symm.trans hfault) Bool.false_ne_true

section Push

variable {s : State} {chunk : Bytes} {ks : List Packet} {q : Nat}

/-- R253: a push that leaves no more than BUF_CAP bytes. -/
theorem streamPush_of_fits (hclear : s.rfault = false) (hchain : PacketChain (s.rbuf ++ chunk) ks 0 q)
    (hfits : Bound.holds s.params.bufCap ((s.rbuf ++ chunk).length - q)) :
    exec (.streamPush chunk) s = .next (s.afterPush chunk ks q) := by
  obtain ⟨ks', q', hchain', hok, -⟩ := streamPush_eq hclear chunk
  obtain ⟨rfl, rfl⟩ := hchain.unique hchain'
  exact hok hfits

/-- R252: a push that would leave more than BUF_CAP bytes. -/
theorem streamPush_of_overflow {cap : Nat} (hclear : s.rfault = false) (hchain : PacketChain (s.rbuf ++ chunk) ks 0 q)
    (hcap : s.params.bufCap = .fin cap) (hover : cap < (s.rbuf ++ chunk).length - q) :
    exec (.streamPush chunk) s = .next (s.afterOverflow ((s.rbuf ++ chunk).length - q) cap) := by
  obtain ⟨ks', q', hchain', -, hoverflow⟩ := streamPush_eq hclear chunk
  obtain ⟨rfl, rfl⟩ := hchain.unique hchain'
  exact hoverflow cap hcap hover

/-- R253: a push is answered with packets exactly when RFAULT is clear, they are the packets found, and the bytes after
them fit in BUF_CAP. -/
theorem streamPush_packets_iff {u : State} :
    (exec (.streamPush chunk) s = .next u ∧ u.responses = s.responses ++ [.ok (.packets ks)]) ↔
      s.rfault = false ∧ ∃ q, PacketChain (s.rbuf ++ chunk) ks 0 q ∧
        Bound.holds s.params.bufCap ((s.rbuf ++ chunk).length - q) ∧ u = s.afterPush chunk ks q := by
  constructor
  · rintro ⟨hexec, hresp⟩
    obtain ⟨hclear, -, -, q, hchain, -⟩ := streamPush_ok hexec hresp
    by_cases hfits : Bound.holds s.params.bufCap ((s.rbuf ++ chunk).length - q)
    · cases (streamPush_of_fits hclear hchain hfits).symm.trans hexec
      exact ⟨hclear, q, hchain, hfits, rfl⟩
    · obtain ⟨cap, hcap, hover⟩ := Bound.not_holds_iff.1 hfits
      cases (streamPush_of_overflow hclear hchain hcap hover).symm.trans hexec
      simp at hresp
  · rintro ⟨hclear, q, hchain, hfits, rfl⟩
    exact ⟨streamPush_of_fits hclear hchain hfits, rfl⟩

end Push

/-- Settles O39: the packets are those of `parseStream_chain`, and the rest fits in BUF_CAP or does not. -/
theorem streamPushOutcome : Obligations.StreamPushOutcome := by
  refine fun s chunk => ⟨fun hfault => gives_streamPush_faulted hfault chunk, fun hclear => ?_⟩
  obtain ⟨ks, q, hchain, -⟩ := parseStream_chain (s.rbuf ++ chunk)
  exact ⟨ks, q, extracts_iff_chain.2 hchain, streamPush_of_fits hclear hchain,
    fun _ => streamPush_of_overflow hclear hchain⟩

/-- Settles O52: which of the three outcomes a push has depends on RFAULT, RBUF and BUF_CAP alone. -/
theorem streamIgnoresStrictMode : Obligations.StreamIgnoresStrictMode := by
  intro s chunk b
  rcases Bool.eq_false_or_eq_true s.rfault with hfault | hclear
  · exact ⟨_, gives_streamPush_faulted hfault chunk,
      gives_streamPush_faulted (s := { s with strictVarint := b }) hfault chunk⟩
  · obtain ⟨ks, q, hchain, -⟩ := parseStream_chain (s.rbuf ++ chunk)
    by_cases hfits : Bound.holds s.params.bufCap ((s.rbuf ++ chunk).length - q)
    · exact ⟨_, streamPush_of_fits hclear hchain hfits,
        streamPush_of_fits (s := { s with strictVarint := b }) hclear hchain hfits⟩
    · obtain ⟨cap, hcap, hover⟩ := Bound.not_holds_iff.1 hfits
      exact ⟨_, streamPush_of_overflow hclear hchain hcap hover,
        streamPush_of_overflow (s := { s with strictVarint := b }) hclear hchain hcap hover⟩

/-! ## A sequence of pushes -/

theorem pushes_cons_iff {c : Bytes} {cs : List Bytes} {s t : State} {ks : List Packet} :
    Pushes (c :: cs) s ks t ↔ s.rfault = false ∧ ∃ now q later, PacketChain (s.rbuf ++ c) now 0 q ∧
      Bound.holds s.params.bufCap ((s.rbuf ++ c).length - q) ∧ Pushes cs (s.afterPush c now q) later t ∧
      ks = now ++ later := by
  constructor
  · rintro ⟨u, now, later, hexec, hresp, hlater, rfl⟩
    obtain ⟨hclear, q, hchain, hfits, rfl⟩ := streamPush_packets_iff.1 ⟨hexec, hresp⟩
    exact ⟨hclear, now, q, later, hchain, hfits, hlater, rfl⟩
  · rintro ⟨hclear, now, q, later, hchain, hfits, hlater, rfl⟩
    exact ⟨_, now, later, streamPush_of_fits hclear hchain hfits, rfl, hlater, rfl⟩

theorem pushes_singleton_iff {c : Bytes} {s t : State} {ks : List Packet} :
    Pushes [c] s ks t ↔ s.rfault = false ∧ ∃ q, PacketChain (s.rbuf ++ c) ks 0 q ∧
      Bound.holds s.params.bufCap ((s.rbuf ++ c).length - q) ∧ t = s.afterPush c ks q := by
  rw [pushes_cons_iff]
  constructor
  · rintro ⟨hclear, now, q, _, hchain, hfits, ⟨rfl, rfl⟩, rfl⟩
    rw [List.append_nil]
    exact ⟨hclear, q, hchain, hfits, rfl⟩
  · rintro ⟨hclear, q, hchain, hfits, rfl⟩
    exact ⟨hclear, ks, q, [], hchain, hfits, ⟨rfl, rfl⟩, (List.append_nil ks).symm⟩

/-- R258: the packets delivered, as received, and the bytes held are the bytes held before and those pushed. -/
theorem pushes_wire : ∀ {chunks : List Bytes} {s t : State} {ks : List Packet}, Pushes chunks s ks t →
    (ks.map Packet.wire).flatten ++ t.rbuf = s.rbuf ++ chunks.flatten
  | [], s, _, _, ⟨rfl, rfl⟩ => by simp
  | c :: cs, s, t, _, h => by
    obtain ⟨-, now, q, later, hchain, -, hlater, rfl⟩ := pushes_cons_iff.1 h
    calc ((now ++ later).map Packet.wire).flatten ++ t.rbuf
        = (now.map Packet.wire).flatten ++ ((later.map Packet.wire).flatten ++ t.rbuf) := by simp
      _ = (now.map Packet.wire).flatten ++ (s.rbuf ++ c).drop q ++ cs.flatten := by
        rw [pushes_wire hlater, State.afterPush_rbuf, List.append_assoc]
      _ = s.rbuf ++ (c :: cs).flatten := by
        rw [hchain.wire (Nat.zero_le _), List.drop_zero, List.flatten_cons, List.append_assoc]

/-- R22: an instruction keeps RBUF, or is BLOCK.RESET, or is a push answered with packets. -/
theorem exec_rbuf {i : Instr} {s t : State} (h : exec i s = .next t) :
    t.rbuf = s.rbuf ∨ i = .blockReset ∨ ∃ chunk ks, i = .streamPush chunk ∧ Pushes [chunk] s ks t := by
  rcases exec_cases i s with ⟨r, hgives, -⟩ | ⟨v, rfl⟩ | rfl | ⟨chunk, rfl⟩
  · cases hgives.symm.trans h; exact .inl rfl
  · cases h; exact .inl rfl
  · exact .inr (.inl rfl)
  · rcases streamPush_cases chunk s with ⟨hgives, -⟩ | ⟨hclear, ⟨ks, q, hchain, hfits, hexec⟩ | ⟨held, cap, hexec⟩⟩
    · cases hgives.symm.trans h; exact .inl rfl
    · cases hexec.symm.trans h
      exact .inr (.inr ⟨chunk, ks, rfl, pushes_singleton_iff.2 ⟨hclear, q, hchain, hfits, rfl⟩⟩)
    · cases hexec.symm.trans h; exact .inl rfl

/-- Settles O41: `pushes_wire`, by induction on the chunks, and `exec_rbuf`. -/
theorem noStreamByteLost : Obligations.NoStreamByteLost :=
  ⟨fun _ _ _ _ => pushes_wire, fun _ _ _ hexec hreset =>
    (exec_rbuf hexec).imp_right fun h => h.resolve_left hreset⟩

/-! ## Chunk boundaries (R257) -/

theorem packetChain_empty : PacketChain [] [] 0 0 := ⟨rfl, 12, rfl⟩

/-- R255: what follows the packets found holds no complete packet. -/
theorem PacketChain.rest_empty {b : Bytes} {ks : List Packet} {q : Nat} (h : PacketChain b ks 0 q) :
    PacketChain (b.drop q) [] 0 0 := ⟨rfl, h.rest_incomplete (Nat.zero_le _)⟩

/-- The packets of a chunk, then those of its rest and what comes later, are the packets of all. -/
theorem PacketChain.append_zero {a c : Bytes} {ks ks' : List Packet} {q r : Nat} (h : PacketChain a ks 0 q)
    (h' : PacketChain (a.drop q ++ c) ks' 0 r) : PacketChain (a ++ c) (ks ++ ks') 0 (q + r) :=
  h.append (Nat.zero_le _) h'

/-- R257: with no complete packet held, pushes that are all answered `ok` deliver the packets of the bytes held and
pushed, and keep their remainder. -/
theorem pushes_chain : ∀ {chunks : List Bytes} {s t : State} {ks : List Packet},
    PacketChain s.rbuf [] 0 0 → Pushes chunks s ks t →
      ∃ q, PacketChain (s.rbuf ++ chunks.flatten) ks 0 q ∧ t.rbuf = (s.rbuf ++ chunks.flatten).drop q
  | [], s, _, _, hheld, ⟨rfl, rfl⟩ => ⟨0, by rwa [List.flatten_nil, List.append_nil], by simp⟩
  | c :: cs, s, _, _, _, h => by
    obtain ⟨-, now, q, later, hnow, -, hpushes, rfl⟩ := pushes_cons_iff.1 h
    obtain ⟨r, hlater, hrest⟩ := pushes_chain (s := s.afterPush c now q) hnow.rest_empty hpushes
    have hq : q ≤ (s.rbuf ++ c).length := hnow.le (Nat.zero_le _)
    rw [List.flatten_cons, ← List.append_assoc]
    refine ⟨q + r, hnow.append_zero hlater, ?_⟩
    rw [hrest, State.afterPush_rbuf, ← List.drop_append_of_le_length hq, List.drop_drop]

/-- R257: the proviso under which no push overflows: nothing for BUF_CAP = INF, else packets of at most one byte more
than it and a remainder of at most `held` bytes. -/
def StaysWithin (bufCap : Bound) (ks : List Packet) (held : Nat) : Prop :=
  ∀ cap, bufCap = .fin cap → (∀ k ∈ ks, (Packet.wire k).length ≤ cap + 1) ∧ held ≤ cap

/-- The proviso passes on to the packets still to come. -/
theorem StaysWithin.of_append {bufCap : Bound} {now later : List Packet} {held : Nat}
    (h : StaysWithin bufCap (now ++ later) held) : StaysWithin bufCap later held := fun cap hcap =>
  let ⟨hwire, hheld⟩ := h cap hcap
  ⟨fun k hk => hwire k (List.mem_append_right now hk), hheld⟩

/-- R257: under the proviso what an initial part of the bytes leaves fits in BUF_CAP. -/
theorem StaysWithin.holds_of_front {bufCap : Bound} {a r : Bytes} {ks now : List Packet} {p q : Nat}
    (h : StaysWithin bufCap ks ((a ++ r).length - p)) (hall : PacketChain (a ++ r) ks 0 p)
    (hnow : PacketChain a now 0 q) : Bound.holds bufCap (a.length - q) := by
  cases bufCap with
  | inf => trivial
  | fin cap =>
    obtain ⟨hwire, hheld⟩ := h cap rfl
    exact chain_fits hall hnow hwire hheld

/-- R257: under the proviso every push is answered `ok`. -/
theorem exists_pushes : ∀ {chunks : List Bytes} {s : State} {ks : List Packet} {p : Nat}, s.rfault = false →
    PacketChain s.rbuf [] 0 0 → PacketChain (s.rbuf ++ chunks.flatten) ks 0 p →
    StaysWithin s.params.bufCap ks ((s.rbuf ++ chunks.flatten).length - p) → ∃ t, Pushes chunks s ks t
  | [], s, ks, p, _, hheld, hall, _ => by
    rw [List.flatten_nil, List.append_nil] at hall
    exact ⟨s, (hall.unique hheld).1, rfl⟩
  | c :: cs, s, ks, p, hclear, _, hall, hwithin => by
    rw [List.flatten_cons, ← List.append_assoc] at hall hwithin
    obtain ⟨now, q, hnow, -⟩ := parseStream_chain (s.rbuf ++ c)
    obtain ⟨later, r, hlater, -⟩ := parseStream_chain ((s.rbuf ++ c).drop q ++ cs.flatten)
    obtain ⟨rfl, rfl⟩ := hall.unique (hnow.append_zero hlater)
    have hq : q ≤ (s.rbuf ++ c).length := hnow.le (Nat.zero_le _)
    have hrest : ((s.rbuf ++ c).drop q ++ cs.flatten).length - r = (s.rbuf ++ c ++ cs.flatten).length - (q + r) := by
      rw [← List.drop_append_of_le_length hq, List.length_drop, Nat.sub_sub]
    obtain ⟨t, ht⟩ := exists_pushes (s := s.afterPush c now q) hclear hnow.rest_empty hlater
      (hrest ▸ hwithin.of_append)
    exact ⟨t, pushes_cons_iff.2 ⟨hclear, now, q, later, hnow, hwithin.holds_of_front hall hnow, ht, rfl⟩⟩

/-! R257's own case without the proviso: a packet of 20 bytes and BUF_CAP = 14. -/

/-- The first 15 bytes of the packet. -/
def splitPacketFront : Bytes :=
  [0x00, 0x08, 0x00, 0x01, 0x00, 0x28, 0x00, 0x00, 0x00, 0x00, 0x00, 0x01, 0xA1, 0xA2, 0xA3]

/-- Its last 5 bytes. -/
def splitPacketBack : Bytes := [0xA4, 0xA5, 0xA6, 0xA7, 0xA8]

def splitPacket : Packet := ⟨1, 0x28, 0, 0, 1, [0xA1, 0xA2, 0xA3, 0xA4, 0xA5, 0xA6, 0xA7, 0xA8]⟩

/-- A new block with BUF_CAP = 14. -/
def smallBuffer : State := State.create ⟨.inf, .inf, .fin 14⟩

theorem splitPacket_chain : PacketChain (splitPacketFront ++ splitPacketBack) [splitPacket] 0 20 :=
  ⟨20, rfl, rfl, 12, rfl⟩

theorem splitPacketFront_chain : PacketChain splitPacketFront [] 0 0 := ⟨rfl, 5, rfl⟩

theorem pushes_splitPacket_whole :
    ∃ t, Pushes [splitPacketFront ++ splitPacketBack] smallBuffer [splitPacket] t :=
  ⟨_, pushes_singleton_iff.2 ⟨rfl, 20, splitPacket_chain, Nat.zero_le 14, rfl⟩⟩

theorem not_pushes_splitPacket_split :
    ¬ ∃ ks t, Pushes [splitPacketFront, splitPacketBack] smallBuffer ks t := by
  rintro ⟨ks, t, h⟩
  obtain ⟨-, now, q, later, hnow, hfits, -⟩ := pushes_cons_iff.1 h
  obtain ⟨rfl, rfl⟩ := splitPacketFront_chain.unique hnow
  exact absurd (show 15 ≤ 14 from hfits) (by decide)

/-- Settles O40: `pushes_chain` from an empty RBUF, `exists_pushes` under either proviso, and R257's packet of 20 bytes
with BUF_CAP = 14. -/
theorem chunkingDoesNotMatter : Obligations.ChunkingDoesNotMatter := by
  refine ⟨fun s chunks hempty hclear => ?_, smallBuffer, splitPacketFront, splitPacketBack, rfl, rfl,
    ⟨_, pushes_splitPacket_whole⟩, not_pushes_splitPacket_split⟩
  have hheld : PacketChain s.rbuf [] 0 0 := hempty ▸ packetChain_empty
  have hbytes : s.rbuf ++ chunks.flatten = chunks.flatten := by rw [hempty, List.nil_append]
  obtain ⟨ks, p, hall, -⟩ := parseStream_chain (s.rbuf ++ chunks.flatten)
  have hexists := exists_pushes hclear hheld hall
  have hsame : ∀ ks' t, Pushes chunks s ks' t → ks' = ks ∧ t.rbuf = (s.rbuf ++ chunks.flatten).drop p := by
    intro ks' t hpushes
    obtain ⟨q, hchain, hrest⟩ := pushes_chain hheld hpushes
    obtain ⟨rfl, rfl⟩ := hchain.unique hall
    exact ⟨rfl, hrest⟩
  rw [hbytes] at hall hexists hsame
  refine ⟨ks, p, extracts_iff_chain.2 hall, hsame, fun hinf => hexists ?_, fun cap hcap hwire hrest => hexists ?_⟩
  · intro cap hcap
    cases hinf.symm.trans hcap
  · intro cap' hcap'
    cases hcap.symm.trans hcap'
    exact ⟨hwire, hrest⟩

end Sys2Proof.Machine

/-! PROOFS. The statements about the errors (60_exceptions.md): which codes an operation can answer, what an error
leaves behind, and the commands that are refused. -/

namespace Sys2Proof.Machine

/-! ## Operations that raise certain errors only -/

/-- Every error the operation can raise satisfies `P`. -/
def RaisesOnly {α : Type} (P : Error → Prop) (o : Except Error α) : Prop := ∀ e, o = .error e → P e

section RaisesOnly

variable {α β : Type} {P Q : Error → Prop}

theorem raisesOnly_ok (a : α) : RaisesOnly P (.ok a : Except Error α) := nofun

theorem raisesOnly_error {e : Error} (h : P e) : RaisesOnly P (.error e : Except Error α) := by
  rintro _ ⟨⟩
  exact h

theorem RaisesOnly.mono {o : Except Error α} (h : RaisesOnly P o) (hPQ : ∀ e, P e → Q e) : RaisesOnly Q o :=
  fun e he => hPQ e (h e he)

theorem RaisesOnly.bind {o : Except Error α} {f : α → Except Error β} (h : RaisesOnly P o)
    (hf : ∀ a, RaisesOnly P (f a)) : RaisesOnly P (o >>= f) := by
  intro e he
  rcases bind_eq_error.1 he with he | ⟨a, -, he⟩
  · exact h e he
  · exact hf a e he

theorem RaisesOnly.map {o : Except Error α} (h : RaisesOnly P o) (f : α → β) : RaisesOnly P (o.map f) := by
  cases o with
  | ok a => exact raisesOnly_ok (f a)
  | error e => exact raisesOnly_error (h e rfl)

end RaisesOnly

/-! ## The errors of a read (R270, R278) -/

/-- R105, R161, R162: the errors a read can raise, and what the mode and the parameters must be for it: VARINT_OVERFLOW
in strict mode, RESOURCE under a finite bound. -/
def ReadError (strict : Bool) (p : Params) : Error → Prop
  | .incomplete _ | .truncated _ | .unknownTdfType _ _ | .malformedLength _ _ => True
  | .varintOverflow _ => strict = true
  | .resource (.depth _) => p.maxDepth ≠ .inf
  | .resource (.count _) => p.maxElems ≠ .inf
  | .resource (.buffer _ _) | .precondition _ | .tooLong _ | .badCommand _ | .faulted => False

/-- An error of a read, its code one of `codes`. -/
def ReadRaises (strict : Bool) (p : Params) (codes : List Nat) (e : Error) : Prop :=
  Error.code e ∈ codes ∧ ReadError strict p e

theorem readRaises_truncated {strict : Bool} {p : Params} {codes : List Nat} {pos : Nat} (h : 2 ∈ codes) :
    ReadRaises strict p codes (.truncated pos) := ⟨h, trivial⟩

theorem RaisesOnly.read_mono {α : Type} {strict : Bool} {p : Params} {codes codes' : List Nat} {o : Except Error α}
    (h : RaisesOnly (ReadRaises strict p codes) o) (hsub : codes ⊆ codes') :
    RaisesOnly (ReadRaises strict p codes') o :=
  h.mono fun _ ⟨hcode, herror⟩ => ⟨hsub hcode, herror⟩

section ByteReads

variable {strict : Bool} {p : Params} {inp : Bytes} {pos : Nat}

theorem readFixed_raises {n : Nat} : RaisesOnly (ReadRaises strict p [2]) (readFixed inp pos n) := by
  intro e he
  obtain ⟨-, rfl⟩ := readFixed_eq_error.1 he
  exact readRaises_truncated (by decide)

theorem readU8_raises : RaisesOnly (ReadRaises strict p [2]) (readU8 inp pos) :=
  readFixed_raises.bind fun _ => raisesOnly_ok _

theorem readU16_raises : RaisesOnly (ReadRaises strict p [2]) (readU16 inp pos) :=
  readFixed_raises.bind fun _ => raisesOnly_ok _

theorem readU32_raises : RaisesOnly (ReadRaises strict p [2]) (readU32 inp pos) :=
  readFixed_raises.bind fun _ => raisesOnly_ok _

theorem readF64_raises : RaisesOnly (ReadRaises strict p [2]) (readF64 inp pos) :=
  readFixed_raises.bind fun _ => raisesOnly_ok _

/-- R105: a varint raises in strict mode only. -/
theorem readVarint_raises : RaisesOnly (ReadRaises strict p [2, 4]) (readVarint strict inp pos) := by
  cases strict with
  | false => exact raisesOnly_ok _
  | true =>
    rcases hloop : varintLoop inp 10 pos 0 with ⟨u, st, q⟩
    obtain ⟨hok, hshort, hguard⟩ := readVarint_strict hloop
    cases st with
    | ok => rw [hok rfl]; exact raisesOnly_ok _
    | short => rw [hshort rfl]; exact raisesOnly_error (readRaises_truncated (by decide))
    | guard => rw [hguard rfl]; exact raisesOnly_error ⟨by simp [Error.code], rfl⟩

theorem readInt_raises : RaisesOnly (ReadRaises strict p [2, 4]) (readInt strict inp pos) :=
  readVarint_raises.bind fun _ => raisesOnly_ok _

/-- R106: a length may be negative. -/
theorem readLen_raises : RaisesOnly (ReadRaises strict p [2, 4, 5]) (readLen strict inp pos) := by
  refine (readInt_raises.read_mono (by decide)).bind fun ⟨v, q⟩ => ?_
  dsimp only
  split
  · exact raisesOnly_error ⟨by simp [Error.code], trivial⟩
  · exact raisesOnly_ok _

/-- R117: the body may be cut short. -/
theorem readBlob_raises : RaisesOnly (ReadRaises strict p [2, 4, 5]) (readBlob strict inp pos) := by
  refine readLen_raises.bind fun ⟨n, q⟩ => ?_
  dsimp only
  split
  · exact raisesOnly_error (readRaises_truncated (by decide))
  · exact raisesOnly_ok _

theorem readString_raises : RaisesOnly (ReadRaises strict p [2, 4, 5]) (readString strict inp pos) :=
  readBlob_raises.bind fun _ => raisesOnly_ok _

/-- R222: a header, and so a packet, raises INCOMPLETE alone. -/
theorem readHeader_raises : RaisesOnly (ReadRaises strict p [1]) (readHeader inp pos) := by
  intro e he
  obtain ⟨need, rfl⟩ := readHeader_error inp pos he
  exact ⟨by simp [Error.code], trivial⟩

theorem readPacket_raises : RaisesOnly (ReadRaises strict p [1]) (readPacket inp pos) := by
  intro e he
  obtain ⟨need, rfl⟩ := readPacket_error inp pos he
  exact ⟨by simp [Error.code], trivial⟩

end ByteReads

/-! ## The errors of a TDF decode (R169 to R183, R200) -/

/-- R270: the errors of the TDF Value unit, decoding. -/
abbrev TdfRaises (env : DecEnv) : Error → Prop := ReadRaises env.strict env.params (tdfCodes true)

/-- A recursive step that raises those errors only. -/
def StepRaises (env : DecEnv) (rec : TdfReader) : Prop := ∀ q d, RaisesOnly (TdfRaises env) (rec q d)

section TdfReads

variable {env : DecEnv} {rec : TdfReader} {p d n : Nat} {tag : U24}

theorem checkDepth_raises : RaisesOnly (TdfRaises env) (checkDepth env.params d p) := by
  intro e he
  by_cases hd : Bound.holds env.params.maxDepth d
  · cases (checkDepth_ok hd).symm.trans he
  · cases (checkDepth_error hd).symm.trans he
    exact ⟨by simp [Error.code, tdfCodes], fun hinf => hd (hinf ▸ trivial)⟩

theorem checkCount_raises : RaisesOnly (TdfRaises env) (checkCount env.params n p) := by
  intro e he
  by_cases hn : Bound.holds env.params.maxElems n
  · cases (checkCount_ok hn).symm.trans he
  · cases (checkCount_error hn).symm.trans he
    exact ⟨by simp [Error.code, tdfCodes], fun hinf => hn (hinf ▸ trivial)⟩

theorem readU8_tdfRaises : RaisesOnly (TdfRaises env) (readU8 env.inp p) := readU8_raises.read_mono (by decide)

theorem readInt_tdfRaises : RaisesOnly (TdfRaises env) (readInt env.strict env.inp p) :=
  readInt_raises.read_mono (by decide)

theorem readString_tdfRaises : RaisesOnly (TdfRaises env) (readString env.strict env.inp p) :=
  readString_raises.read_mono (by decide)

theorem readF64_tdfRaises : RaisesOnly (TdfRaises env) (readF64 env.inp p) := readF64_raises.read_mono (by decide)

theorem readThree_raises : RaisesOnly (TdfRaises env) (readThree env p) :=
  readInt_tdfRaises.bind fun _ => readInt_tdfRaises.bind fun _ => readInt_tdfRaises.bind fun _ => raisesOnly_ok _

theorem readCount_raises : RaisesOnly (TdfRaises env) (readCount env p) :=
  (readLen_raises.read_mono (by decide)).bind fun _ => checkCount_raises.bind fun _ => raisesOnly_ok _

/-- R77 (b): a subtype byte may name no kind. -/
theorem readKind_raises : RaisesOnly (TdfRaises env) (readKind env p) := by
  intro e he
  rcases readKind_error_iff.1 he with ⟨-, rfl⟩ | ⟨b, -, -, rfl⟩
  · exact readRaises_truncated (by decide)
  · exact ⟨by simp [Error.code, tdfCodes], trivial⟩

theorem readInts_raises : ∀ n p, RaisesOnly (TdfRaises env) (readInts env n p)
  | 0, _ => raisesOnly_ok _
  | n + 1, _ => readInt_tdfRaises.bind fun _ => (readInts_raises n _).bind fun _ => raisesOnly_ok _

/-- R165: the input may end before the terminator; else a child raises. -/
theorem readChildren_raises (hrec : StepRaises env rec) : ∀ fuel p,
    RaisesOnly (TdfRaises env) (readChildren env.inp rec d fuel p)
  | 0, _ => raisesOnly_error (readRaises_truncated (by decide))
  | fuel + 1, p => by
    rw [readChildren]
    split
    · exact raisesOnly_error (readRaises_truncated (by decide))
    · split
      · exact raisesOnly_ok _
      · exact (hrec p d).bind fun _ => (readChildren_raises hrec fuel _).bind fun _ => raisesOnly_ok _

theorem readBody_raises (hrec : StepRaises env rec) : RaisesOnly (TdfRaises env) (readBody env rec p d) :=
  checkDepth_raises.bind fun _ => (readChildren_raises hrec _ _).bind fun _ => raisesOnly_ok _

theorem readElem_raises (hrec : StepRaises env rec) (k : Kind) :
    RaisesOnly (TdfRaises env) (readElem env rec k p d) := by
  cases k with
  | int => exact readInt_tdfRaises.bind fun _ => raisesOnly_ok _
  | string => exact readString_tdfRaises.bind fun _ => raisesOnly_ok _
  | struct => exact (readBody_raises hrec).bind fun _ => raisesOnly_ok _
  | triple => exact readThree_raises.bind fun _ => raisesOnly_ok _
  | float => exact readF64_tdfRaises.bind fun _ => raisesOnly_ok _

theorem readElems_raises {one : Nat → Except Error (Elem × Nat)} (hone : ∀ q, RaisesOnly (TdfRaises env) (one q)) :
    ∀ n p, RaisesOnly (TdfRaises env) (readElems one n p)
  | 0, _ => raisesOnly_ok _
  | n + 1, p => (hone p).bind fun _ => (readElems_raises hone n _).bind fun _ => raisesOnly_ok _

theorem readPairs_raises {oneA oneB : Nat → Except Error (Elem × Nat)} (hA : ∀ q, RaisesOnly (TdfRaises env) (oneA q))
    (hB : ∀ q, RaisesOnly (TdfRaises env) (oneB q)) : ∀ n p, RaisesOnly (TdfRaises env) (readPairs oneA oneB n p)
  | 0, _ => raisesOnly_ok _
  | n + 1, p => (hA p).bind fun _ => (hB _).bind fun _ => (readPairs_raises hA hB n _).bind fun _ => raisesOnly_ok _

theorem readUnionPayload_raises (hrec : StepRaises env rec) :
    RaisesOnly (TdfRaises env) (readUnionPayload env rec tag p d) := by
  refine readU8_tdfRaises.bind fun ⟨c, q⟩ => ?_
  dsimp only
  split
  · exact raisesOnly_ok _
  · exact (hrec q (d + 1)).bind fun _ => raisesOnly_ok _

/-- R170: the payload of each header type. -/
theorem readPayload_raises (hrec : StepRaises env rec) (ty : TdfType) :
    RaisesOnly (TdfRaises env) (readPayload env rec tag p d ty) := by
  cases ty with
  | int => exact readInt_tdfRaises.bind fun _ => raisesOnly_ok _
  | string => exact readString_tdfRaises.bind fun _ => raisesOnly_ok _
  | blob => exact (readBlob_raises.read_mono (by decide)).bind fun _ => raisesOnly_ok _
  | struct => exact (readBody_raises hrec).bind fun _ => raisesOnly_ok _
  | list =>
    exact readKind_raises.bind fun _ => readCount_raises.bind fun _ =>
      (readElems_raises (fun _ => readElem_raises hrec _) _ _).bind fun _ => raisesOnly_ok _
  | pairList =>
    exact readKind_raises.bind fun _ => readKind_raises.bind fun _ => readCount_raises.bind fun _ =>
      (readPairs_raises (fun _ => readElem_raises hrec _) (fun _ => readElem_raises hrec _) _ _).bind fun _ =>
        raisesOnly_ok _
  | union => exact readUnionPayload_raises hrec
  | varIntList => exact readCount_raises.bind fun _ => (readInts_raises _ _).bind fun _ => raisesOnly_ok _
  | pair => exact readInt_tdfRaises.bind fun _ => readInt_tdfRaises.bind fun _ => raisesOnly_ok _
  | triple => exact readThree_raises.bind fun _ => raisesOnly_ok _
  | float => exact readF64_tdfRaises.bind fun _ => raisesOnly_ok _

/-- R169, R182: the depth, the header word, its type byte, the payload. -/
theorem readValue_raises (hrec : StepRaises env rec) : RaisesOnly (TdfRaises env) (readValue env rec p d) := by
  refine checkDepth_raises.bind fun _ => (readU32_raises.read_mono (by decide)).bind fun ⟨w, q⟩ => ?_
  dsimp only
  split
  · exact raisesOnly_error ⟨by simp [Error.code, tdfCodes], trivial⟩
  · exact readPayload_raises hrec _

theorem readTdfFuel_raises : ∀ fuel, StepRaises env (readTdfFuel env fuel)
  | 0 => fun _ _ => checkDepth_raises.bind fun _ => raisesOnly_error (readRaises_truncated (by decide))
  | fuel + 1 => fun _ _ => readValue_raises (readTdfFuel_raises fuel)

theorem readTdf_raises : StepRaises env (readTdf env) := fun q d => readTdfFuel_raises _ q d

/-- R200: the values of a content. -/
theorem readContent_raises : ∀ fuel p, RaisesOnly (TdfRaises env) (readContent env fuel p)
  | 0, _ => raisesOnly_ok _
  | fuel + 1, p => by
    rw [readContent]
    split
    · exact (readTdf_raises p 1).bind fun _ => (readContent_raises fuel _).bind fun _ => raisesOnly_ok _
    · exact raisesOnly_ok _

end TdfReads

/-! ## The errors of a write (R270) -/

/-- R163, R161, R220: the errors an operation that writes can raise. -/
def WriteError : Error → Prop
  | .precondition _ | .resource (.depth _) | .tooLong _ => True
  | _ => False

/-- An error of a write, its code one of `codes`. -/
def WriteRaises (codes : List Nat) (e : Error) : Prop := Error.code e ∈ codes ∧ WriteError e

/-- R107: NUM.WR raises PRECONDITION alone. -/
theorem writeNum_raises {w : Int} {v : U64} : RaisesOnly (WriteRaises [6]) (writeNum w v) := by
  rw [writeNum]
  split
  · exact raisesOnly_ok _
  · exact raisesOnly_error ⟨by simp [Error.code], trivial⟩

/-- R220: PKT.ENC raises TOO_LONG alone. -/
theorem packetBytes_raises {component command error qtype id : U16} {content : Bytes} :
    RaisesOnly (WriteRaises [8]) (packetBytes component command error qtype id content) := by
  rw [packetBytes]
  dsimp only
  split
  · exact raisesOnly_error ⟨by simp [Error.code], trivial⟩
  · exact raisesOnly_ok _

/-- R161: a writer that settles raises RESOURCE for a depth alone. -/
theorem Writer.Settled.raises {w : Writer} {P : Prop} (h : Writer.Settled w P) (off : Nat) :
    RaisesOnly (WriteRaises (tdfCodes false)) (w off) := by
  obtain ⟨hwrites, htooDeep⟩ := h
  by_cases hP : P
  · obtain ⟨b, hb⟩ := hwrites hP
    rw [hb off]
    exact raisesOnly_ok _
  · obtain ⟨a, ha⟩ := htooDeep hP off
    rw [ha]
    exact raisesOnly_error ⟨by simp [Error.code, tdfCodes], trivial⟩

/-- R163, R276: PRECONDITION first; what is then written is well formed. -/
theorem checked_raises {r : Option Bad} {o : Except Error Bytes}
    (h : r = none → RaisesOnly (WriteRaises (tdfCodes false)) o) :
    RaisesOnly (WriteRaises (tdfCodes false)) (requireWellFormed r >>= fun _ => o) := by
  cases r with
  | none => exact h rfl
  | some bad => exact raisesOnly_error ⟨by simp [Error.code, tdfCodes], trivial⟩

theorem payloadWriter_settled (p : Params) {x : Tdf} (hwf : Tdf.WF x) (d : Nat) :
    ∃ P, Writer.Settled (payloadWriter p x d) P := by
  cases x with
  | int | string | blob | varIntList | pair | triple | float => exact ⟨_, emit_settled _⟩
  | struct tag start2 cs =>
    rw [Tdf.WF] at hwf
    rw [payloadWriter, encTdfs_eq_map]
    exact ⟨_, structBody_settled _ fun x hx => encTdfs_settled p cs hwf x hx (d + 1)⟩
  | list tag sub es =>
    rw [Tdf.WF] at hwf
    obtain ⟨-, hes⟩ := hwf
    rw [payloadWriter, encElems_eq_map]
    exact ⟨_, (emit_settled _).then (writeAll_settled _ fun e he => encElems_settled p es hes e he d)⟩
  | pairList tag subA subB as bs =>
    rw [Tdf.WF] at hwf
    obtain ⟨-, -, hlen, has, hbs⟩ := hwf
    rw [payloadWriter, encElems_eq_map, encElems_eq_map]
    exact ⟨_, (emit_settled _).then (pairWriters_settled _ _ hlen (fun e he => encElems_settled p as has e he d)
      fun e he => encElems_settled p bs hbs e he d)⟩
  | union tag disc inner =>
    rw [Tdf.WF] at hwf
    exact ⟨_, (emit_settled _).then (encInner_settled p disc inner hwf d)⟩

theorem checkedPayload_raises (p : Params) (x : Tdf) (off d : Nat) : RaisesOnly (WriteRaises (tdfCodes false))
    (requireWellFormed (checkTdf x) >>= fun _ => payloadWriter p x d off) := by
  refine checked_raises fun hcheck => ?_
  obtain ⟨P, hsettled⟩ := payloadWriter_settled p ((checkTdf_eq_none x).1 hcheck) d
  exact hsettled.raises off

theorem checkedElem_raises (p : Params) (x : Elem) (off d : Nat) : RaisesOnly (WriteRaises (tdfCodes false))
    (requireWellFormed (checkElem x) >>= fun _ => encElem p x d off) :=
  checked_raises fun hcheck => (encElem_settled p x ((checkElem_eq_none x).1 hcheck) d).raises off

theorem encodeTdf_raises (p : Params) (x : Tdf) : RaisesOnly (WriteRaises (tdfCodes false)) (encodeTdf p x) :=
  checked_raises fun hcheck => (encTdf_settled p x ((checkTdf_eq_none x).1 hcheck) 1).raises 0

theorem encodeContent_raises (p : Params) (vals : List Tdf) :
    RaisesOnly (WriteRaises (tdfCodes false)) (encodeContent p vals) := by
  refine checked_raises fun hcheck => (writeAll_settled vals fun x hx => encTdf_settled p x ?_ 1).raises 0
  exact (checkTdf_eq_none x).1 ((firstBad_eq_none _ 0).1 hcheck _ (List.mem_map_of_mem hx))

/-! ## The errors of each instruction (R270, R273) -/

/-- R270: the errors instruction `i` can raise in state `s`: of its codes, those of a read or those of a write. -/
def Instr.MayRaise (i : Instr) (s : State) (e : Error) : Prop :=
  match Instr.decodes i with
  | true => ReadRaises s.strictVarint s.params (Instr.errorCodes i) e
  | false => WriteRaises (Instr.errorCodes i) e

/-- The instruction changes no state of R20 and raises the errors of its own row of R270 only. -/
def AnswersOnlyItsErrors (s : State) (i : Instr) : Prop := ∃ o, exec i s = done s o ∧ RaisesOnly (Instr.MayRaise i s) o

/-- A dispatch row in its two directions. -/
theorem answersOnlyItsErrors_row {α : Type} {row : Dispatch α → Instr} {s : State} (o : Dispatch α)
    (hread : ∀ inp pos d, AnswersOnlyItsErrors s (row (.read inp pos d)))
    (hwrite : ∀ x off d, AnswersOnlyItsErrors s (row (.write x off d))) : AnswersOnlyItsErrors s (row o) := by
  cases o with
  | read inp pos d => exact hread inp pos d
  | write x off d => exact hwrite x off d

theorem rowOfHeader_answersOnlyItsErrors (s : State) (tag : U24) (ty : TdfType) (inp : Bytes) (pos d : Nat) :
    AnswersOnlyItsErrors s (rowOfHeader tag inp pos d ty) := by
  have hraises := (readPayload_raises (tag := tag) (p := pos) (d := d) (readTdf_raises (env := s.decEnv inp)) ty).map
    fun r => Result.tdfAt r.1 r.2
  cases ty <;> exact ⟨_, rfl, hraises⟩

theorem rowOfValue_answersOnlyItsErrors (s : State) (x : Tdf) (off d : Nat) :
    AnswersOnlyItsErrors s (rowOfValue off d x) := by
  have hraises := (checkedPayload_raises s.params x off d).map Result.bytes
  cases x <;> exact ⟨_, rfl, hraises⟩

theorem rowOfKind_answersOnlyItsErrors (s : State) (k : Kind) (inp : Bytes) (pos d : Nat) :
    AnswersOnlyItsErrors s (rowOfKind inp pos d k) := by
  have hraises := (readElem_raises (p := pos) (d := d) (readTdf_raises (env := s.decEnv inp)) k).map
    fun r => Result.elemAt r.1 r.2
  cases k <;> exact ⟨_, rfl, hraises⟩

theorem rowOfElem_answersOnlyItsErrors (s : State) (x : Elem) (off d : Nat) :
    AnswersOnlyItsErrors s (rowOfElem off d x) := by
  have hraises := (checkedElem_raises s.params x off d).map Result.bytes
  cases x <;> exact ⟨_, rfl, hraises⟩

/-- R270, row by row, for the instructions that write no state. -/
theorem answersOnlyItsErrors (i : Instr) (s : State) (h : Instr.writesState i = false) : AnswersOnlyItsErrors s i := by
  have header := rowOfHeader_answersOnlyItsErrors s
  have value := rowOfValue_answersOnlyItsErrors s
  have subtype := rowOfKind_answersOnlyItsErrors s
  have elem := rowOfElem_answersOnlyItsErrors s
  cases i with
  | zzEnc | zzDec | varintWr | strWr | blobWr | tagPack | tagUnpack | cfgRd | statRd => exact ⟨_, rfl, raisesOnly_ok _⟩
  | varintRd inp pos => exact ⟨_, rfl, readVarint_raises.map _⟩
  | numWr => exact ⟨_, rfl, writeNum_raises.map _⟩
  | rdU8 inp pos => exact ⟨_, rfl, readU8_raises.map _⟩
  | rdU16 inp pos => exact ⟨_, rfl, readU16_raises.map _⟩
  | rdU32 inp pos => exact ⟨_, rfl, readU32_raises.map _⟩
  | rdF64 inp pos => exact ⟨_, rfl, readF64_raises.map _⟩
  | strRd inp pos => exact ⟨_, rfl, readString_raises.map _⟩
  | blobRd inp pos => exact ⟨_, rfl, readBlob_raises.map _⟩
  | tdfEnc x => exact ⟨_, rfl, (encodeTdf_raises s.params x).map _⟩
  | tdfDec inp pos => exact ⟨_, rfl, (readTdf_raises pos 1).map _⟩
  | contentDec content => exact ⟨_, rfl, (readContent_raises content.length 0).map _⟩
  | contentEnc vals => exact ⟨_, rfl, (encodeContent_raises s.params vals).map _⟩
  | pktEnc => exact ⟨_, rfl, packetBytes_raises.map _⟩
  | pktHdr inp pos => exact ⟨_, rfl, readHeader_raises.map _⟩
  | pktDec inp pos => exact ⟨_, rfl, readPacket_raises.map _⟩
  | streamPush | cfgWr | blockReset => cases h
  | tdfInt tag o => exact answersOnlyItsErrors_row o (header tag .int) fun v => value (.int tag v)
  | tdfString tag o => exact answersOnlyItsErrors_row o (header tag .string) fun str => value (.string tag str)
  | tdfBlob tag o => exact answersOnlyItsErrors_row o (header tag .blob) fun b => value (.blob tag b)
  | tdfStruct tag o => exact answersOnlyItsErrors_row o (header tag .struct) fun (m, cs) => value (.struct tag m cs)
  | tdfList tag o => exact answersOnlyItsErrors_row o (header tag .list) fun (k, es) => value (.list tag k es)
  | tdfPairList tag o =>
    exact answersOnlyItsErrors_row o (header tag .pairList) fun (ka, kb, as, bs) => value (.pairList tag ka kb as bs)
  | tdfUnion tag o => exact answersOnlyItsErrors_row o (header tag .union) fun (c, y) => value (.union tag c y)
  | tdfVarIntList tag o =>
    exact answersOnlyItsErrors_row o (header tag .varIntList) fun vs => value (.varIntList tag vs)
  | tdfPair tag o => exact answersOnlyItsErrors_row o (header tag .pair) fun (a, b) => value (.pair tag a b)
  | tdfTriple tag o => exact answersOnlyItsErrors_row o (header tag .triple) fun (a, b, c) => value (.triple tag a b c)
  | tdfFloat tag o => exact answersOnlyItsErrors_row o (header tag .float) fun bits => value (.float tag bits)
  | unionEmpty tag o =>
    exact answersOnlyItsErrors_row o (fun _ _ _ => ⟨_, rfl, raisesOnly_ok _⟩) fun _ _ _ => ⟨_, rfl, raisesOnly_ok _⟩
  | elemInt o => exact answersOnlyItsErrors_row o (subtype .int) fun v => elem (.int v)
  | elemString o => exact answersOnlyItsErrors_row o (subtype .string) fun str => elem (.string str)
  | elemStruct o => exact answersOnlyItsErrors_row o (subtype .struct) fun (m, cs) => elem (.struct m cs)
  | elemTriple o => exact answersOnlyItsErrors_row o (subtype .triple) fun (a, b, c) => elem (.triple a b c)
  | elemFloat o => exact answersOnlyItsErrors_row o (subtype .float) fun bits => elem (.float bits)

/-- An error that an instruction answers without writing state is one of its row's. -/
theorem Gives.mayRaise {i : Instr} {s : State} {e : Error} (h : Gives i s (.err e))
    (hwrites : Instr.writesState i = false) : Instr.MayRaise i s e := by
  obtain ⟨o, hexec, hraises⟩ := answersOnlyItsErrors i s hwrites
  have hresp := (gives_of_done hexec _).1 h
  cases o with
  | ok r => cases hresp
  | error e' => cases hresp; exact hraises e rfl

/-- R273: a decode answers INCOMPLETE alone, which waits for more input, or never, and loses the content. -/
theorem Instr.errorClass_of_decodes {i : Instr} (h : Instr.decodes i = true) :
    (Instr.errorCodes i = [1] ∧ Instr.errorClass i = .recoverable) ∨
      (1 ∉ Instr.errorCodes i ∧ Instr.errorClass i = .contentLost) := by
  have htdf : 1 ∉ tdfCodes true := by decide
  cases i with
  | pktHdr | pktDec => exact .inl ⟨rfl, rfl⟩
  | rdU8 | rdU16 | rdU32 | rdF64 => exact .inr ⟨show 1 ∉ [2] by decide, rfl⟩
  | varintRd => exact .inr ⟨show 1 ∉ [2, 4] by decide, rfl⟩
  | strRd | blobRd => exact .inr ⟨show 1 ∉ [2, 4, 5] by decide, rfl⟩
  | tdfDec | contentDec => exact .inr ⟨htdf, rfl⟩
  | tdfInt _ o | tdfString _ o | tdfBlob _ o | tdfStruct _ o | tdfList _ o | tdfPairList _ o | tdfUnion _ o
  | tdfVarIntList _ o | tdfPair _ o | tdfTriple _ o | tdfFloat _ o | unionEmpty _ o | elemInt o | elemString o
  | elemStruct o | elemTriple o | elemFloat o =>
    cases o with
    | read => exact .inr ⟨htdf, rfl⟩
    | write => cases h
  | _ => cases h

theorem ReadError.classOf {strict : Bool} {p : Params} {e : Error} (h : ReadError strict p e) :
    Error.classOf true e = if Error.code e = 1 then .recoverable else .contentLost := by
  cases e with
  | incomplete | truncated | unknownTdfType | varintOverflow | malformedLength => rfl
  | resource info =>
    cases info with
    | depth | count => rfl
    | buffer => cases h
  | _ => cases h

theorem WriteError.classOf {e : Error} (h : WriteError e) : Error.classOf false e = .callerError := by
  cases e with
  | precondition | tooLong => rfl
  | resource info =>
    cases info with
    | depth => rfl
    | count | buffer => cases h
  | _ => cases h

/-- R273: what neither decodes nor writes state is a caller's write. -/
theorem Instr.errorClass_of_not_decodes {i : Instr} (h : Instr.decodes i = false)
    (hwrites : Instr.writesState i = false) : Instr.errorClass i = .callerError := by
  unfold Instr.errorClass
  split
  · cases h
  · cases h
  · cases hwrites
  · rw [h]
    rfl

/-- R273: the class of an error that the instruction may raise is the instruction's. -/
theorem Instr.MayRaise.classOf {i : Instr} {s : State} {e : Error} (h : Instr.MayRaise i s e)
    (hwrites : Instr.writesState i = false) : Error.classOf (Instr.decodes i) e = Instr.errorClass i := by
  unfold Instr.MayRaise at h
  split at h
  next hdec =>
    obtain ⟨hcode, herror⟩ := h
    rw [hdec, herror.classOf]
    rcases Instr.errorClass_of_decodes hdec with ⟨hcodes, hclass⟩ | ⟨hcodes, hclass⟩
    · rw [hcodes, List.mem_singleton] at hcode
      rw [if_pos hcode, hclass]
    · rw [if_neg fun hone : Error.code e = 1 => hcodes (hone ▸ hcode), hclass]
  next hdec =>
    obtain ⟨-, herror⟩ := h
    rw [hdec, herror.classOf, Instr.errorClass_of_not_decodes hdec hwrites]

theorem Instr.MayRaise.code_mem {i : Instr} {s : State} {e : Error} (h : Instr.MayRaise i s e) :
    Error.code e ∈ Instr.errorCodes i := by
  unfold Instr.MayRaise at h
  split at h <;> exact h.left

/-- An instruction answers an error as one that writes no state, or as a STREAM.PUSH, FAULTED or RESOURCE. -/
theorem exec_error_cases {i : Instr} {s t : State} {e : Error} (h : exec i s = .next t)
    (hresp : t.responses = s.responses ++ [.err e]) : (Instr.writesState i = false ∧ Gives i s (.err e)) ∨
      ∃ chunk, i = .streamPush chunk ∧ ((e = .faulted ∧ Gives i s (.err e)) ∨
        ∃ held cap, e = .resource (.buffer held cap) ∧
          t = { s with rfault := true, responses := s.responses ++ [.err e] }) := by
  have last {x : Response} {u : State} (hu : exec i s = .next u) (hx : u.responses = s.responses ++ [x]) :
      x = .err e := by
    cases hu.symm.trans h
    exact (append_one_injective _ _ _).1 (hx.symm.trans hresp)
  rcases exec_cases i s with ⟨r, hr, hwrites⟩ | ⟨v, rfl⟩ | rfl | ⟨chunk, rfl⟩
  · cases last hr rfl
    exact .inl ⟨hwrites, hr⟩
  · cases last rfl rfl
  · cases last rfl rfl
  · refine .inr ⟨chunk, rfl, ?_⟩
    rcases streamPush_cases chunk s with ⟨hr, -⟩ | ⟨-, ⟨ks, q, -, -, hx⟩ | ⟨held, cap, hx⟩⟩
    · cases last hr rfl
      exact .inl ⟨rfl, hr⟩
    · cases last hx rfl
    · cases last hx rfl
      cases hx.symm.trans h
      exact .inr ⟨held, cap, rfl, rfl⟩

/-- Settles O49: an error is one of the instruction's row, or one of STREAM.PUSH's two. -/
theorem errorsByOperation : Obligations.ErrorsByOperation := by
  intro i s t e hexec hresp
  rcases exec_error_cases hexec hresp with ⟨hwrites, hgives⟩ | ⟨chunk, rfl, ⟨rfl, -⟩ | ⟨held, cap, rfl, -⟩⟩
  · have hraise := hgives.mayRaise hwrites
    exact ⟨hraise.code_mem, hraise.classOf hwrites⟩
  · exact ⟨show 10 ∈ [7, 10] by decide, rfl⟩
  · exact ⟨show 7 ∈ [7, 10] by decide, rfl⟩

/-- R278: with lenient varints and no bounds, four codes are left. -/
theorem ReadError.code_of_lenient {e : Error} (h : ReadError false Params.unbounded e) :
    Error.code e ∈ [1, 2, 3, 5] := by
  cases e with
  | incomplete | truncated | unknownTdfType | malformedLength => simp [Error.code]
  | resource info =>
    cases info with
    | depth | count => exact absurd rfl h
    | buffer => cases h
  | _ => cases h

theorem Instr.writesState_of_decodes {i : Instr} (h : Instr.decodes i = true) : Instr.writesState i = false := by
  unfold Instr.writesState
  split
  · cases h
  · cases h
  · cases h
  · rfl

/-- Settles O34: the errors of a read that neither strict mode nor a bound is needed for. -/
theorem lenientDecodeErrorCodes : Obligations.LenientDecodeErrorCodes := by
  intro s i hstrict hparams hdec
  have hwrites := Instr.writesState_of_decodes hdec
  obtain ⟨r, hr⟩ := gives_of_not_writesState i s hwrites
  refine ⟨r, hr, ?_⟩
  cases r with
  | ok x => exact List.mem_cons_self
  | err e =>
    have hraise := hr.mayRaise hwrites
    rw [Instr.MayRaise, hdec, hstrict, hparams] at hraise
    exact List.mem_cons_of_mem 0 (ReadError.code_of_lenient hraise.right)

/-! ## What an error leaves behind, and that every request is answered (R272, R277) -/

/-- R273: an instruction that writes no state never answers the RESOURCE of a full buffer. -/
theorem not_gives_buffer {i : Instr} {s : State} {held cap : Nat} (hwrites : Instr.writesState i = false) :
    ¬ Gives i s (.err (.resource (.buffer held cap))) := by
  intro h
  have hraise := h.mayRaise hwrites
  unfold Instr.MayRaise at hraise
  split at hraise <;> exact hraise.right

/-- R272: the RFAULT that an error response leaves. -/
def rfaultAfter (b : Bool) : Error → Bool
  | .resource (.buffer _ _) => true
  | _ => b

theorem rfaultAfter_of_ne {b : Bool} {e : Error} (h : ∀ held cap, e ≠ .resource (.buffer held cap)) :
    rfaultAfter b e = b := by
  unfold rfaultAfter
  split
  · exact absurd rfl (h _ _)
  · rfl

/-- R272 for an instruction. -/
theorem exec_error_eq {i : Instr} {s t : State} {e : Error} (h : exec i s = .next t)
    (hresp : t.responses = s.responses ++ [.err e]) :
    t = { s with responses := s.responses ++ [.err e], rfault := rfaultAfter s.rfault e } := by
  rcases exec_error_cases h hresp with ⟨hwrites, hgives⟩ | ⟨chunk, rfl, ⟨rfl, hgives⟩ | ⟨held, cap, rfl, ht⟩⟩
  · rw [rfaultAfter_of_ne fun held cap he => not_gives_buffer hwrites (he ▸ hgives)]
    exact Host.Outcome.next.inj (h.symm.trans hgives)
  · exact Host.Outcome.next.inj (h.symm.trans hgives)
  · exact ht

/-- Settles O48: a step idles, refuses the request, or runs its instruction. -/
theorem errorsKeepPersistentState : Obligations.ErrorsKeepPersistentState := by
  intro s t e hstep hresp
  show t = { s with port := s.port.tail, responses := s.responses ++ [.err e], rfault := rfaultAfter s.rfault e }
  rcases step_cases s with ⟨-, hidle⟩ | ⟨r, rest, hport, ⟨e', hne, -, hrefused⟩ | ⟨i, -, hexec⟩⟩
  · cases hidle.symm.trans hstep
    exact absurd hresp (by simp)
  · cases hrefused.symm.trans hstep
    cases (append_one_injective _ _ _).1 hresp
    rw [rfaultAfter_of_ne hne, hport]
    rfl
  · rw [exec_error_eq (hexec.symm.trans hstep) hresp, hport]
    rfl

/-- R277: an instruction gives one response and takes no request. -/
theorem exec_answers (i : Instr) (s : State) :
    ∃ t x, exec i s = .next t ∧ t.port = s.port ∧ t.responses = s.responses ++ [x] := by
  rcases exec_cases i s with ⟨r, hr, -⟩ | ⟨v, rfl⟩ | rfl | ⟨chunk, rfl⟩
  · exact ⟨_, r, hr, rfl, rfl⟩
  · exact ⟨_, .ok .unit, rfl, rfl, rfl⟩
  · exact ⟨_, .ok .unit, rfl, rfl, rfl⟩
  · rcases streamPush_cases chunk s with ⟨hr, -⟩ | ⟨-, ⟨ks, q, -, -, hx⟩ | ⟨held, cap, hx⟩⟩
    · exact ⟨_, _, hr, rfl, rfl⟩
    · exact ⟨_, _, hx, rfl, rfl⟩
    · exact ⟨_, _, hx, rfl, rfl⟩

theorem Response.code_le (x : Response) : Response.code x ≤ 10 := by
  cases x with
  | ok r => exact Nat.zero_le 10
  | err e => cases e <;> simp [Response.code, Error.code]

/-- Settles O54: a request is refused with one error, or its instruction gives one response. -/
theorem everyRequestGetsOneResponse : Obligations.EveryRequestGetsOneResponse := by
  intro s
  rcases step_cases s with ⟨hempty, hidle⟩ | ⟨r', rest', hport', hrun⟩
  · refine ⟨fun _ => hidle, fun r rest hport => ?_⟩
    cases hempty.symm.trans hport
  · refine ⟨fun hempty => ?_, fun r rest hport => ?_⟩
    · cases hempty.symm.trans hport'
    · obtain ⟨-, rfl⟩ := List.cons.inj (hport'.symm.trans hport)
      rcases hrun with ⟨e, -, -, hrefused⟩ | ⟨i, -, hexec⟩
      · exact ⟨_, _, hrefused, rfl, rfl, Response.code_le _⟩
      · obtain ⟨t, x, ht, hkeeps, hresp⟩ := exec_answers i { s with port := rest' }
        exact ⟨t, x, hexec.trans ht, hkeeps, hresp, Response.code_le x⟩

/-! ## Refused commands (R285) -/

theorem decode_cmd_eq (code : Byte) (ops : List Operand) : decode (.cmd code ops) = decodeCommand code ops := if_pos rfl

/-- R285: a step refuses the command that the decoder rejects. -/
theorem step_of_decode_error {s : State} {code : Byte} {ops : List Operand} {rest : List Request} {e : DecodeError}
    (hport : s.port = .cmd code ops :: rest) (hdec : decode (.cmd code ops) = .error e) :
    step s =
      .next { s with port := rest, responses := s.responses ++ [.err (rejection (.cmd code ops) e)] } := by
  have hfetch : fetchDecode s.params (.cmd code ops) = .error (rejection (.cmd code ops) e) := by
    rw [fetchDecode, fetch, bind_ok, hdec]
  rw [step, hport]
  dsimp only
  rw [hfetch, State.take, hport]
  rfl

theorem commandTable_of_reserved {code : Byte} (h : code.toNat ∉ [0x01, 0x02, 0x03, 0x04, 0x05, 0x06, 0x07, 0x08, 0x09,
    0x0A, 0x0B, 0x0C, 0x0D, 0x10, 0x11, 0x20, 0x21, 0x22, 0x23, 0x30, 0x31, 0x32, 0x40, 0x41, 0x42, 0x43, 0x4F]) :
    commandTable code = none := by
  revert code
  decide

/-- Settles O55: the table has no row for the code. -/
theorem reservedCodesRefused : Obligations.ReservedCodesRefused := by
  intro s code ops rest hport hcode
  refine step_of_decode_error (e := .reservedCode code) hport ?_
  rw [decode_cmd_eq, decodeCommand, commandTable_of_reserved hcode]

/-- R285: the operands are those of no command of this code. -/
def NoCommand (code : Byte) (ops : List Operand) : Prop := ∃ take, commandTable code = some take ∧ take ops = none

theorem step_of_noCommand {s : State} {code : Byte} {ops : List Operand} {rest : List Request}
    (hport : s.port = .cmd code ops :: rest) (h : NoCommand code ops) :
    step s = .next { s with port := rest, responses := s.responses ++ [.err (.badCommand code)] } := by
  obtain ⟨take, hcode, htake⟩ := h
  refine step_of_decode_error (e := .badOperand code) hport ?_
  rw [decode_cmd_eq, decodeCommand, hcode]
  dsimp only
  rw [htake]

/-! ### Numbers outside their type -/

theorem asI64_of_outside {n : Int} (h : ¬ (-(2 ^ 63) ≤ n ∧ n < 2 ^ 63)) : Operand.asI64 (.int n) = none := if_neg h

theorem asUnsigned_of_outside {n : Int} {w : Nat} (h : ¬ (0 ≤ n ∧ n < 2 ^ w)) : Operand.asUnsigned w (.int n) = none :=
  if_neg h

theorem takeOne_of_none {α : Type} {ty : Operand → Option α} {mk : α → Instr} {o : Operand} (h : ty o = none) :
    takeOne ty mk [o] = none := by
  rw [takeOne, h, Option.map_none]

theorem takeNum_of_outside {w n : Int} (h : ¬ (0 ≤ n ∧ n < 2 ^ 64)) : takeNum [.int w, .int n] = none := by
  rw [takeNum, asUnsigned_of_outside h]
  rfl

theorem takeCursor_of_outside {mk : Bytes → Nat → Instr} {inp : Bytes} {n : Int} (h : ¬ (0 ≤ n ∧ n ≤ inp.length)) :
    takeCursor mk [.bytes inp, .int n] = none := if_neg h

/-- R220: PKT.ENC reads its operands only when each of the numbers is a U16. -/
theorem takePacket_numbers {ops : List Operand} {i : Instr} (h : takePacket ops = some i) {n : Int}
    (hn : Operand.int n ∈ ops) : 0 ≤ n ∧ n < 2 ^ 16 := by
  have u16 {m : Int} {v : U16} (hv : Operand.asUnsigned 16 (.int m) = some v) : 0 ≤ m ∧ m < 2 ^ 16 := by
    by_contra hout
    cases (asUnsigned_of_outside hout).symm.trans hv
  unfold takePacket at h
  split at h
  · split at h
    · rename_i hcomponent hcommand herror hqtype hid hcontent
      obtain rfl := asBytes_eq_some hcontent
      simp only [List.mem_cons, List.not_mem_nil, reduceCtorEq, or_false] at hn
      rcases hn with rfl | rfl | rfl | rfl | rfl
      · exact u16 hcomponent
      · exact u16 hcommand
      · exact u16 herror
      · exact u16 hqtype
      · exact u16 hid
    · cases h
  · cases h

/-! ### Operands of the wrong kind or number -/

/-- R80: the operands a command is encoded with have the kinds of its row. -/
theorem encode_kinds {i : Instr} {code : Byte} {ops : List Operand} (h : encode i = .cmd code ops) :
    (code, ops.map Operand.kind) ∈ commandShapes := by
  cases i with
  | tdfInt _ o | tdfString _ o | tdfBlob _ o | tdfStruct _ o | tdfList _ o | tdfPairList _ o | tdfUnion _ o
  | tdfVarIntList _ o | tdfPair _ o | tdfTriple _ o | tdfFloat _ o | unionEmpty _ o | elemInt o | elemString o
  | elemStruct o | elemTriple o | elemFloat o => cases o <;> cases h
  | _ =>
    cases h
    simp [commandShapes, cursorOps, Operand.kind]

/-- R80: each code has one row. -/
theorem commandShapes_unique : ∀ a ∈ commandShapes, ∀ b ∈ commandShapes, a.1 = b.1 → a = b := by decide

theorem exists_commandTable : ∀ a ∈ commandShapes, (commandTable a.1).isSome = true := by decide

theorem noCommand_of_kinds {code : Byte} {ops : List Operand} {kinds : List OperandKind}
    (hshape : (code, kinds) ∈ commandShapes) (hkinds : ops.map Operand.kind ≠ kinds) : NoCommand code ops := by
  obtain ⟨take, hcode⟩ := Option.isSome_iff_exists.1 (exists_commandTable _ hshape)
  refine ⟨take, hcode, Option.eq_none_iff_forall_ne_some.2 fun i htake => hkinds ?_⟩
  obtain ⟨hencode, -⟩ := commandTable_encodesBack hcode ops i htake
  exact (Prod.mk.inj (commandShapes_unique _ (encode_kinds hencode) _ hshape rfl)).2

/-- Settles O56: each kind of bad operand is one the reader of its command does not take. -/
theorem outOfTypeOperandsRefused : Obligations.OutOfTypeOperandsRefused := by
  intro s rest code ops hport hbad
  refine step_of_noCommand hport ?_
  rcases hbad with ⟨hcode, n, rfl, hn⟩ | ⟨n, w, hcode, rfl, hn⟩ | ⟨rfl, w, n, rfl, hn⟩ |
    ⟨rfl, ns, b, rfl, -, n, hmem, hn⟩ | ⟨hcode, inp, n, rfl, hn⟩ | ⟨kinds, hshape, hkinds⟩
  · simp only [List.mem_cons, List.not_mem_nil, or_false] at hcode
    rcases hcode with rfl | rfl <;> exact ⟨_, rfl, takeOne_of_none (asI64_of_outside hn)⟩
  · simp only [List.mem_cons, List.not_mem_nil, or_false, Prod.mk.injEq] at hcode
    rcases hcode with ⟨rfl, rfl⟩ | ⟨rfl, rfl⟩ | ⟨rfl, rfl⟩ <;>
      exact ⟨_, rfl, takeOne_of_none (asUnsigned_of_outside hn)⟩
  · exact ⟨_, rfl, takeNum_of_outside hn⟩
  · refine ⟨_, rfl, Option.eq_none_iff_forall_ne_some.2 fun i htake => hn (takePacket_numbers htake ?_)⟩
    exact List.mem_append_left _ (List.mem_map_of_mem hmem)
  · simp only [List.mem_cons, List.not_mem_nil, or_false] at hcode
    rcases hcode with rfl | rfl | rfl | rfl | rfl | rfl | rfl | rfl | rfl | rfl <;>
      exact ⟨_, rfl, takeCursor_of_outside hn⟩
  · exact noCommand_of_kinds hshape hkinds

end Sys2Proof.Machine
